-- ==== Sys2Proof/Word.lean ====
section
/-!
DEFINITION. The word types of the block (20_memory R50 to R52, 30_encoding R70).
-/

namespace Sys2Proof

/-- A frame-buffer cell, an operand field, a palette index, a RandomSource byte (R50, R52). -/
abbrev Byte := BitVec 8

/-- A command word or a response word: 32 parallel wires, wire `i` is bit `i` (R52, R70). -/
abbrev Word32 := BitVec 32

/-- An RGB triple packed `{R, G, B}`, or an LED word packed `{G, R, B}` (R51). -/
abbrev Color := BitVec 24

/-- A value of the output port. `PORTW` is a parameter of the build (R6), so a port value is a number whose bit `b` is
port bit `b`; that it stays below `2^PORTW` is an invariant. DESIGN CHOICE, safe: log entry 10. -/
abbrev PortVal := Nat

end Sys2Proof
end

