-- ==== Sys2Proof/Config.lean ====
section
/-!
DEFINITION. The configuration record of a build (00_scope R6 to R9), its legality (R7), and the free values.
A configuration is fixed at build time and is not state of the block; `State` carries it unchanged so that one step
function serves every build (log entry 1).
-/

namespace Sys2Proof

/-- The palette strategy, "selected once at build/configuration time" (R6, R91). -/
inductive PalMode where
  | rom | ram | cal
  deriving DecidableEq, Repr

/-- How a diffusion result of 256 or 257 is narrowed (R122, U4); the default is `sat`. -/
inductive Narrow where
  | sat | wrap
  deriving DecidableEq, Repr

/-- What a bottom-row cell reads as its lower neighbour (R125, U5); the default is `center`. -/
inductive DownAtBottom where
  | center | zero
  deriving DecidableEq, Repr

/-- A map of cell numbers to frame-buffer addresses. `direct` is the spec's default (R53, R67); `table` is the bijection
that D7, D8 and U19 let a build take instead. -/
inductive CellMap where
  | direct
  | table (t : List Nat)
  deriving DecidableEq, Repr

/-- A map is legal for `n` cells when it is a bijection of `0 .. n-1`. -/
def CellMap.legal (n : Nat) : CellMap → Bool
  | .direct => true
  | .table t => decide (t.length = n) && decide t.Nodup && t.all (fun a => decide (a < n))

/-- The parameters of a build (R6, R9, R122, R125, R224 and the list that ends 92_eei_decisions). -/
structure Params where
  /-- `W`, logical width in cells. -/
  w : Nat
  /-- `H`, logical height in cells. -/
  h : Nat
  /-- `L`, LEDs in series on one data line. -/
  l : Nat
  /-- `FIRST_PIN`, the port bit of chain 0. -/
  firstPin : Nat
  /-- `PORTW`, width of the output port. -/
  portw : Nat
  /-- `PALMODE`. -/
  palMode : PalMode
  /-- `PALSRC`, a total pure function of the index, written as its 256 values (R61, U6). -/
  palSrc : List Color
  /-- `TH`, cycles with every chain line high. -/
  th : Nat
  /-- `TP`, cycles with each chain line at its data bit. -/
  tp : Nat
  /-- `TL`, cycles with every chain line low. -/
  tl : Nat
  /-- `T_LATCH`, the latch hold. -/
  tLatch : Nat
  /-- `T_IDLE`, the idle delay of a tick. -/
  tIdle : Nat
  /-- `T_FETCH`, worst-case cycles of one color fetch (R224). -/
  tFetch : Nat
  /-- `NARROW`. -/
  narrow : Narrow
  /-- `DOWN_AT_BOTTOM`. -/
  downAtBottom : DownAtBottom
  /-- `addr`, applied to the row-major number `y*W + x` (R53, U19). -/
  addrMap : CellMap
  /-- `pixmap`, applied to the number `c*L + p` (R67, U19). -/
  pixMap : CellMap
  deriving DecidableEq, Repr

/-- `NPIX = W*H` (R6). -/
def Params.npix (p : Params) : Nat := p.w * p.h

/-- `N = NPIX / L`, the number of parallel chains (R6). -/
def Params.n (p : Params) : Nat := p.npix / p.l

/-- `TBIT = TH + TP + TL` (R9). -/
def Params.tbit (p : Params) : Nat := p.th + p.tp + p.tl

/-- A legal parameter set: R7 (`L` divides `W*H`; the limits of D9; `FIRST_PIN + N <= PORTW`), R148 (`T_LATCH` never
below 960), R224 (the prefetch budget; empty for `L = 1`), R61 (`PALSRC` total on 0..255), U19 (maps are bijections).
That each phase of a bit time and each fetch lasts at least one cycle is a DESIGN CHOICE, safe: log entry 15. -/
abbrev Params.Legal (p : Params) : Prop :=
  (1 ≤ p.w ∧ p.w ≤ 256) ∧ (1 ≤ p.h ∧ p.h ≤ 256) ∧ 1 ≤ p.l ∧ p.l ∣ p.npix ∧ p.firstPin + p.n ≤ p.portw ∧
  p.palSrc.length = 256 ∧ (1 ≤ p.th ∧ 1 ≤ p.tp ∧ 1 ≤ p.tl) ∧ 960 ≤ p.tLatch ∧
  (1 ≤ p.tFetch ∧ (p.l = 1 ∨ p.n * p.tFetch ≤ 24 * p.tbit)) ∧
  p.addrMap.legal p.npix = true ∧ p.pixMap.legal p.npix = true

/-- A configuration: parameters with the proof that they are legal, so that no machine exists for an illegal set (R7). -/
structure Config extends Params where
  /-- "Invalid combinations ... are a configuration error, not a runtime one" (R7). -/
  ok : toParams.Legal
  deriving DecidableEq, Repr

/-- Build a machine's configuration, or refuse (R7, U13). -/
def Config.build (p : Params) : Option Config :=
  if h : p.Legal then some { toParams := p, ok := h } else none

/-- The color source of the spec's examples, "the spec's own test fixture and not the product's palette":
`(R, G, B) = (i, 255 - i, i xor 0x55)` (95_test_vectors, N12). -/
def Params.fixture : List Color :=
  (List.range 256).map fun i => BitVec.ofNat 24 (i * 65536 + (255 - i) * 256 + (i ^^^ 0x55))

/-- A build with the spec's defaults (R6, R9, D3 to D6, D22, D23, U19) for an open size, chain length and mode. -/
def Params.ofSize (w h l : Nat) (mode : PalMode) : Params where
  w := w
  h := h
  l := l
  firstPin := 2
  portw := 8
  palMode := mode
  palSrc := Params.fixture
  th := 7
  tp := 6
  tl := 7
  tLatch := 960
  tIdle := 0
  tFetch := 1
  narrow := .sat
  downAtBottom := .center
  addrMap := .direct
  pixMap := .direct

/-- The build whose reset state is `State.reset`: the 8 by 4 RAM-mode build of the spec's program P1. The size, the mode and
the palette are open parameters of the spec. DESIGN CHOICE, unsafe for a claim about `State.reset` alone: log entry 1. -/
def Config.sample : Config where
  toParams := Params.ofSize 8 4 32 .ram
  ok := by decide +kernel

/-- FREE VALUE (R45, R57, U14; log entry 5): the byte the RandomSource answers to draw number `d`. -/
opaque Config.rngByte (d : Nat) : Byte

/-- FREE VALUE (R212, U11; log entry 2): what the datapath sees in frame-buffer cell `a` while it holds no value, after
reset number `e`. -/
opaque Config.noCell (e a : Nat) : Byte

/-- FREE VALUE (R212, U11; log entry 2): what the datapath sees in palette-cache entry `i` while it holds no value, after
reset number `e`. -/
opaque Config.noColor (e i : Nat) : Color

end Sys2Proof
end

