-- ==== Sys2Proof/Syntax.lean ====
section
/-!
DEFINITION. The commands of the block: one constructor per row of spec/opcode_table.json (30_encoding R73).
-/

namespace Sys2Proof

/-- A command with its operands. The operands are the 8-bit fields of the word itself (R72). -/
inductive Instr where
  /-- `FBINIT`: zero-fill the frame buffer (R106). -/
  | fbinit
  /-- `PALINIT`: fill the palette cache (R92). -/
  | palinit
  /-- `SETPX x, y, v`: store one cell (R107). -/
  | setpx (x y v : Byte)
  /-- `GETPX x, y`: read one cell (R108). -/
  | getpx (x y : Byte)
  /-- `LOOKUP i`: one palette lookup (R93). -/
  | lookup (i : Byte)
  /-- `INJECT`: spark injection (R124). -/
  | inject
  /-- `DIFFUSE`: one diffusion pass (R125). -/
  | diffuse
  /-- `SIM`: injection, then diffusion (R127). -/
  | sim
  /-- `SCAN`: one scan of the protocol encoder (R149). -/
  | scan
  /-- `TICK`: one pass of the tick loop (R171). -/
  | tick
  /-- `RUN`: the tick loop, for ever (R172). -/
  | run
  deriving DecidableEq, Repr

end Sys2Proof
end

