-- ==== Sys2Proof/Decode.lean ====
section
/-!
DEFINITION. The decoder of command words and, after it, the encoder (30_encoding R71 to R75, R82). Both are written from
the field table of R71 and the opcode map of R73.
-/

namespace Sys2Proof

/-- Why a word is no command (R75); the acceptance of such a word raises `ERR_ILLEGAL`. -/
inductive Reject where
  /-- `OP` is 0x0 or 0xC..0xF. -/
  | reservedOpcode
  /-- `Z != 0`. -/
  | reservedField
  /-- A field that carries no operand in the command's format is not 0. -/
  | unusedField
  deriving DecidableEq, Repr

/-- `OP = w[31:28]` (R71). -/
def fieldOp (w : Word32) : BitVec 4 := w.extractLsb' 28 4

/-- `Z = w[27:24]` (R71). -/
def fieldZ (w : Word32) : BitVec 4 := w.extractLsb' 24 4

/-- `YF = w[23:16]` (R71). -/
def fieldY (w : Word32) : Byte := w.extractLsb' 16 8

/-- `XF = w[15:8]` (R71). -/
def fieldX (w : Word32) : Byte := w.extractLsb' 8 8

/-- `VF = w[7:0]` (R71). -/
def fieldV (w : Word32) : Byte := w.extractLsb' 0 8

/-- Format `Z`: no field carries an operand. -/
def formatZ (w : Word32) (i : Instr) : Except Reject Instr :=
  if fieldY w = 0#8 ∧ fieldX w = 0#8 ∧ fieldV w = 0#8 then .ok i else .error .unusedField

/-- Format `XY`: `VF` carries no operand. -/
def formatXY (w : Word32) : Except Reject Instr :=
  if fieldV w = 0#8 then .ok (.getpx (fieldX w) (fieldY w)) else .error .unusedField

/-- Format `I`: `YF` and `XF` carry no operand. -/
def formatI (w : Word32) : Except Reject Instr :=
  if fieldY w = 0#8 ∧ fieldX w = 0#8 then .ok (.lookup (fieldV w)) else .error .unusedField

/-- The opcode map (R73). -/
def decodeOp (w : Word32) : Except Reject Instr :=
  match (fieldOp w).toNat with
  | 0x1 => formatZ w .fbinit
  | 0x2 => formatZ w .palinit
  | 0x3 => .ok (.setpx (fieldX w) (fieldY w) (fieldV w))
  | 0x4 => formatXY w
  | 0x5 => formatI w
  | 0x6 => formatZ w .inject
  | 0x7 => formatZ w .diffuse
  | 0x8 => formatZ w .sim
  | 0x9 => formatZ w .scan
  | 0xA => formatZ w .tick
  | 0xB => formatZ w .run
  | _ => .error .reservedOpcode

/-- The decoder: any 32 bits, a command or the reason there is none (R73, R75). -/
def decode (w : Word32) : Except Reject Instr :=
  if fieldZ w = 0#4 then decodeOp w else .error .reservedField

/-- The operation code of a command (R73). -/
def Instr.opcode : Instr → BitVec 4
  | .fbinit => 0x1#4
  | .palinit => 0x2#4
  | .setpx _ _ _ => 0x3#4
  | .getpx _ _ => 0x4#4
  | .lookup _ => 0x5#4
  | .inject => 0x6#4
  | .diffuse => 0x7#4
  | .sim => 0x8#4
  | .scan => 0x9#4
  | .tick => 0xA#4
  | .run => 0xB#4

/-- The operand fields `{YF, XF, VF}` of a command, absent operands 0 (R71, R82). -/
def Instr.operandBits : Instr → BitVec 24
  | .setpx x y v => y ++ x ++ v
  | .getpx x y => y ++ x ++ 0#8
  | .lookup i => 0#8 ++ 0#8 ++ i
  | .fbinit => 0#24
  | .palinit => 0#24
  | .inject => 0#24
  | .diffuse => 0#24
  | .sim => 0#24
  | .scan => 0#24
  | .tick => 0#24
  | .run => 0#24

/-- The encoder: `{OP, Z = 0, YF, XF, VF}` (R71, R82). -/
def encode (i : Instr) : Word32 := i.opcode ++ 0#4 ++ i.operandBits

/-- The pseudo-command `BOOT`: the words of `FBINIT` and `PALINIT`, in that order (R83, R217). -/
def bootWords : List Word32 := [encode .fbinit, encode .palinit]

/-- The pseudo-command `CLEAR`: another spelling of `FBINIT` (R83). -/
def clearWord : Word32 := encode .fbinit

/-- The mask column of the opcode map: the bits a command's row fixes (R73). -/
def Instr.mask : Instr → Word32
  | .setpx _ _ _ => 0xFF000000#32
  | .getpx _ _ => 0xFF0000FF#32
  | .lookup _ => 0xFFFFFF00#32
  | .fbinit => 0xFFFFFFFF#32
  | .palinit => 0xFFFFFFFF#32
  | .inject => 0xFFFFFFFF#32
  | .diffuse => 0xFFFFFFFF#32
  | .sim => 0xFFFFFFFF#32
  | .scan => 0xFFFFFFFF#32
  | .tick => 0xFFFFFFFF#32
  | .run => 0xFFFFFFFF#32

/-- The match column of the opcode map: the value of those bits (R73). -/
def Instr.matchWord : Instr → Word32
  | .fbinit => 0x10000000#32
  | .palinit => 0x20000000#32
  | .setpx _ _ _ => 0x30000000#32
  | .getpx _ _ => 0x40000000#32
  | .lookup _ => 0x50000000#32
  | .inject => 0x60000000#32
  | .diffuse => 0x70000000#32
  | .sim => 0x80000000#32
  | .scan => 0x90000000#32
  | .tick => 0xA0000000#32
  | .run => 0xB0000000#32

/-- The command of a table row, given as its lowest `nbits` bits; every bit above is 0. A command is one 32-bit word on 32
wires (R70), so there is no byte order to lay out. -/
def decodeTableWord (nbits w : Nat) : Option Instr :=
  match decode (BitVec.ofNat 32 (w % 2 ^ nbits)) with
  | .ok i => some i
  | .error _ => none

end Sys2Proof
end

