-- ==== Sys2Proof/Machine/State.lean ====
section
/-!
DEFINITION. The state of the block as plain data (10_state R20 to R46), what the host does to it (70_reset R229), and the
state after reset (R211).
-/

namespace Sys2Proof.Machine

/-- The sequencer phase, the block's program counter (R25). -/
inductive Phase where
  | idle | fbinit | palinit | access | inject | diffuse | prefetch | shift | latch | idledly | halt
  deriving DecidableEq, Repr

/-- The cause of the fault that halted the block (R185). -/
inductive ErrCode where
  /-- No fault since reset. -/
  | none
  /-- `ERR_ILLEGAL`: the word matches no row of the opcode map (R186). -/
  | illegal
  /-- `ERR_RANGE`: a coordinate outside the frame buffer (R187). -/
  | range
  /-- `ERR_FB_UNINIT`: a frame-buffer command before `FBINIT` (R188). -/
  | fbUninit
  /-- `ERR_PAL_UNINIT`: a RAM-mode lookup before `PALINIT` (R189). -/
  | palUninit
  deriving DecidableEq, Repr

/-- What the host does on the command port and on `rst` in one step (R84, R210, R229; log entry 8). -/
inductive HostAct where
  /-- Nothing: `cmd_valid = 0`, `rst = 0`. -/
  | wait
  /-- Present the word `w` with `cmd_valid = 1`; it is accepted in phase `IDLE` and ignored otherwise. -/
  | cmd (w : Word32)
  /-- Assert `rst` for one cycle. -/
  | rst
  /-- Present the word `w`, let `n` cycles pass after the one in which it was presented, then assert `rst`: a reset in the
  middle of a command (R213, R228). -/
  | cut (w : Word32) (n : Nat)
  deriving DecidableEq, Repr

/-- Why no step exists. All three are stuck states of the spec, not faults of a command. -/
inductive Fault where
  /-- `PHASE = HALT` and the host does nothing more, raised by `step`: "no step exists except reset" (R194). Safe: nothing
  follows such a state. -/
  | halted
  /-- The RandomSource never answers the draw of `INJECT`, `SIM`, `TICK` or `RUN` (R190 d, U9), raised by `Machine.command`
  and `step`. Safe: the spec says no step exists. -/
  | rngSilent
  /-- The color source never answers a request of `PALINIT`, `LOOKUP`, `SCAN`, `TICK` or `RUN` (R190 d, U9), raised by
  `Machine.command` and `step`. Safe: the spec says no step exists. -/
  | palSilent
  deriving DecidableEq, Repr

/-- Why a command has no meaning in the model. -/
inductive Refusal where
  /-- A command without a meaning, raised by `exec`'s arm only. Safe: nothing follows. No arm uses it. -/
  | notModelled (mnemonic : String)
  deriving DecidableEq, Repr

/-- The state. First the configuration it belongs to, then the spec's registers and memories, then the handshake bits of
the two answering ports, then the observer's record, then the host. -/
structure State where
  /-- The build this state belongs to (R6); no step changes it. -/
  cfg : Config
  /-- `PHASE` (R25). -/
  phase : Phase
  /-- `CMDR`, the command word being executed (R21). -/
  cmdr : Word32
  /-- `FBV`, frame buffer valid (R28). -/
  fbv : Bool
  /-- `PALV`, palette valid (R29); read through `State.palvOut`, which hardwires it to 1 in ROM and CAL mode. -/
  palv : Bool
  /-- `ERRCODE` (R32). -/
  errcode : ErrCode
  /-- `ERRINFO` (R33). -/
  errinfo : Word32
  /-- `COL`, the injection column (R22). -/
  col : Byte
  /-- `CX`, the column of the diffusion cell (R22). -/
  cx : BitVec 9
  /-- `CY`, the row of the diffusion cell (R22). -/
  cy : BitVec 9
  /-- `C`, the operand `center` (R22). -/
  c : Byte
  /-- `LF`, the operand `left` (R22). -/
  lf : Byte
  /-- `RT`, the operand `right` (R22). -/
  rt : Byte
  /-- `UP`, the operand `up` (R22). -/
  up : Byte
  /-- `DN`, the operand `down` (R22). -/
  dn : Byte
  /-- `ACC`, the weighted sum (R22). -/
  acc : BitVec 17
  /-- `POS`, the chain position on the wire, `0..L` (R23). -/
  pos : Nat
  /-- `BITK`, the bit of the LED word on the wire, `0..23` (R23). -/
  bitk : Nat
  /-- `CYC`, the cycle within the bit time, `0..TBIT-1` (R23). -/
  cyc : Nat
  /-- `PFC`, the chain whose color is fetched next, `0..N` (R23). -/
  pfc : Nat
  /-- `LCNT`, the latch-hold counter, `0..T_LATCH` (R23). -/
  lcnt : Nat
  /-- `ICNT`, the idle-delay counter, `0..T_IDLE` (R23). -/
  icnt : Nat
  /-- `FILLA`, the address counter of `FBINIT`, `0..NPIX` (R23). -/
  filla : Nat
  /-- `PALI`, the index counter of `PALINIT`, `0..256` (R23). -/
  pali : Nat
  /-- `SR[0..N-1]`, the LED words on the wire (R36). -/
  sr : List Color
  /-- `NX[0..N-1]`, the LED words of the next chain position (R36). -/
  nx : List Color
  /-- `RSP`, the response word (R37). -/
  rsp : Word32
  /-- `rsp_valid` (R37). -/
  rspValid : Bool
  /-- `FB`, the frame buffer: the cells that hold a value, by flat address (R39, R212). -/
  fb : List Host.Cell
  /-- `PALC`, the palette cache of RAM mode: the entries that hold a value, by index (R40, R212). -/
  palc : List (Nat × Color)
  /-- `PORT`, the registered output port (R42). -/
  port : PortVal
  /-- A byte has been requested of the RandomSource and has not arrived (R57). The model's own. -/
  rngWait : Bool
  /-- A color has been requested of the color source and has not arrived (R61). The model's own. -/
  palWait : Bool
  /-- The observer's record of `PORT` from the first cycle of the latest scan's `SHIFT` phase on (R146, R156): runs
  `(value, cycles)`, latest first, no two neighbours equal. The model's own: log entry 11. -/
  wave : List (PortVal × Nat)
  /-- How many bytes have been drawn from the RandomSource (R45). The model's own. -/
  draws : Nat
  /-- The indices asked of the color source, oldest first (R153). The model's own. -/
  palLog : List Byte
  /-- How many times `rst` has been taken; indexes the free values of memories without a value. The model's own. -/
  resets : Nat
  /-- What the host does in the coming steps, next first (R229). The host's. -/
  todo : List HostAct
  /-- What the RandomSource does in the coming cycles in which a byte is awaited: `some b` answers, `none` lets a cycle
  pass (R57). The host's. -/
  rngScript : List (Option Byte)
  /-- After its script the RandomSource never answers (R190 d); otherwise it answers free bytes. The host's. -/
  rngSilent : Bool
  /-- The color source never answers (R190 d). The host's. -/
  palSilent : Bool
  deriving DecidableEq, Repr

/-- The state of a build right after its first reset (R211). The memories hold no value (R212). Registers the table gives as
unspecified are 0: DESIGN CHOICE, unsafe, log entries 3 and 4. -/
def State.resetOf (cfg : Config) : State where
  cfg := cfg
  phase := .idle
  cmdr := 0#32
  fbv := false
  palv := decide (cfg.palMode ≠ .ram)
  errcode := .none
  errinfo := 0#32
  col := 0#8
  cx := 0#9
  cy := 0#9
  c := 0#8
  lf := 0#8
  rt := 0#8
  up := 0#8
  dn := 0#8
  acc := 0#17
  pos := 0
  bitk := 0
  cyc := 0
  pfc := 0
  lcnt := 0
  icnt := 0
  filla := 0
  pali := 0
  sr := List.replicate cfg.n 0#24
  nx := List.replicate cfg.n 0#24
  rsp := 0#32
  rspValid := false
  fb := []
  palc := []
  port := 0
  rngWait := false
  palWait := false
  wave := []
  draws := 0
  palLog := []
  resets := 0
  todo := []
  rngScript := []
  rngSilent := false
  palSilent := false

/-- The machine right after reset, for the build `Config.sample` (log entry 1). -/
def State.reset : State := State.resetOf Config.sample

end Sys2Proof.Machine
end

