-- ==== Sys2Proof/Machine/Ops.lean ====
section
/-!
DEFINITION. The named operations over memories and registers: reading and writing a memory, the two memories of the block,
entering a phase, responding, taking a fault (R192), reset (R210), the two answering ports, the record of the output port.
-/

namespace Sys2Proof.Machine

/-- What an address that is not listed holds: no value (R212; log entry 2). -/
def Memory.unlisted {α : Type} : Option α := none

/-- The value at an address, if it holds one. -/
def Memory.read? {α : Type} : List (Nat × α) → Nat → Option α
  | [], _ => Memory.unlisted
  | (b, v) :: t, a => if b = a then some v else Memory.read? t a

/-- Store a value, keeping the addresses strictly rising. -/
def Memory.write {α : Type} : List (Nat × α) → Nat → α → List (Nat × α)
  | [], a, v => [(a, v)]
  | (b, u) :: t, a, v =>
    if a < b then (a, v) :: (b, u) :: t
    else if a = b then (a, v) :: t
    else (b, u) :: Memory.write t a v

/-- The canonical form: addresses strictly rising. An unlisted address holds no value, so no entry can repeat it. -/
abbrev Memory.wf {α : Type} (m : List (Nat × α)) : Prop := m.Pairwise (fun x y => x.1 < y.1)

/-- Frame-buffer read, `FB[a]` (R12, R55). A cell that holds no value yields a free value (log entry 2); `FBV` keeps every
command from reading one (R212). -/
def State.fbCell (s : State) (a : Nat) : Byte := (Memory.read? s.fb a).getD (Config.noCell s.resets a)

/-- Frame-buffer write, `FB[a] <- v` (R12). -/
def State.setFb (s : State) (a : Nat) (v : Byte) : State := { s with fb := Memory.write s.fb a v }

/-- Palette-cache read, `PALC[i]` (R12, R40). An entry that holds no value yields a free value (log entry 2); `PALV` keeps
every command from reading one (R40). -/
def State.palEntry (s : State) (i : Nat) : Color := (Memory.read? s.palc i).getD (Config.noColor s.resets i)

/-- Palette-cache write, `PALC[i] <- v` (R12). -/
def State.setPal (s : State) (i : Nat) (v : Color) : State := { s with palc := Memory.write s.palc i v }

/-- `R[c] <- v` for a bank of registers `R[0..N-1]` (R36): the registers below and above `c` keep their values. -/
def putReg (r : List Color) (c : Nat) (v : Color) : List Color := r.take c ++ v :: r.drop (c + 1)

/-- The color source, `PALSRC(i)` (R12, R61). A legal table has 256 entries. -/
def palSrcAt (p : Params) (i : Byte) : Color := p.palSrc.getD i.toNat 0#24

/-- One request on the color-source port: the index is logged and the answer has arrived (R61, R153). -/
def State.askColor (s : State) (i : Byte) : State := { s with palLog := s.palLog ++ [i], palWait := false }

/-- The script with its leading silent cycles dropped: what is left when the awaited byte arrives. -/
def untilAnswer : List (Option Byte) → List (Option Byte)
  | [] => []
  | none :: t => untilAnswer t
  | some b :: t => some b :: t

/-- One draw from the RandomSource port, waited for as long as it takes (R57): the scripted byte, or else a free byte. -/
def State.drawn (s : State) : Byte :=
  match untilAnswer s.rngScript with
  | some b :: _ => b
  | _ => Config.rngByte s.draws

/-- The state after that draw: the script is used up to its answer and the generator has advanced by one byte (R57). -/
def State.afterDraw (s : State) : State :=
  { s with rngScript := (untilAnswer s.rngScript).tail, draws := s.draws + 1, rngWait := false }

/-- The RandomSource never answers the next draw (R190 d). -/
def State.rngStuck (s : State) : Bool := s.rngSilent && s.rngScript.all Option.isNone

/-- Append `n` cycles of the value `v` to a record of runs kept latest first. -/
def pushWave (v : PortVal) (n : Nat) : List (PortVal × Nat) → List (PortVal × Nat)
  | [] => if n = 0 then [] else [(v, n)]
  | (u, m) :: t => if n = 0 then (u, m) :: t else if u = v then (u, m + n) :: t else (v, n) :: (u, m) :: t

/-- The record cycle by cycle, first cycle first. -/
def waveCycles (r : List (PortVal × Nat)) : List PortVal := r.reverse.flatMap fun x => List.replicate x.2 x.1

/-- `PORT <- v ; wait n` as the observer sees it (R12). -/
def State.emit (s : State) (v : PortVal) (n : Nat) : State := { s with wave := pushWave v n s.wave }

/-- The observer records the cycle that is passing, in the phases whose length is architectural: `SHIFT`, `LATCH`, `IDLEDLY`
(R146, U17). -/
def State.observe (s : State) : State :=
  if s.phase = .shift ∨ s.phase = .latch ∨ s.phase = .idledly then s.emit s.port 1 else s

/-- `HIGHMASK = ((1 << N) - 1) << FIRST_PIN`: every chain line high (R144). -/
def highMask (p : Params) : PortVal := (2 ^ p.n - 1) <<< p.firstPin

/-- `FBV <- 1` (R106). -/
def State.setFbv (s : State) : State := { s with fbv := true }

/-- `PALV <- 1` (R92). -/
def State.setPalv (s : State) : State := { s with palv := true }

/-- `LCNT <- n` (R23). -/
def State.setLcnt (s : State) (n : Nat) : State := { s with lcnt := n }

/-- `ICNT <- n` (R23). -/
def State.setIcnt (s : State) (n : Nat) : State := { s with icnt := n }

/-- The place within a chain position: `BITK <- k`, `CYC <- j` (R23). -/
def State.setPlace (s : State) (k j : Nat) : State := { s with bitk := k, cyc := j }

/-- The host's list of acts is `l` from now on (log entry 8). -/
def State.setTodo (s : State) (l : List HostAct) : State := { s with todo := l }

/-- The start of a phase (R173): its counters take their start values (R23, R198). A scan starts a new record, and its first
cycle of `SHIFT` has every chain line high (R146). -/
def State.enter (s : State) : Phase → State
  | .idle => { s with phase := .idle }
  | .fbinit => { s with phase := .fbinit, filla := 0 }
  | .palinit => { s with phase := .palinit, pali := 0, palWait := false }
  | .access => { s with phase := .access, palWait := false }
  | .inject => { s with phase := .inject, rngWait := false }
  | .diffuse => { s with phase := .diffuse, cx := 0#9, cy := BitVec.ofNat 9 (s.cfg.h - 1) }
  | .prefetch => { s with phase := .prefetch, pos := 0, pfc := 0, port := 0, wave := [], palWait := false }
  | .shift => { s with phase := .shift, pos := 0, bitk := 0, cyc := 0, sr := s.nx, pfc := 0, port := highMask s.cfg.toParams }
  | .latch => { s with phase := .latch, lcnt := 0, port := 0 }
  | .idledly => { s with phase := .idledly, icnt := 0, port := 0 }
  | .halt => { s with phase := .halt }

/-- `respond v; phase <- IDLE`: the completion of a command (R77). -/
def State.respond (s : State) (v : Word32) : State := { s with phase := .idle, rsp := v, rspValid := true, port := 0 }

/-- `rsp_valid` falls: it is 1 for one cycle only (R37). -/
def State.quiet (s : State) : State := { s with rspValid := false }

/-- `raise Fault(code, info)`: fault entry (R192). The cause and the word are recorded, the phase is `HALT`; from the next
cycle the port and `rsp_valid` are 0. Nothing else changes (R193). -/
def State.raiseFault (s : State) (code : ErrCode) (info : Word32) : State :=
  { s with errcode := code, errinfo := info, cmdr := info, phase := .halt, port := 0, rspValid := false }

/-- `rst = 1` for one cycle: the reset state of R211, whatever the block was doing (R210). It is also the only way out of
`HALT` (R194). What is outside the block stays: the RandomSource (R216), the host, and the observer's record, which gets the
cycle in which `rst` was sampled (R228). A byte or a color requested in that very cycle counts as neither drawn nor asked:
DESIGN CHOICE, unsafe for a claim about it, log entries 14 and 27. -/
def State.applyReset (s : State) : State :=
  { State.resetOf s.cfg with
    wave := s.observe.wave, draws := s.draws, palLog := s.palLog, resets := s.resets + 1,
    todo := s.todo, rngScript := s.rngScript, rngSilent := s.rngSilent, palSilent := s.palSilent }

end Sys2Proof.Machine
end

