-- ==== Sys2Proof/WellFormed.lean ====
section
/-!
DEFINITION. Well-formed commands. Every operand field holds any 8-bit value, so every term of `Instr` has a word; the one
check the spec makes on operands is that a coordinate names a cell of the build (R76, R107, R108). Well-formed parameter
sets are `Params.Legal` (Config.lean).
-/

namespace Sys2Proof

/-- The coordinates a command names, `(x, y)` (R71: formats `XYV` and `XY`). -/
def Instr.coords : Instr → Option (Byte × Byte)
  | .setpx x y _ => some (x, y)
  | .getpx x y => some (x, y)
  | .fbinit => none
  | .palinit => none
  | .lookup _ => none
  | .inject => none
  | .diffuse => none
  | .sim => none
  | .scan => none
  | .tick => none
  | .run => none

/-- A command is well formed for a build when the cell it names exists: `x < W` and `y < H`, compared as unsigned numbers
(R72, R76). -/
def Instr.wellFormed (p : Params) (i : Instr) : Bool :=
  match i.coords with
  | none => true
  | some (x, y) => decide (x.toNat < p.w) && decide (y.toNat < p.h)

end Sys2Proof
end

