-- ==== Sys2Proof/Machine/Operands.lean ====
section
/-!
DEFINITION. Operand forms: from coordinates and chain positions to frame-buffer addresses (R53, R67), and which memories and
ports a command uses (R185, R191).
-/

namespace Sys2Proof.Machine

/-- The address a cell number stands for under a build's map; `direct` is the spec's default (R53, R67, U19). -/
def cellAddr (m : CellMap) (k : Nat) : Nat :=
  match m with
  | .direct => k
  | .table t => t.getD k 0

/-- `addr(x, y) = y*W + x` (R53), through the build's map. -/
def addr (p : Params) (x y : Nat) : Nat := cellAddr p.addrMap (y * p.w + x)

/-- Scan addressing: chain `c` at chain position `q` shows the cell at `c*L + q` (R67), through the build's map. -/
def pixmap (p : Params) (c q : Nat) : Nat := cellAddr p.pixMap (c * p.l + q)

/-- `buffer(x, y)` (R12). -/
def State.cellAt (s : State) (x y : Nat) : Byte := s.fbCell (addr s.cfg.toParams x y)

/-- `buffer(x, y) <- v` (R12). -/
def State.setCell (s : State) (x y : Nat) (v : Byte) : State := s.setFb (addr s.cfg.toParams x y) v

/-- A command that reads or writes frame-buffer cells, `FBINIT` apart (R185, row 3). -/
def usesFb : Instr → Bool
  | .setpx _ _ _ => true
  | .getpx _ _ => true
  | .inject => true
  | .diffuse => true
  | .sim => true
  | .scan => true
  | .tick => true
  | .run => true
  | .fbinit => false
  | .palinit => false
  | .lookup _ => false

/-- A command that calls `lookup` (R185, row 4). -/
def usesPalette : Instr → Bool
  | .lookup _ => true
  | .scan => true
  | .tick => true
  | .run => true
  | .fbinit => false
  | .palinit => false
  | .setpx _ _ _ => false
  | .getpx _ _ => false
  | .inject => false
  | .diffuse => false
  | .sim => false

/-- A command that draws a byte from the RandomSource (R57). -/
def usesRng : Instr → Bool
  | .inject => true
  | .sim => true
  | .tick => true
  | .run => true
  | .fbinit => false
  | .palinit => false
  | .setpx _ _ _ => false
  | .getpx _ _ => false
  | .lookup _ => false
  | .diffuse => false
  | .scan => false

/-- A command that requests colors of the color source: `PALINIT` in RAM mode, every lookup in ROM and CAL mode (R38). -/
def usesColorSource (mode : PalMode) (i : Instr) : Bool :=
  if i = .palinit then decide (mode = .ram) else usesPalette i && decide (mode ≠ .ram)

/-- The first phase of a command (R173, the rows from `IDLE`). -/
def firstPhase : Instr → Phase
  | .fbinit => .fbinit
  | .palinit => .palinit
  | .setpx _ _ _ => .access
  | .getpx _ _ => .access
  | .lookup _ => .access
  | .inject => .inject
  | .diffuse => .diffuse
  | .sim => .inject
  | .scan => .prefetch
  | .tick => .inject
  | .run => .inject

end Sys2Proof.Machine
end

