-- ==== Sys2Proof/Machine/Flags.lean ====
section
/-!
DEFINITION. The two flags (R28, R29), the codes of the phase and the fault causes (R25, R185), and the outputs the block
shows in every cycle (R31, R57, R61, R84).
-/

namespace Sys2Proof.Machine

/-- `PALV` as every reader sees it: hardwired to 1 in ROM and CAL mode (R29). -/
def State.palvOut (s : State) : Bool := decide (s.cfg.palMode ≠ .ram) || s.palv

/-- The value of `PHASE` (R25). -/
def Phase.code : Phase → BitVec 4
  | .idle => 0#4
  | .fbinit => 1#4
  | .palinit => 2#4
  | .access => 3#4
  | .inject => 4#4
  | .diffuse => 5#4
  | .prefetch => 6#4
  | .shift => 7#4
  | .latch => 8#4
  | .idledly => 9#4
  | .halt => 15#4

/-- The value of `ERRCODE` (R185). -/
def ErrCode.code : ErrCode → BitVec 3
  | .none => 0#3
  | .illegal => 1#3
  | .range => 2#3
  | .fbUninit => 3#3
  | .palUninit => 4#3

/-- `cmd_ready`: 1 exactly when `PHASE = IDLE` and `rst = 0` (R31, R84). -/
def State.cmdReady (s : State) (rst : Bool) : Bool := decide (s.phase = .idle) && !rst

/-- `busy`: 1 exactly when `PHASE` is neither `IDLE` nor `HALT` (R31). -/
def State.busy (s : State) : Bool := decide (s.phase ≠ .idle) && decide (s.phase ≠ .halt)

/-- `halted`: 1 exactly when `PHASE = HALT` (R31). -/
def State.halted (s : State) : Bool := decide (s.phase = .halt)

/-- The opcode of the command in progress, `CMDR.OP` (R21, R173). -/
def State.opcode (s : State) : BitVec 4 := fieldOp s.cmdr

/-- `rng_req`: 1 for one cycle of phase `INJECT` (R57). That it is the first one no rule fixes: DESIGN CHOICE, unsafe for a claim
about that cycle, log entry 28. -/
def State.rngReq (s : State) : Bool := decide (s.phase = .inject) && !s.rngWait

/-- The chain position whose colors the scan is fetching: 0 in `PREFETCH`, the next one in `SHIFT` (R152). -/
def State.fetchPos (s : State) : Nat := if s.phase = .prefetch then 0 else s.pos + 1

/-- In this cycle the scan fetches a color (R149, R152): in every cycle of `PREFETCH`, and in the first `N` cycles of each chain
position but the last in `SHIFT`. R44: the time of a request is one that "no rule fixes". DESIGN CHOICE, unsafe for a claim about
that time: log entry 25. -/
def State.fetching (s : State) : Bool :=
  decide (s.phase = .prefetch) ||
    (decide (s.phase = .shift) && decide (s.pos + 1 < s.cfg.l) && decide (s.pfc < s.cfg.n))

/-- The palette index this cycle presents on `pal_idx` (R61): the filler's counter, the operand of `LOOKUP`, or the cell the
scan fetches. What `pal_idx` shows while `pal_req` is 0 the spec does not give; these values are then the model's: DESIGN CHOICE,
unsafe for a claim about them, log entry 26. -/
def State.palIdx (s : State) : Byte :=
  if s.phase = .palinit then BitVec.ofNat 8 s.pali
  else if s.phase = .access then fieldV s.cmdr
  else s.fbCell (pixmap s.cfg.toParams s.pfc s.fetchPos)

/-- `pal_req`: 1 in the cycle in which a color is requested of the color source (R61): in RAM mode only by `PALINIT`, in the
other modes by `LOOKUP` and by the scan. In which cycles of these phases, no rule fixes: DESIGN CHOICE, unsafe for a claim about
those cycles, log entry 25. -/
def State.palReq (s : State) : Bool :=
  !s.palWait &&
    (if s.cfg.palMode = .ram then decide (s.phase = .palinit)
     else (decide (s.phase = .access) && decide (s.opcode = (Instr.lookup 0#8).opcode)) || s.fetching)

end Sys2Proof.Machine
end

