-- ==== Sys2Proof/Machine/Accept.lean ====
section
/-!
DEFINITION. The acceptance of a command: the checks in their order (R191), the start of the command (R84, R173), and the
frame every command's meaning shares: faults at acceptance, waits that never end, else its own effect.
-/

namespace Sys2Proof.Machine

/-- The acceptance checks after decoding, first failing check first: operand range, `FBV`, `PALV` (R191). -/
def acceptError (i : Instr) (s : State) : Option ErrCode :=
  if i.wellFormed s.cfg.toParams = false then some .range
  else if usesFb i && !s.fbv then some .fbUninit
  else if usesPalette i && !s.palvOut then some .palUninit
  else none

/-- Acceptance without a fault: `CMDR <- cmd`, and `PHASE` is the command's first phase (R84, R173). -/
def State.begin (s : State) (i : Instr) : State :=
  ({ s.quiet with cmdr := encode i }).enter (firstPhase i)

/-- The port that would keep a command waiting for ever, if one does (R190 d). -/
def neverAnswered (i : Instr) (s : State) : Option Fault :=
  if usesRng i && s.rngStuck then some .rngSilent
  else if usesColorSource s.cfg.palMode i && s.palSilent then some .palSilent
  else none

/-- One command, atomic for the host (R56): it faults at acceptance with no effect (R193), or waits for ever on a port that
never answers, or has the effect `body` from the start of its first phase on (R170). -/
def command (i : Instr) (s : State) (body : State → State) : Host.Outcome State Fault Refusal :=
  match acceptError i s with
  | some e => .next (s.raiseFault e (encode i))
  | none =>
    match neverAnswered i s with
    | some f => .fault f
    | none => .next (body (s.begin i))

end Sys2Proof.Machine
end

