-- ==== Sys2Proof/Machine/FrameBuffer.lean ====
section
/-!
DEFINITION. The FrameBuffer commands `FBINIT` (R106), `SETPX` (R107) and `GETPX` (R108).
-/

namespace Sys2Proof.Machine

/-- `FB[a] <- 0` for `a = FILLA`, which advances (R106). -/
def State.fillCell (s : State) : State := { s.setFb s.filla 0#8 with filla := s.filla + 1 }

/-- The body of `FBINIT`: every cell 0 in ascending order, then `FBV <- 1` (R106). -/
def fbinitBody (s : State) : State := (State.fillCell^[s.cfg.npix] s).setFbv

/-- `FBINIT` (R106). -/
def execFbinit (s : State) : Host.Outcome State Fault Refusal :=
  command .fbinit s fun s => (fbinitBody s).respond 0#32

/-- `SETPX x, y, v` (R107). -/
def execSetpx (x y v : Byte) (s : State) : Host.Outcome State Fault Refusal :=
  command (.setpx x y v) s fun s => (s.setCell x.toNat y.toNat v).respond 0#32

/-- The response of `GETPX`, `{24 zero bits, value}` (R77, R108). -/
def cellWord (v : Byte) : Word32 := v.setWidth 32

/-- `GETPX x, y` (R108). -/
def execGetpx (x y : Byte) (s : State) : Host.Outcome State Fault Refusal :=
  command (.getpx x y) s fun s => s.respond (cellWord (s.cellAt x.toNat y.toNat))

end Sys2Proof.Machine
end

