-- ==== Sys2Proof/Machine/Palette.lean ====
section
/-!
DEFINITION. The PaletteEngine: the lookup function (R91) and the commands `PALINIT` (R92) and `LOOKUP` (R93).
-/

namespace Sys2Proof.Machine

/-- `lookup(i)` by mode (R91). -/
def State.lookup (s : State) (i : Byte) : Color :=
  match s.cfg.palMode with
  | .rom => palSrcAt s.cfg.toParams i
  | .ram => s.palEntry i.toNat
  | .cal => palSrcAt s.cfg.toParams i

/-- The external activity of one lookup: one request in ROM and CAL mode, none in RAM mode (R93, R153). -/
def State.logLookup (s : State) (i : Byte) : State := if s.cfg.palMode = .ram then s else s.askColor i

/-- `PALC[i] <- PALSRC(i)` for `i = PALI`, which advances (R92). -/
def State.fillColor (s : State) : State :=
  let i := BitVec.ofNat 8 s.pali
  { (s.askColor i).setPal s.pali (palSrcAt s.cfg.toParams i) with pali := s.pali + 1 }

/-- The body of `PALINIT`: in RAM mode fill all 256 entries in ascending order, then `PALV <- 1`; otherwise nothing (R92). -/
def palinitBody (s : State) : State :=
  if s.cfg.palMode = .ram then (State.fillColor^[256] s).setPalv else s

/-- `PALINIT` (R92). -/
def execPalinit (s : State) : Host.Outcome State Fault Refusal :=
  command .palinit s fun s => (palinitBody s).respond 0#32

/-- The response of a lookup, `{0x00, R, G, B}` (R77, R93). -/
def colorWord (v : Color) : Word32 := v.setWidth 32

/-- `LOOKUP i` (R93). -/
def execLookup (i : Byte) (s : State) : Host.Outcome State Fault Refusal :=
  command (.lookup i) s fun s => (s.logLookup i).respond (colorWord (s.lookup i))

end Sys2Proof.Machine
end

