-- ==== Sys2Proof/Machine/Encoder.lean ====
section
/-!
DEFINITION. The ProtocolEncoder: LED words, data bits, port patterns, the waveform of a bit time (R141 to R148), and the
command `SCAN` (R149).
-/

namespace Sys2Proof.Machine

/-- `R`, bits 23:16 of a packed triple (R51). -/
def redOf (v : Color) : Byte := v.extractLsb' 16 8

/-- `G`, bits 15:8 of a packed triple (R51). -/
def greenOf (v : Color) : Byte := v.extractLsb' 8 8

/-- `B`, bits 7:0 of a packed triple (R51). -/
def blueOf (v : Color) : Byte := v.extractLsb' 0 8

/-- `wire24(R, G, B) = {G, R, B}` (R142). -/
def wire24 (v : Color) : Color := greenOf v ++ redOf v ++ blueOf v

/-- The LED word of chain `c` at chain position `q`: `wire24(lookup(FB[pixmap(c, q)]))` (R141, R142). -/
def State.ledWord (s : State) (c q : Nat) : Color := wire24 (s.lookup (s.fbCell (pixmap s.cfg.toParams c q)))

/-- One fetch: `NX[c] <- wire24(lookup(FB[pixmap(c, q)]))` for `c = PFC`, which advances (R149, R152). -/
def State.fetch (q : Nat) (s : State) : State :=
  { s.logLookup (s.fbCell (pixmap s.cfg.toParams s.pfc q)) with
    nx := putReg s.nx s.pfc (s.ledWord s.pfc q), pfc := s.pfc + 1 }

/-- Bit `k` of a chain's LED word in the order sent, the most significant first (R143). -/
def dataBit (v : Color) (k : Nat) : Bool := v.getLsbD (23 - k)

/-- `PAT`: the sum over the chains of `d << (FIRST_PIN + c)` (R144). -/
def patternOf (p : Params) (sr : List Color) (k : Nat) : PortVal :=
  ((List.range p.n).map fun c => (dataBit (sr.getD c 0#24) k).toNat <<< (p.firstPin + c)).sum

/-- The port in cycle `j` of a bit time whose pattern is `pat`: high, pattern, low (R145, R146). -/
def bitLevel (p : Params) (pat : PortVal) (j : Nat) : PortVal :=
  if j < p.th then highMask p else if j < p.th + p.tp then pat else 0

/-- `bit_time`: three port values, back to back (R145). -/
def State.bitTime (s : State) (k : Nat) : State :=
  ((s.emit (highMask s.cfg.toParams) s.cfg.th).emit (patternOf s.cfg.toParams s.sr k) s.cfg.tp).emit 0 s.cfg.tl

/-- The 24 bit times of the chain position whose words are in `SR` (R149). -/
def State.sendWord (s : State) : State := (List.range 24).foldl State.bitTime s

/-- The next chain position: `SR <- NX` at the boundary, which costs no cycle (R149, R152). -/
def State.nextPosition (s : State) : State :=
  if s.pos + 1 < s.cfg.l then
    { s with pos := s.pos + 1, bitk := 0, cyc := 0, sr := s.nx, pfc := 0, port := highMask s.cfg.toParams }
  else { s with pos := s.pos + 1, bitk := 0, cyc := 0, port := 0 }

/-- One chain position: the colors of the next one are fetched while the 24 bit times are on the wire (R149). -/
def State.sendPosition (s : State) : State :=
  let t := if s.pos + 1 < s.cfg.l then (State.fetch (s.pos + 1))^[s.cfg.n] s else s
  t.sendWord.nextPosition

/-- Phase `PREFETCH`: the colors of chain position 0, line low (R149). -/
def prefetchBody (s : State) : State := (State.fetch 0)^[s.cfg.n] s

/-- Phase `SHIFT`: the `L` chain positions in order (R149). -/
def shiftBody (s : State) : State := State.sendPosition^[s.cfg.l] s

/-- Phase `LATCH`: the line low for `T_LATCH` cycles (R148). -/
def latchBody (s : State) : State := (s.emit 0 s.cfg.tLatch).setLcnt s.cfg.tLatch

/-- The body of `SCAN` from the start of phase `PREFETCH` to the end of the latch hold (R149). -/
def scanBody (s : State) : State := latchBody ((shiftBody ((prefetchBody s).enter .shift)).enter .latch)

/-- `SCAN` (R149). -/
def execScan (s : State) : Host.Outcome State Fault Refusal :=
  command .scan s fun s => (scanBody s).respond 0#32

end Sys2Proof.Machine
end

