-- ==== Sys2Proof/Machine/Simulation.lean ====
section
/-!
DEFINITION. The SimulationEngine: its arithmetic (R120 to R122) and the commands `INJECT` (R124), `DIFFUSE` (R125) and `SIM`
(R127).
-/

namespace Sys2Proof.Machine

/-- `sat_add8(a, b) = min(a + b, 255)` (R120). -/
def satAdd8 (a b : Byte) : Byte := BitVec.ofNat 8 (min (a.toNat + b.toNat) 255)

/-- `diffuse_sum`, formed exactly (R121). -/
def diffuseSum (c l r u d : Byte) : Nat := c.toNat * 127 + l.toNat * 31 + r.toNat * 31 + u.toNat * 7 + d.toNat * 63

/-- `diffuse_cell`: integer division by 256, truncating (R121). -/
def diffuseCell (c l r u d : Byte) : Nat := diffuseSum c l r u d / 256

/-- `narrow8`: the clamp, or the wrap of U4 (R122). -/
def narrow8 (m : Narrow) (v : Nat) : Byte :=
  match m with
  | .sat => BitVec.ofNat 8 (min v 255)
  | .wrap => BitVec.ofNat 8 (v % 256)

/-- The injection of the drawn byte `r`: column `r mod W` of the bottom row gets 8 more, saturating (R124). -/
def State.injectByte (s : State) (r : Byte) : State :=
  let x := r.toNat % s.cfg.w
  { s.setCell x (s.cfg.h - 1) (satAdd8 (s.cellAt x (s.cfg.h - 1)) 8#8) with col := BitVec.ofNat 8 x }

/-- The body of `INJECT`: one draw, then the injection (R124). -/
def injectBody (s : State) : State := s.afterDraw.injectByte s.drawn

/-- `INJECT` (R124). -/
def execInject (s : State) : Host.Outcome State Fault Refusal :=
  command .inject s fun s => (injectBody s).respond 0#32

/-- The left neighbour, 0 outside the grid (R125). -/
def State.leftOf (s : State) (x y : Nat) : Byte := if 0 < x then s.cellAt (x - 1) y else 0#8

/-- The right neighbour, 0 outside the grid (R125). -/
def State.rightOf (s : State) (x y : Nat) : Byte := if x + 1 < s.cfg.w then s.cellAt (x + 1) y else 0#8

/-- The upper neighbour, 0 outside the grid (R125). -/
def State.upOf (s : State) (x y : Nat) : Byte := if 0 < y then s.cellAt x (y - 1) else 0#8

/-- The lower neighbour; on the bottom row the cell's own value, or 0 under `DOWN_AT_BOTTOM = ZERO` (R125, U5). -/
def State.downOf (s : State) (x y : Nat) : Byte :=
  if y + 1 < s.cfg.h then s.cellAt x (y + 1)
  else match s.cfg.downAtBottom with
    | .center => s.cellAt x y
    | .zero => 0#8

/-- The five operands and their weighted sum are loaded from the buffer as it is now (R125). -/
def State.loadOperands (s : State) (x y : Nat) : State :=
  { s with
    c := s.cellAt x y, lf := s.leftOf x y, rt := s.rightOf x y, up := s.upOf x y, dn := s.downOf x y
    acc := BitVec.ofNat 17
      (diffuseSum (s.cellAt x y) (s.leftOf x y) (s.rightOf x y) (s.upOf x y) (s.downOf x y)) }

/-- `buffer(x, y) <- narrow8(ACC / 256)`, written at once (R125). -/
def State.storeCell (s : State) (x y : Nat) : State := s.setCell x y (narrow8 s.cfg.narrow (s.acc.toNat / 256))

/-- The next cell of the pass: along the row from left to right, then the row above; `CX = W` after the last (R125). -/
def State.advanceCell (s : State) : State :=
  if s.cx.toNat + 1 < s.cfg.w then { s with cx := s.cx + 1#9 }
  else if s.cy = 0#9 then { s with cx := BitVec.ofNat 9 s.cfg.w }
  else { s with cx := 0#9, cy := s.cy - 1#9 }

/-- One cell of the pass, at `(CX, CY)`: read, compute, write, move on (R125, R126). -/
def State.diffuseOne (s : State) : State :=
  ((s.loadOperands s.cx.toNat s.cy.toNat).storeCell s.cx.toNat s.cy.toNat).advanceCell

/-- The body of `DIFFUSE`: the `W*H` cells in the normative order, each seeing every write before it (R125). -/
def diffuseBody (s : State) : State := State.diffuseOne^[s.cfg.npix] s

/-- `DIFFUSE` (R125). -/
def execDiffuse (s : State) : Host.Outcome State Fault Refusal :=
  command .diffuse s fun s => (diffuseBody s).respond 0#32

/-- The body of `SIM` from the start of phase `INJECT`: injection, then diffusion (R127). -/
def simBody (s : State) : State := diffuseBody ((injectBody s).enter .diffuse)

/-- `SIM` (R127). -/
def execSim (s : State) : Host.Outcome State Fault Refusal :=
  command .sim s fun s => (simBody s).respond 0#32

end Sys2Proof.Machine
end

