-- ==== Sys2Proof/Machine/Sequencer.lean ====
section
/-!
DEFINITION. The sequencing commands `TICK` (R171) and `RUN` (R172) and the idle delay (R175).
-/

namespace Sys2Proof.Machine

/-- The idle delay: `T_IDLE` cycles with the port low (R175). -/
def idleBody (s : State) : State := (s.emit 0 s.cfg.tIdle).setIcnt s.cfg.tIdle

/-- One pass of the tick loop from the start of phase `INJECT`: simulate, scan, idle delay (R171). -/
def tickBody (s : State) : State := idleBody ((scanBody ((simBody s).enter .prefetch)).enter .idledly)

/-- `TICK` (R171). -/
def execTick (s : State) : Host.Outcome State Fault Refusal :=
  command .tick s fun s => (tickBody s).respond 0#32

/-- `RUN` (R172): the loop has no end and gives no response, so this is the command's first pass; it leaves the block in
phase `INJECT` at the start of the next pass, which the next step makes (log entry 7). -/
def execRun (s : State) : Host.Outcome State Fault Refusal :=
  command .run s fun s => (tickBody s).enter .inject

/-- One more pass of a `RUN` that stands at the start of a pass (R172). -/
def runPass (s : State) : Host.Outcome State Fault Refusal :=
  match neverAnswered .run s with
  | some f => .fault f
  | none => .next ((tickBody s.quiet).enter .inject)

end Sys2Proof.Machine
end

