-- ==== Sys2Proof/Machine/Cycle.lean ====
section
/-!
DEFINITION. The block cycle by cycle: one period of `clk` of the command in progress (R13, R24, R26, R173), its waits on the
two answering ports (R57, R61), and the acceptance cycle (R84). Phases whose length the spec leaves open (R231) take one cycle
for each cell, entry or fetch: DESIGN CHOICE, log entry 9.
-/

namespace Sys2Proof.Machine

/-- End of phase `INJECT` (R173). -/
def State.afterInject (s : State) : State :=
  if s.opcode = Instr.inject.opcode then s.respond 0#32 else s.enter .diffuse

/-- End of phase `DIFFUSE` (R173). -/
def State.afterDiffuse (s : State) : State :=
  if s.opcode = Instr.diffuse.opcode ∨ s.opcode = Instr.sim.opcode then s.respond 0#32 else s.enter .prefetch

/-- End of phase `IDLEDLY` (R173). -/
def State.afterIdle (s : State) : State :=
  if s.opcode = Instr.run.opcode then s.enter .inject else s.respond 0#32

/-- End of phase `LATCH` (R173); with `T_IDLE = 0` phase `IDLEDLY` is passed through in zero cycles (R171). -/
def State.afterLatch (s : State) : State :=
  if s.opcode = Instr.scan.opcode then s.respond 0#32
  else if s.cfg.tIdle = 0 then (s.enter .idledly).afterIdle
  else s.enter .idledly

/-- This cycle's color request is never answered (R190 d). -/
def State.colorStuck (s : State) : Bool :=
  s.palSilent &&
    (if s.cfg.palMode = .ram then decide (s.phase = .palinit)
     else (decide (s.phase = .access) && decide (s.opcode = (Instr.lookup 0#8).opcode)) || s.fetching)

/-- A cycle spent waiting for a color: the request was pulsed once (R61). -/
def State.awaitColor (s : State) : State :=
  if s.palWait then s else { s with palWait := true, palLog := s.palLog ++ [s.palIdx] }

/-- A cycle of phase `FBINIT` (R106). -/
def State.fbinitCycle (s : State) : State :=
  if s.filla + 1 < s.cfg.npix then s.fillCell else s.fillCell.setFbv.respond 0#32

/-- A cycle of phase `PALINIT` (R92). -/
def State.palinitCycle (s : State) : State :=
  if s.cfg.palMode = .ram then
    if s.colorStuck then s.awaitColor
    else if s.pali + 1 < 256 then s.fillColor
    else s.fillColor.setPalv.respond 0#32
  else s.respond 0#32

/-- The cycle of phase `ACCESS` (R93, R107, R108). Only the three commands of this phase reach it (R173); any other word would
be answered like a command without a result: log entry 21. -/
def State.accessCycle (s : State) : State :=
  match decode s.cmdr with
  | .ok (.setpx x y v) => (s.setCell x.toNat y.toNat v).respond 0#32
  | .ok (.getpx x y) => s.respond (cellWord (s.cellAt x.toNat y.toNat))
  | .ok (.lookup i) =>
    if s.colorStuck then s.awaitColor else (s.logLookup i).respond (colorWord (s.lookup i))
  | .ok _ => s.respond 0#32
  | .error _ => s.respond 0#32

/-- A cycle of phase `INJECT`: the byte arrives, or the block waits with nothing written (R57, R124). -/
def State.injectCycle (s : State) : State :=
  match s.rngScript with
  | none :: t => { s with rngScript := t, rngWait := true }
  | some _ :: _ => (injectBody s).afterInject
  | [] => if s.rngSilent then { s with rngWait := true } else (injectBody s).afterInject

/-- A cycle of phase `DIFFUSE`: one cell; the last one leaves `CX = W` (R125). -/
def State.diffuseCycle (s : State) : State :=
  if s.diffuseOne.cx.toNat < s.cfg.w then s.diffuseOne else s.diffuseOne.afterDiffuse

/-- A cycle of phase `PREFETCH` (R149). -/
def State.prefetchCycle (s : State) : State :=
  if s.colorStuck then s.awaitColor
  else if s.pfc + 1 < s.cfg.n then s.fetch 0
  else (s.fetch 0).enter .shift

/-- The port takes its level for the place `(POS, BITK, CYC)` (R146). -/
def State.drive (s : State) : State :=
  { s with port := bitLevel s.cfg.toParams (patternOf s.cfg.toParams s.sr s.bitk) s.cyc }

/-- The place within the scan moves on by one cycle; after the last cycle of the last bit time the latch hold begins
(R24, R146, R148). -/
def State.nextCycle (s : State) : State :=
  if s.cyc + 1 < s.cfg.tbit then (s.setPlace s.bitk (s.cyc + 1)).drive
  else if s.bitk + 1 < 24 then (s.setPlace (s.bitk + 1) 0).drive
  else if s.pos + 1 < s.cfg.l then s.nextPosition
  else s.nextPosition.enter .latch

/-- A cycle of phase `SHIFT`: the background fetch never delays the waveform (R152, R154). -/
def State.shiftCycle (s : State) : State :=
  if s.fetching then (if s.colorStuck then s.awaitColor else s.fetch (s.pos + 1)).nextCycle else s.nextCycle

/-- A cycle of phase `LATCH` (R148). -/
def State.latchCycle (s : State) : State :=
  if s.lcnt + 1 < s.cfg.tLatch then s.setLcnt (s.lcnt + 1) else (s.setLcnt (s.lcnt + 1)).afterLatch

/-- A cycle of phase `IDLEDLY` (R175). -/
def State.idleCycle (s : State) : State :=
  if s.icnt + 1 < s.cfg.tIdle then s.setIcnt (s.icnt + 1) else (s.setIcnt (s.icnt + 1)).afterIdle

/-- One cycle with `rst = 0` and no word accepted: the sequencer advances within its phase (R26, R173). In `IDLE` and `HALT`
nothing happens. -/
def State.clock (s : State) : State :=
  match s.phase with
  | .idle => s.quiet
  | .fbinit => s.quiet.fbinitCycle
  | .palinit => s.quiet.palinitCycle
  | .access => s.quiet.accessCycle
  | .inject => s.quiet.injectCycle
  | .diffuse => s.quiet.diffuseCycle
  | .prefetch => s.quiet.prefetchCycle
  | .shift => s.observe.quiet.shiftCycle
  | .latch => s.observe.quiet.latchCycle
  | .idledly => s.observe.quiet.idleCycle
  | .halt => s.quiet

/-- The acceptance of a word in phase `IDLE`: `CMDR <- cmd`, decode, checks; the next phase is the command's first one or
`HALT` (R84, R191). -/
def State.accept (s : State) (w : Word32) : State :=
  match decode w with
  | .error _ => s.raiseFault .illegal w
  | .ok i =>
    match acceptError i s with
    | some e => s.raiseFault e w
    | none => s.begin i

/-- One cycle in which the host presents `w`: accepted in `IDLE`, ignored otherwise (R84). -/
def State.offer (s : State) (w : Word32) : State := if s.phase = .idle then s.accept w else s.clock

/-- A busy block that waits on a port that never answers: no step exists (R190 d). The background fetch of `SHIFT` cannot wait
(R224), and a source that does not answer it is outside the model (U8). -/
def State.stuck (s : State) : Option Fault :=
  if decide (s.phase = .inject) && s.rngStuck then some .rngSilent
  else if s.colorStuck then some .palSilent
  else none

end Sys2Proof.Machine
end

