-- ==== Sys2Proof/Machine/Dispatch.lean ====
section
/-! DEFINITION. The meaning of each command, one arm per constructor. -/

namespace Sys2Proof.Machine

def exec (i : Instr) (s : State) : Host.Outcome State Fault Refusal :=
  match i with
  | .fbinit => Sys2Proof.Machine.execFbinit s
  | .palinit => Sys2Proof.Machine.execPalinit s
  | .setpx x y v => Sys2Proof.Machine.execSetpx x y v s
  | .getpx x y => Sys2Proof.Machine.execGetpx x y s
  | .lookup k => Sys2Proof.Machine.execLookup k s
  | .inject => Sys2Proof.Machine.execInject s
  | .diffuse => Sys2Proof.Machine.execDiffuse s
  | .sim => Sys2Proof.Machine.execSim s
  | .scan => Sys2Proof.Machine.execScan s
  | .tick => Sys2Proof.Machine.execTick s
  | .run => Sys2Proof.Machine.execRun s

end Sys2Proof.Machine
end

