-- ==== Sys2Proof/Machine/React.lean ====
section
/-!
DEFINITION. What the block makes of one act of the host: a reset (R210), a reset in the middle of a command (R213, R228), a
word on the command port (R84), or nothing.
-/

namespace Sys2Proof.Machine

/-- The block goes on by itself: a `RUN` that stands at the start of a pass makes the whole pass (R172), any other command in
progress advances by one cycle, and `IDLE` and `HALT` stay as they are (R173). -/
def goOn (s : State) : Host.Outcome State Fault Refusal :=
  if s.phase = .inject ∧ s.opcode = Instr.run.opcode then runPass s
  else match s.stuck with
    | some f => .fault f
    | none => .next s.clock

/-- A word accepted in phase `IDLE`: the command it decodes to, or `ERR_ILLEGAL` (R84, R186). -/
def acceptWord (w : Word32) (s : State) : Host.Outcome State Fault Refusal :=
  match decode w with
  | .ok i => exec i s
  | .error _ => .next (s.raiseFault .illegal w)

/-- The block's answer to one act of the host. A word presented outside `IDLE` is ignored (R84, R192, U22). -/
def react (a : HostAct) (s : State) : Host.Outcome State Fault Refusal :=
  match a with
  | .wait => goOn s
  | .cmd w => if s.phase = .idle then acceptWord w s else goOn s
  | .rst => .next s.applyReset
  | .cut w n => .next (State.clock^[n] (s.offer w)).applyReset

end Sys2Proof.Machine
end

