-- ==== Sys2Proof/Machine/Step.lean ====
section
/-!
DEFINITION. One step of the machine, and where it fetches its next command: the head of the host's list (log entry 8).
-/

namespace Sys2Proof.Machine

/-- One step: the host's next act and the block's answer to it. A host with nothing left to do waits for ever; in `HALT` no
step exists then (R194). -/
def step (s : State) : Host.Outcome State Fault Refusal :=
  match s.todo with
  | a :: t => react a (s.setTodo t)
  | [] => if s.phase = .halt then .fault .halted else react .wait s

/-- `s` with the word `w` presented to the block in phase `IDLE` in the very next step. -/
def State.withFetchWord (s : State) (nbits w : Nat) : State :=
  { s with phase := .idle, todo := .cmd (BitVec.ofNat 32 (w % 2 ^ nbits)) :: s.todo }

end Sys2Proof.Machine
end

