-- ==== Sys2Proof/Safety.lean ====
section
/-!
DEFINITION. What holds in every state a machine can be in (the invariant), and what counts as the end of a run (R233).
-/

namespace Sys2Proof.Machine

/-- The command in progress is `i`, it was accepted without a fault, and it is one of those that pass through the phase
(R21, R26, R173). -/
def State.executing (s : State) (pass : Instr → Bool) : Prop :=
  ∃ i, s.cmdr = encode i ∧ acceptError i s = none ∧ pass i = true

/-- The commands that pass through `DIFFUSE` (R173). -/
def passesDiffuse (i : Instr) : Bool := decide (i = .diffuse) || decide (i = .sim) || decide (i = .tick) || decide (i = .run)

/-- The commands that scan: they pass through `PREFETCH`, `SHIFT` and `LATCH` (R173). -/
def passesScan (i : Instr) : Bool := decide (i = .scan) || decide (i = .tick) || decide (i = .run)

/-- The commands that pass through `IDLEDLY` (R173). -/
def passesIdle (i : Instr) : Bool := decide (i = .tick) || decide (i = .run)

/-- The place of the command in progress is a place of its phase: the command is one of the phase's, and the counters of the
phase are within their ranges (R23, R25, R27). -/
def State.inPlace (s : State) : Prop :=
  match s.phase with
  | .idle => True
  | .halt => True
  | .fbinit => s.executing (fun i => decide (i = .fbinit)) ∧ s.filla < s.cfg.npix ∧
      ∀ a < s.filla, (Memory.read? s.fb a).isSome = true
  | .palinit => s.executing (fun i => decide (i = .palinit)) ∧ s.pali < 256 ∧
      ∀ k < s.pali, (Memory.read? s.palc k).isSome = true
  | .access => s.executing fun i => decide (firstPhase i = .access)
  | .inject => s.executing usesRng
  | .diffuse => s.executing passesDiffuse ∧ s.cx.toNat < s.cfg.w ∧ s.cy.toNat < s.cfg.h
  | .prefetch => s.executing passesScan ∧ s.pfc < s.cfg.n
  | .shift => s.executing passesScan ∧ s.pos < s.cfg.l ∧ s.bitk < 24 ∧ s.cyc < s.cfg.tbit ∧ s.pfc ≤ s.cfg.n
  | .latch => s.executing passesScan ∧ s.lcnt < s.cfg.tLatch
  | .idledly => s.executing passesIdle ∧ s.icnt < s.cfg.tIdle

/-- The level the port has by its place: in `SHIFT` that of the bit time, elsewhere 0 (R42, R146). -/
def State.portNow (s : State) : PortVal :=
  if s.phase = .shift then bitLevel s.cfg.toParams (patternOf s.cfg.toParams s.sr s.bitk) s.cyc else 0

/-- The invariant of the block. -/
structure State.Inv (s : State) : Prop where
  /-- The frame buffer keeps its canonical form and holds cells of the build only (R39, R58). -/
  fbForm : Memory.wf s.fb ∧ ∀ x ∈ s.fb, x.1 < s.cfg.npix
  /-- The palette cache keeps its canonical form, and each entry is what the color source answered (R40, R65). -/
  palForm : Memory.wf s.palc ∧ ∀ x ∈ s.palc, x.1 < 256 ∧ x.2 = palSrcAt s.cfg.toParams (BitVec.ofNat 8 x.1)
  /-- Outside RAM mode there is no palette cache and `PALV` is 1 (R29, R40). -/
  palMode : s.cfg.palMode ≠ .ram → s.palc = [] ∧ s.palv = true
  /-- While `FBV` is 1 every cell holds a value (R28, R212). -/
  fbFull : s.fbv = true → ∀ a < s.cfg.npix, (Memory.read? s.fb a).isSome = true
  /-- While `PALV` is 1 in RAM mode every entry holds a value (R29, R40). -/
  palFull : s.cfg.palMode = .ram → s.palv = true → ∀ k < 256, (Memory.read? s.palc k).isSome = true
  /-- The banks have `N` registers (R36). -/
  banks : s.sr.length = s.cfg.n ∧ s.nx.length = s.cfg.n
  /-- The port is 0 outside `SHIFT` and follows the bit time inside it (R42, R146). -/
  portLevel : s.port = s.portNow
  /-- A cause is recorded exactly in `HALT` (R32, R194). -/
  cause : s.errcode ≠ .none ↔ s.phase = .halt
  /-- `ERRINFO` is 0 without a fault, and the faulting word, which is in `CMDR`, after one (R33, R192). -/
  info : s.errinfo = if s.errcode = .none then 0#32 else s.cmdr
  /-- A response is shown in `IDLE` only (R37, R77). -/
  response : s.rspValid = true → s.phase = .idle
  /-- A color request stays open only with a source that never answers; any other answers at once (log entry 6). -/
  waits : s.palWait = true → s.palSilent = true
  /-- The command in progress is at a place of its phase. -/
  place : s.inPlace

/-- The run of a command sequence is over: every command has been answered and the block is idle. A halted block and one that
waits on a port are not final (R233). -/
def State.final (s : State) : Bool := decide (s.phase = .idle) && s.todo.isEmpty

/-- The edges of the phase-transition table between the phases of a command in progress (R173). -/
def phaseEdge (i : Instr) : Phase → Phase → Bool
  | .fbinit, .idle => decide (i = .fbinit)
  | .palinit, .idle => decide (i = .palinit)
  | .access, .idle => decide (firstPhase i = .access)
  | .inject, .idle => decide (i = .inject)
  | .inject, .diffuse => decide (i = .sim) || decide (i = .tick) || decide (i = .run)
  | .diffuse, .idle => decide (i = .diffuse) || decide (i = .sim)
  | .diffuse, .prefetch => decide (i = .tick) || decide (i = .run)
  | .prefetch, .shift => passesScan i
  | .shift, .latch => passesScan i
  | .latch, .idle => decide (i = .scan)
  | .latch, .idledly => passesIdle i
  | .idledly, .idle => decide (i = .tick)
  | .idledly, .inject => decide (i = .run)
  | _, _ => false

/-- How often a line rises, given its level before (R155). -/
def risingEdges : Bool → List Bool → Nat
  | _, [] => 0
  | before, now :: t => (!before && now).toNat + risingEdges now t

/-- The waveform of one line: port bit `b` in every cycle of a record (R147, R150). -/
def lineOf (b : Nat) (r : List (PortVal × Nat)) : List Bool := (waveCycles r).map fun v => v.testBit b

end Sys2Proof.Machine
end

