-- ==== Sys2Proof/Certificates/Slice0/Obligations.lean ====
section
/-!
DEFINITION. The statements for the provers, in the order of OBLIGATIONS.json. Conditions are on the state and the operands
alone: `fbv` and `palvOut` are the flags of R28 and R29, `rngStuck` and `palSilent` say that a port never answers (R190 d).
-/

open Sys2Proof Sys2Proof.Machine

/-- R71, R73, R82. Decoding the word of a command gives the command back, with every operand at every value. -/
def Obligations.DecodeEncode : Prop := ∀ i : Instr, decode (encode i) = .ok i

/-- R73, R82. A word that decodes is the word of the command it decodes to: no bit of it is dropped. -/
def Obligations.EncodeDecode : Prop := ∀ (w : Word32) (i : Instr), decode w = .ok i → encode i = w

/-- R73. A word is a command of a row exactly when it has the row's fixed bits; so no word has those of two rows. -/
def Obligations.OpcodeMap : Prop :=
  ∀ (w : Word32) (i : Instr), w &&& i.mask = i.matchWord ↔ ∃ j, decode w = .ok j ∧ j.opcode = i.opcode

/-- R75. A word is illegal exactly when `OP` is reserved, or `Z` is not 0, or a field that carries no operand in its format is
not 0; the all-zero and the all-ones word are illegal; an illegal word that is accepted raises `ERR_ILLEGAL` and changes nothing
else (the port and `rsp_valid` are 0 from the next cycle on, R192). -/
def Obligations.IllegalWords : Prop :=
  (∀ w : Word32, (∃ r, decode w = .error r) ↔
    ((fieldOp w = 0x0#4 ∨ 0xC#4 ≤ fieldOp w) ∨ fieldZ w ≠ 0#4 ∨
      (fieldY w ≠ 0#8 ∧ fieldOp w ≠ 0x3#4 ∧ fieldOp w ≠ 0x4#4) ∨
      (fieldX w ≠ 0#8 ∧ fieldOp w ≠ 0x3#4 ∧ fieldOp w ≠ 0x4#4) ∨
      (fieldV w ≠ 0#8 ∧ fieldOp w ≠ 0x3#4 ∧ fieldOp w ≠ 0x5#4))) ∧
  (∃ r, decode 0x00000000#32 = .error r) ∧ (∃ r, decode 0xFFFFFFFF#32 = .error r) ∧
  (∀ (s : State) (w : Word32) (l : List HostAct) (r : Reject), s.phase = .idle → s.todo = .cmd w :: l →
    decode w = .error r →
    step s = .next { s with todo := l, errcode := .illegal, errinfo := w, cmdr := w, phase := .halt, port := 0,
                            rspValid := false })

/-- 95_test_vectors V-C: some words written out there decode to what stands beside them. -/
def Obligations.SpecWordsDecode : Prop :=
  decode 0x10000000#32 = .ok .fbinit ∧ decode 0x20000000#32 = .ok .palinit ∧
  decode 0x300203C8#32 = .ok (.setpx 3#8 2#8 200#8) ∧ decode 0x40000700#32 = .ok (.getpx 7#8 0#8) ∧
  decode 0x50000080#32 = .ok (.lookup 0x80#8) ∧ decode 0x80000000#32 = .ok .sim ∧
  decode 0x90000000#32 = .ok .scan ∧ decode 0xB0000000#32 = .ok .run

/-- R84. A word presented in `IDLE` that decodes is accepted: the step is its command's meaning, on the state from which the
host's act has been taken. -/
def Obligations.StepRunsDecoded : Prop :=
  ∀ (s : State) (w : Word32) (l : List HostAct) (i : Instr), s.phase = .idle → s.todo = .cmd w :: l →
    decode w = .ok i → step s = exec i (s.setTodo l)

/-- R84, U22. Outside `IDLE` a presented word is ignored: the step is the one made when nothing is presented. -/
def Obligations.WordsIgnoredOutsideIdle : Prop :=
  ∀ (s : State) (w : Word32) (l : List HostAct), s.phase ≠ .idle → s.todo = .cmd w :: l →
    step s = step (s.setTodo (.wait :: l))

/-- R185, R191. The first failing check gives the cause: decoding, then the operand range, then `FBV`, then `PALV`. -/
def Obligations.FaultPriority : Prop :=
  ∀ (s : State) (w : Word32) (l : List HostAct), s.phase = .idle → s.todo = .cmd w :: l →
    (∀ r, decode w = .error r → ∃ t, step s = .next t ∧ t.phase = .halt ∧ t.errcode = .illegal) ∧
    (∀ i, decode w = .ok i →
      (∀ x y, i.coords = some (x, y) → (s.cfg.w ≤ x.toNat ∨ s.cfg.h ≤ y.toNat) →
        ∃ t, step s = .next t ∧ t.phase = .halt ∧ t.errcode = .range) ∧
      ((∀ x y, i.coords = some (x, y) → x.toNat < s.cfg.w ∧ y.toNat < s.cfg.h) →
        (i ≠ .fbinit ∧ i ≠ .palinit ∧ (∀ k, i ≠ .lookup k) → s.fbv = false →
          ∃ t, step s = .next t ∧ t.phase = .halt ∧ t.errcode = .fbUninit) ∧
        ((∃ k, i = .lookup k) ∨ (s.fbv = true ∧ (i = .scan ∨ i = .tick ∨ i = .run)) →
          s.cfg.palMode = .ram → s.palv = false →
          ∃ t, step s = .next t ∧ t.phase = .halt ∧ t.errcode = .palUninit)))

/-- R192, R193. A command that fails a check at acceptance records the cause and its own word, halts, and changes nothing else:
no cell, no palette entry, no flag, no draw, no color request, no response. -/
def Obligations.FaultEntry : Prop :=
  ∀ (i : Instr) (s : State) (e : ErrCode), acceptError i s = some e →
    exec i s = .next { s with errcode := e, errinfo := encode i, cmdr := encode i, phase := .halt, port := 0,
                              rspValid := false }

/-- R194. A halted block keeps its cause, its word and its memories until a reset, and no step exists when the host does nothing
more. -/
def Obligations.HaltLeftByResetOnly : Prop :=
  ∀ s : State, s.phase = .halt →
    (s.todo = [] → step s = .fault .halted) ∧
    (∀ a l, s.todo = a :: l → (a = .wait ∨ ∃ w, a = .cmd w) →
      step s = .next { s with todo := l, rspValid := false }) ∧
    (∀ a l, s.todo = a :: l → (a = .rst ∨ ∃ w n, a = .cut w n) →
      ∃ t, step s = .next t ∧ t.phase = .idle ∧ t.errcode = .none ∧ t.errinfo = 0#32 ∧ t.fbv = false ∧
        (s.cfg.palMode = .ram → t.palv = false))

/-- R211, R212, R216. What reset leaves, from any state: the values of the table, no value in either memory, no request on either
port, and the RandomSource where it was. (What the table gives as unspecified is not stated. That the RandomSource is where it
was also when a draw is awaited, which R213 leaves open, is the model's choice: log entry 14.) -/
def Obligations.ResetValues : Prop :=
  ∀ (s : State) (l : List HostAct), s.todo = .rst :: l →
    ∃ t, step s = .next t ∧ t.phase = .idle ∧ t.cmdr = 0#32 ∧ t.fbv = false ∧
      t.palvOut = decide (s.cfg.palMode ≠ .ram) ∧ t.errcode = .none ∧ t.errinfo = 0#32 ∧ t.port = 0 ∧
      t.rspValid = false ∧ t.rngReq = false ∧ t.palReq = false ∧
      (∀ a, Memory.read? t.fb a = none) ∧ (∀ k, Memory.read? t.palc k = none) ∧
      t.draws = s.draws ∧ t.rngScript = s.rngScript

/-- R213, R216. A reset in the middle of a command, after any number of cycles, leaves the reset state of the build, whatever the
command was doing; only what is outside the block can tell. -/
def Obligations.ResetDuringCommand : Prop :=
  ∀ (s : State) (w : Word32) (n : Nat) (l : List HostAct), s.todo = .cut w n :: l →
    ∃ t : State, step s = .next t ∧
      t = { State.resetOf s.cfg with
            wave := t.wave, draws := t.draws, palLog := t.palLog, rngScript := t.rngScript, resets := s.resets + 1,
            todo := l, rngSilent := s.rngSilent, palSilent := s.palSilent }

/-- R228. A reset during `SHIFT` truncates the waveform: the cycle in which it is sampled is the last one on the record, and the
port is 0 from the next edge on. -/
def Obligations.TornScan : Prop :=
  ∀ s : State, s.phase = .shift →
    s.applyReset.port = 0 ∧ waveCycles s.applyReset.wave = waveCycles s.wave ++ [s.port]

/-- R106. `FBINIT` completes from every state: every cell is 0, `FBV` is 1, the response is 0, and nothing else changes but the
fill counter (whose end value is the model's: log entry 16). -/
def Obligations.FbinitZeroFills : Prop :=
  ∀ s : State, ∃ t, exec .fbinit s = .next t ∧
    (∀ a < s.cfg.npix, Memory.read? t.fb a = some 0#8) ∧
    (∀ a, s.cfg.npix ≤ a → Memory.read? t.fb a = Memory.read? s.fb a) ∧
    t = { s with phase := .idle, cmdr := 0x10000000#32, fb := t.fb, fbv := true, filla := s.cfg.npix,
                 rsp := 0#32, rspValid := true, port := 0 }

/-- R92. In RAM mode `PALINIT` stores the color source's answer in all 256 entries, asks for them in ascending order, and sets
`PALV`; nothing else changes but the counter and the request bit (the counter's end value is the model's: log entry 16). -/
def Obligations.PalinitFillsCache : Prop :=
  ∀ s : State, s.cfg.palMode = .ram → s.palSilent = false → ∃ t, exec .palinit s = .next t ∧
    (∀ k < 256, Memory.read? t.palc k = some (palSrcAt s.cfg.toParams (BitVec.ofNat 8 k))) ∧
    (∀ k, 256 ≤ k → Memory.read? t.palc k = Memory.read? s.palc k) ∧
    t.palLog = s.palLog ++ (List.range 256).map (fun k => BitVec.ofNat 8 k) ∧
    t = { s with phase := .idle, cmdr := 0x20000000#32, palc := t.palc, palv := true, pali := 256, palLog := t.palLog,
                 palWait := false, rsp := 0#32, rspValid := true, port := 0 }

/-- R92, C5. A second `PALINIT` leaves every entry as it is, in every mode. -/
def Obligations.PalinitIdempotent : Prop :=
  ∀ s t u : State, exec .palinit s = .next t → exec .palinit t = .next u →
    ∀ k, Memory.read? u.palc k = Memory.read? t.palc k

/-- R92. In ROM and CAL mode `PALINIT` is a no-op that responds 0 (the counter's value is the model's: log entry 16). -/
def Obligations.PalinitElsewhereDoesNothing : Prop :=
  ∀ s : State, s.cfg.palMode ≠ .ram → exec .palinit s =
    .next { s with phase := .idle, cmdr := 0x20000000#32, pali := 0, palWait := false, rsp := 0#32, rspValid := true,
                   port := 0 }

/-- R107, R53. `SETPX` stores its value in the one cell it names, at `y*W + x` under the spec's map, and nothing else changes. -/
def Obligations.SetpxStoresOneCell : Prop :=
  ∀ (s : State) (x y v : Byte), x.toNat < s.cfg.w → y.toNat < s.cfg.h → s.fbv = true →
    ∃ t, exec (.setpx x y v) s = .next t ∧
      Memory.read? t.fb (addr s.cfg.toParams x.toNat y.toNat) = some v ∧
      (∀ a, a ≠ addr s.cfg.toParams x.toNat y.toNat → Memory.read? t.fb a = Memory.read? s.fb a) ∧
      (s.cfg.addrMap = .direct → addr s.cfg.toParams x.toNat y.toNat = y.toNat * s.cfg.w + x.toNat) ∧
      t = { s with phase := .idle, cmdr := encode (.setpx x y v), fb := t.fb, palWait := false, rsp := 0#32,
                   rspValid := true, port := 0 }

/-- R108. `GETPX` answers the value of the cell it names, which holds one in every state of the invariant, and changes nothing. -/
def Obligations.GetpxReadsCell : Prop :=
  ∀ (s : State) (x y : Byte), s.Inv → x.toNat < s.cfg.w → y.toNat < s.cfg.h → s.fbv = true →
    ∃ v, Memory.read? s.fb (addr s.cfg.toParams x.toNat y.toNat) = some v ∧
      exec (.getpx x y) s =
        .next { s with phase := .idle, cmdr := encode (.getpx x y), palWait := false, rsp := v.setWidth 32,
                       rspValid := true, port := 0 }

/-- R62, R107, R108. A `GETPX` after a `SETPX` sees the value stored if it names the same cell, and otherwise what it would have
seen before. -/
def Obligations.GetAfterSet : Prop :=
  ∀ (s : State) (x y v x' y' : Byte), x.toNat < s.cfg.w → y.toNat < s.cfg.h → x'.toNat < s.cfg.w → y'.toNat < s.cfg.h →
    s.fbv = true →
    ∃ t u u', exec (.setpx x y v) s = .next t ∧ exec (.getpx x' y') t = .next u ∧ exec (.getpx x' y') s = .next u' ∧
      u.rsp = if x' = x ∧ y' = y then v.setWidth 32 else u'.rsp

/-- R91, R93, R94. `LOOKUP` answers the color source's value of its index, in every mode (in RAM mode from the cache, with no
request; in the others with one), and changes nothing else. -/
def Obligations.LookupAnswersColor : Prop :=
  ∀ (s : State) (k : Byte), s.Inv → s.palvOut = true → (s.cfg.palMode = .ram ∨ s.palSilent = false) →
    exec (.lookup k) s =
      .next { s with phase := .idle, cmdr := encode (.lookup k), palWait := false,
                     palLog := if s.cfg.palMode = .ram then s.palLog else s.palLog ++ [k],
                     rsp := (palSrcAt s.cfg.toParams k).setWidth 32, rspValid := true, port := 0 }

/-- R120. The saturating add, with the three values the source fixes. -/
def Obligations.SaturatingAdd : Prop :=
  (∀ a b : Byte, (satAdd8 a b).toNat = min (a.toNat + b.toNat) 255) ∧
    satAdd8 250#8 10#8 = 255#8 ∧ satAdd8 5#8 5#8 = 10#8 ∧ satAdd8 0#8 0#8 = 0#8

/-- R123. The cell function at five equal inputs: `floor(259*V / 256)`, that is `V`, `V + 1` or `V + 2`. -/
def Obligations.UniformCell : Prop :=
  ∀ v : Byte, diffuseCell v v v v v = 259 * v.toNat / 256 ∧
    diffuseCell v v v v v = v.toNat + 3 * v.toNat / 256 ∧
    (v.toNat ≤ 85 → diffuseCell v v v v v = v.toNat) ∧
    (86 ≤ v.toNat → v.toNat ≤ 170 → diffuseCell v v v v v = v.toNat + 1) ∧
    (171 ≤ v.toNat → diffuseCell v v v v v = v.toNat + 2)

/-- R122, U4. The two narrowings store the same byte exactly when the sum is below 65536; up to 255 both store the value itself. -/
def Obligations.NarrowingsDiffer : Prop :=
  (∀ c l r u d : Byte, narrow8 .sat (diffuseCell c l r u d) = narrow8 .wrap (diffuseCell c l r u d) ↔
    diffuseSum c l r u d < 65536) ∧
  ∀ v ≤ 255, (narrow8 .sat v).toNat = v ∧ (narrow8 .wrap v).toNat = v

/-- R57, R124. `INJECT` draws one byte and adds 8, saturating, to column `drawn mod W` of the bottom row; nothing else changes but
`COL` and the RandomSource. The byte drawn is the first answer of the script, after however many silent cycles, and the script
keeps what comes after it; with no answer left in it the byte is the free value of this draw (log entry 5). -/
def Obligations.InjectAddsSpark : Prop :=
  ∀ s : State, s.fbv = true → s.rngStuck = false → ∃ t : State, exec .inject s = .next t ∧
    (∀ m b l, s.rngScript = List.replicate m none ++ some b :: l → s.drawn = b ∧ t.rngScript = l) ∧
    ((∀ x ∈ s.rngScript, x = none) → s.drawn = Config.rngByte s.draws ∧ t.rngScript = []) ∧
    Memory.read? t.fb (addr s.cfg.toParams (s.drawn.toNat % s.cfg.w) (s.cfg.h - 1)) =
      some (satAdd8 (s.cellAt (s.drawn.toNat % s.cfg.w) (s.cfg.h - 1)) 8#8) ∧
    (∀ a, a ≠ addr s.cfg.toParams (s.drawn.toNat % s.cfg.w) (s.cfg.h - 1) →
      Memory.read? t.fb a = Memory.read? s.fb a) ∧
    t = { s with phase := .idle, cmdr := 0x60000000#32, fb := t.fb, col := BitVec.ofNat 8 (s.drawn.toNat % s.cfg.w),
                 draws := s.draws + 1, rngScript := (untilAnswer s.rngScript).tail, rngWait := false, rsp := 0#32,
                 rspValid := true, port := 0 }

/-- R125, R126. `DIFFUSE` is one in-place pass: the new value of each cell is the narrowed weighted mean of its old value, its
new left neighbour, its old right neighbour, its old upper neighbour and its new lower neighbour (on the bottom row its own old
value, or 0 under `DOWN_AT_BOTTOM = ZERO`); outside the grid the left, right and upper neighbours are 0. Nothing else changes but
the datapath registers. -/
def Obligations.DiffuseInPlace : Prop :=
  ∀ s : State, s.fbv = true → ∃ t, exec .diffuse s = .next t ∧
    (∀ x y, x < s.cfg.w → y < s.cfg.h →
      Memory.read? t.fb (addr s.cfg.toParams x y) = some (narrow8 s.cfg.narrow (diffuseCell (s.cellAt x y)
        (if 0 < x then t.cellAt (x - 1) y else 0#8)
        (if x + 1 < s.cfg.w then s.cellAt (x + 1) y else 0#8)
        (if 0 < y then s.cellAt x (y - 1) else 0#8)
        (if y + 1 < s.cfg.h then t.cellAt x (y + 1)
          else if s.cfg.downAtBottom = .center then s.cellAt x y else 0#8)))) ∧
    (∀ a, (∀ x y, x < s.cfg.w → y < s.cfg.h → a ≠ addr s.cfg.toParams x y) →
      Memory.read? t.fb a = Memory.read? s.fb a) ∧
    t = { s with phase := .idle, cmdr := 0x70000000#32, fb := t.fb, cx := t.cx, cy := t.cy, c := t.c, lf := t.lf, rt := t.rt,
                 up := t.up, dn := t.dn, acc := t.acc, rsp := 0#32, rspValid := true, port := 0 }

/-- R125 (c). A pass over an all-zero buffer leaves it all zero. -/
def Obligations.ZeroBufferStaysZero : Prop :=
  ∀ s : State, s.fbv = true → (∀ x y, x < s.cfg.w → y < s.cfg.h → s.cellAt x y = 0#8) →
    ∃ t, exec .diffuse s = .next t ∧ ∀ x y, x < s.cfg.w → y < s.cfg.h → t.cellAt x y = 0#8

/-- R127. `SIM` is exactly `INJECT` followed by `DIFFUSE`: it completes, and its state is theirs but for the command word. -/
def Obligations.SimIsInjectThenDiffuse : Prop :=
  ∀ s : State, s.fbv = true → s.rngStuck = false →
    ∃ t u, exec .inject s = .next t ∧ exec .diffuse t = .next u ∧
      exec .sim s = .next { u with cmdr := 0x80000000#32 }

/-- R143, R144, R147, R151. Within a bit time the line of chain `c` is high for `TH + TP` cycles if its data bit is 1 and for `TH`
cycles if it is 0, then low to the end; every port bit that is no chain line is 0. -/
def Obligations.BitTimeOnEachLine : Prop :=
  ∀ (p : Params) (sr : List Color) (k j b : Nat),
    (∀ c < p.n, b = p.firstPin + c → (bitLevel p (patternOf p sr k) j).testBit b =
      decide (j < if dataBit (sr.getD c 0#24) k then p.th + p.tp else p.th)) ∧
    ((b < p.firstPin ∨ p.firstPin + p.n ≤ b) → (bitLevel p (patternOf p sr k) j).testBit b = false)

/-- R141 to R146, R148, R149. `SCAN` completes, and from `t0` on the port shows, for each chain position in order and each of its
24 bits, all lines high for `TH` cycles, the pattern of the chains' data bits for `TP` cycles and 0 for `TL` cycles, with no gap,
and then 0 for `T_LATCH` cycles; it changes neither memory, no flag and no error register. The bits of a color `{R, G, B}` are sent
green first, then red, then blue, each from its most significant bit down (R51, R142, R143); with the spec's map chain `c` at
position `p` shows the cell at `c*L + p` (R67). (The record is the model's: log entry 11.) -/
def Obligations.ScanTrace : Prop :=
  ∀ s : State, s.fbv = true → s.palvOut = true → (s.cfg.palMode = .ram ∨ s.palSilent = false) →
    ∃ t, exec .scan s = .next t ∧
      (∀ p k j, p < s.cfg.l → k < 24 → j < s.cfg.tbit →
        (waveCycles t.wave)[s.cfg.tbit * (24 * p + k) + j]? = some
          (if j < s.cfg.th then (2 ^ s.cfg.n - 1) <<< s.cfg.firstPin
           else if j < s.cfg.th + s.cfg.tp then
             ((List.range s.cfg.n).map fun c =>
               ((s.lookup (s.fbCell (pixmap s.cfg.toParams c p))).getLsbD
                 (if k < 8 then 15 - k else if k < 16 then 31 - k else 23 - k)).toNat <<< (s.cfg.firstPin + c)).sum
           else 0)) ∧
      (s.cfg.pixMap = .direct → ∀ c p, pixmap s.cfg.toParams c p = c * s.cfg.l + p) ∧
      (∀ j < s.cfg.tLatch, (waveCycles t.wave)[s.cfg.tbit * (24 * s.cfg.l) + j]? = some 0) ∧
      (waveCycles t.wave).length = s.cfg.tbit * (24 * s.cfg.l) + s.cfg.tLatch ∧
      t = { s with phase := .idle, cmdr := 0x90000000#32, pos := t.pos, bitk := t.bitk, cyc := t.cyc, pfc := t.pfc,
                   lcnt := t.lcnt, sr := t.sr, nx := t.nx, wave := t.wave, palLog := t.palLog, palWait := false,
                   rsp := 0#32, rspValid := true, port := 0 }

/-- R153. A scan asks for the colors in the order `p` ascending and, within one `p`, `c` ascending, one request for each cell in
ROM and CAL mode and none in RAM mode. -/
def Obligations.ScanLookupOrder : Prop :=
  ∀ s : State, s.fbv = true → s.palvOut = true → (s.cfg.palMode = .ram ∨ s.palSilent = false) →
    ∃ t, exec .scan s = .next t ∧ t.palLog = s.palLog ++
      if s.cfg.palMode = .ram then []
      else (List.range s.cfg.l).flatMap fun p => (List.range s.cfg.n).map fun c => s.fbCell (pixmap s.cfg.toParams c p)

/-- R155. A scan raises each chain line exactly `24 * L` times, in the record (log entry 11). -/
def Obligations.ScanRisingEdges : Prop :=
  ∀ s : State, s.fbv = true → s.palvOut = true → (s.cfg.palMode = .ram ∨ s.palSilent = false) →
    ∃ t, exec .scan s = .next t ∧
      ∀ c < s.cfg.n, risingEdges false (lineOf (s.cfg.firstPin + c) t.wave) = 24 * s.cfg.l

/-- R150. Lanes do not interact: if two states of one build give chain `c` the same colors, its line carries the same waveform in
both scans, whatever the other chains show. (The waveform is read off the record: log entry 11.) -/
def Obligations.LanesIndependent : Prop :=
  ∀ (s s' : State) (c : Nat), s.cfg = s'.cfg → c < s.cfg.n →
    acceptError .scan s = none → neverAnswered .scan s = none →
    acceptError .scan s' = none → neverAnswered .scan s' = none →
    (∀ p < s.cfg.l, s.lookup (s.fbCell (pixmap s.cfg.toParams c p)) = s'.lookup (s'.fbCell (pixmap s.cfg.toParams c p))) →
    ∃ t t', exec .scan s = .next t ∧ exec .scan s' = .next t' ∧
      lineOf (s.cfg.firstPin + c) t.wave = lineOf (s.cfg.firstPin + c) t'.wave

/-- R94. The palette strategy does not show: two builds that differ in `PALMODE` only give, on equal frame buffers, the same port
record of a scan (log entry 11) and the same answers of lookups. -/
def Obligations.CrossModeEquivalence : Prop :=
  ∀ (s s' : State) (m : PalMode), s.Inv → s'.Inv → s'.cfg.toParams = { s.cfg.toParams with palMode := m } → s.fb = s'.fb →
    acceptError .scan s = none → neverAnswered .scan s = none →
    acceptError .scan s' = none → neverAnswered .scan s' = none →
    (∀ k, s.lookup k = s'.lookup k) ∧
    ∃ t t', exec .scan s = .next t ∧ exec .scan s' = .next t' ∧ waveCycles t.wave = waveCycles t'.wave

/-- R171, R175. `TICK` equals `SIM`, then `SCAN`, then `T_IDLE` cycles with the port low (the value `ICNT` keeps is the
model's: log entry 16). -/
def Obligations.TickIsSimThenScan : Prop :=
  ∀ s : State, s.fbv = true → s.palvOut = true → s.rngStuck = false → (s.cfg.palMode = .ram ∨ s.palSilent = false) →
    ∃ t u, exec .sim s = .next t ∧ exec .scan t = .next u ∧
      exec .tick s = .next { u with cmdr := 0xA0000000#32, wave := pushWave 0 s.cfg.tIdle u.wave, icnt := s.cfg.tIdle }

/-- R172. The first pass of `RUN` is the tick of `TICK`; instead of answering, the block stands in phase `INJECT` at the start of
the next pass (that a step is one pass, and that `RSP` is kept, are the model's: log entries 7 and 4). -/
def Obligations.RunStartsWithATick : Prop :=
  ∀ s : State, s.fbv = true → s.palvOut = true → s.rngStuck = false → (s.cfg.palMode = .ram ∨ s.palSilent = false) →
    ∃ u, exec .tick s = .next u ∧
      exec .run s = .next { u with phase := .inject, cmdr := 0xB0000000#32, rsp := s.rsp, rspValid := false }

/-- R172 (b). Every further pass of `RUN` is what a `TICK` issued there would do, with no response, whether the host
has nothing left to do, waits, or presents a word, which is ignored (log entries 7 and 4, as above). -/
def Obligations.RunPassIsATick : Prop :=
  ∀ (s : State) (l : List HostAct), s.phase = .inject → s.cmdr = encode .run →
    (s.todo = [] ∧ l = [] ∨ s.todo = .wait :: l ∨ ∃ w, s.todo = .cmd w :: l) → s.fbv = true → s.palvOut = true → s.rngStuck = false →
    (s.cfg.palMode = .ram ∨ s.palSilent = false) →
    ∃ u, exec .tick { s with phase := .idle, todo := l } = .next u ∧
      step s = .next { u with phase := .inject, cmdr := encode .run, rsp := s.rsp, rspValid := false }

/-- R172 (a). `RUN` never ends by itself: whatever the host does short of a reset, a step of a `RUN` at the start of a pass leaves
it at the start of the next one, with no response and no fault. -/
def Obligations.RunNeverEnds : Prop :=
  ∀ s s' : State, s.phase = .inject → s.opcode = Instr.run.opcode →
    (∀ l, s.todo ≠ .rst :: l) → (∀ w n l, s.todo ≠ .cut w n :: l) → step s = .next s' →
    s'.phase = .inject ∧ s'.opcode = Instr.run.opcode ∧ s'.rspValid = false ∧ s'.errcode = s.errcode ∧
      s'.draws = s.draws + 1

/-- R190 (d), U9. A command whose port never answers is stuck: no step exists. For `TICK` and `RUN` with a silent color source the
stuck outcome stands for the whole command, whose simulation would come before the wait (log entry 20). -/
def Obligations.SilentPortsAreStuck : Prop :=
  ∀ (i : Instr) (s : State), acceptError i s = none →
    ((i = .inject ∨ i = .sim ∨ i = .tick ∨ i = .run) → s.rngSilent = true → (∀ x ∈ s.rngScript, x = none) →
      exec i s = .fault .rngSilent) ∧
    ((i = .palinit ∧ s.cfg.palMode = .ram) ∨ (((∃ k, i = .lookup k) ∨ i = .scan) ∧ s.cfg.palMode ≠ .ram) →
      s.palSilent = true → exec i s = .fault .palSilent) ∧
    ((i = .tick ∨ i = .run) → s.cfg.palMode ≠ .ram → (s.rngSilent = false ∨ ∃ b, some b ∈ s.rngScript) →
      s.palSilent = true → exec i s = .fault .palSilent)

/-- R77. Every command but `RUN` that does not fault ends with one response, in `IDLE`: the cell for `GETPX`, the color for
`LOOKUP`, else 0. A faulting command and `RUN` give none. -/
def Obligations.Responses : Prop :=
  ∀ (i : Instr) (s t : State), exec i s = .next t →
    (acceptError i s ≠ none → t.rspValid = false ∧ t.phase = .halt) ∧
    (acceptError i s = none → i = .run → t.rspValid = false) ∧
    (acceptError i s = none → i ≠ .run → t.phase = .idle ∧ t.rspValid = true ∧
      (∀ x y, i = .getpx x y → t.rsp = (s.cellAt x.toNat y.toNat).setWidth 32) ∧
      (∀ k, i = .lookup k → t.rsp = (s.lookup k).setWidth 32) ∧
      ((∀ x y, i ≠ .getpx x y) → (∀ k, i ≠ .lookup k) → t.rsp = 0#32))

/-- R38, R57, R109, R193. What a command cannot touch: the configuration, the error registers unless it faults; the frame buffer
unless it is one of its writers; the palette cache and `PALV` unless it is `PALINIT`; `FBV` unless it is `FBINIT`; the
RandomSource, but for one byte in a command that injects; the record unless it scans. -/
def Obligations.CommandFrame : Prop :=
  ∀ (i : Instr) (s t : State), exec i s = .next t →
    t.cfg = s.cfg ∧ t.resets = s.resets ∧ t.todo = s.todo ∧ t.rngSilent = s.rngSilent ∧ t.palSilent = s.palSilent ∧
    (acceptError i s = none → t.errcode = s.errcode ∧ t.errinfo = s.errinfo ∧ t.cmdr = encode i) ∧
    (i ≠ .fbinit → t.fbv = s.fbv ∧ t.filla = s.filla) ∧
    (i ≠ .palinit → t.palv = s.palv ∧ t.palc = s.palc ∧ t.pali = s.pali) ∧
    (i = .palinit ∨ (∃ x y, i = .getpx x y) ∨ (∃ k, i = .lookup k) ∨ i = .scan → t.fb = s.fb) ∧
    (usesRng i = false → t.draws = s.draws ∧ t.rngScript = s.rngScript ∧ t.col = s.col) ∧
    (acceptError i s = none → usesRng i = true → t.draws = s.draws + 1) ∧
    (passesDiffuse i = false → t.cx = s.cx ∧ t.cy = s.cy ∧ t.c = s.c ∧ t.lf = s.lf ∧ t.rt = s.rt ∧ t.up = s.up ∧
      t.dn = s.dn ∧ t.acc = s.acc) ∧
    (passesScan i = false → t.wave = s.wave ∧ t.sr = s.sr ∧ t.nx = s.nx ∧ t.pos = s.pos ∧ t.bitk = s.bitk ∧
      t.cyc = s.cyc ∧ t.pfc = s.pfc ∧ t.lcnt = s.lcnt) ∧
    (passesIdle i = false → t.icnt = s.icnt) ∧
    (∀ a, (∀ x y, x < s.cfg.w → y < s.cfg.h → a ≠ addr s.cfg.toParams x y) → i ≠ .fbinit →
      (∀ x y v, i = .setpx x y v → x.toNat < s.cfg.w ∧ y.toNat < s.cfg.h) →
      Memory.read? t.fb a = Memory.read? s.fb a)

/-- R28, R29. Once set, neither flag falls but by a reset. -/
def Obligations.FlagsFallByResetOnly : Prop :=
  ∀ s t : State, step s = .next t → (∀ l, s.todo ≠ .rst :: l) → (∀ w n l, s.todo ≠ .cut w n :: l) →
    (s.fbv = true → t.fbv = true) ∧ (s.palvOut = true → t.palvOut = true)

/-- R6, R7. No step changes the build. -/
def Obligations.ConfigurationFixed : Prop := ∀ s t : State, step s = .next t → t.cfg = s.cfg

/-- R7. A parameter set that breaks one of the spec's conditions builds no machine: the chain length divides the number of cells,
the sizes are 1 to 256, the chains lie within the port, the latch hold is 960 cycles or more and the prefetch fits (R6, R148,
R224). A set that meets them, whose color source is total (R61), whose maps are the spec's or bijections (U19) and whose bit
phases and fetches take a cycle or more (log entry 15), builds its own; and what is built has the parameters given. -/
def Obligations.IllegalBuildsRefused : Prop :=
  (∀ p : Params, (¬ p.l ∣ p.w * p.h ∨ p.w = 0 ∨ 256 < p.w ∨ p.h = 0 ∨ 256 < p.h ∨ p.l = 0 ∨
      p.portw < p.firstPin + p.w * p.h / p.l ∨ p.tLatch < 960 ∨
      (p.l ≠ 1 ∧ 24 * (p.th + p.tp + p.tl) < p.w * p.h / p.l * p.tFetch)) → Config.build p = none) ∧
    (∀ p : Params, p.l ∣ p.w * p.h → 1 ≤ p.w → p.w ≤ 256 → 1 ≤ p.h → p.h ≤ 256 → 1 ≤ p.l →
      p.firstPin + p.w * p.h / p.l ≤ p.portw → 960 ≤ p.tLatch →
      (p.l = 1 ∨ p.w * p.h / p.l * p.tFetch ≤ 24 * (p.th + p.tp + p.tl)) → p.palSrc.length = 256 →
      (1 ≤ p.th ∧ 1 ≤ p.tp ∧ 1 ≤ p.tl ∧ 1 ≤ p.tFetch) →
      (∀ m, m = p.addrMap ∨ m = p.pixMap →
        m = .direct ∨ ∃ t, m = .table t ∧ t.length = p.w * p.h ∧ t.Nodup ∧ ∀ a ∈ t, a < p.w * p.h) →
      ∃ c, Config.build p = some c ∧ c.toParams = p) ∧
    ∀ (p : Params) (c : Config), Config.build p = some c → c.toParams = p

/-- R83, R217. `BOOT` makes the block ready: after its two words, presented from the reset state of any build, every cell is 0,
every lookup gives the color source's value, and every command whose coordinates are in range is accepted without a fault. -/
def Obligations.BootMakesReady : Prop :=
  ∀ c : Config, ∃ t u, step ((State.resetOf c).setTodo (bootWords.map .cmd)) = .next t ∧ step t = .next u ∧
    u.todo = [] ∧ u.phase = .idle ∧ u.rsp = 0#32 ∧ u.rspValid = true ∧
    (∀ x y, x < c.w → y < c.h → u.cellAt x y = 0#8) ∧ (∀ k, u.lookup k = palSrcAt c.toParams k) ∧
    ∀ i : Instr, i.wellFormed c.toParams = true → acceptError i u = none

/-- R31, R32, R42, R84. The outputs agree with one another in every state of the invariant: of ready, busy and halted exactly one
is 1 while `rst = 0`, and they follow the code of `PHASE`; a cause is shown exactly when halted; a chain line is high only in
phase `SHIFT`; a response is shown only when a command can be accepted. -/
def Obligations.StatusOutputs : Prop :=
  ∀ s : State, s.Inv →
    (s.cmdReady false).toNat + s.busy.toNat + s.halted.toNat = 1 ∧ s.cmdReady true = false ∧
    (s.cmdReady false = true ↔ s.phase.code = 0#4) ∧ (s.halted = true ↔ s.phase.code = 15#4) ∧
    (s.halted = true ↔ s.errcode.code ≠ 0#3) ∧ (s.port ≠ 0 → s.phase.code = 7#4) ∧
    (s.rspValid = true → s.cmdReady false = true)

/-- The invariant holds right after reset, for every build (R211, R212). -/
def Obligations.ResetMeetsInvariant : Prop := (∀ c : Config, (State.resetOf c).Inv) ∧ State.reset.Inv

/-- Every step keeps the invariant (`State.Inv`): the memories keep their canonical form and stay within the build, a flag that
is 1 means a full memory, the palette cache repeats the color source, the port is low outside `SHIFT` and follows the bit time
inside it, a cause is recorded exactly in `HALT`, a response is shown in `IDLE` only, and the counters keep their ranges. -/
def Obligations.StepKeepsInvariant : Prop := ∀ s t : State, s.Inv → step s = .next t → t.Inv

/-- One cycle keeps the invariant, in every phase (R26, R27). -/
def Obligations.ClockKeepsInvariant : Prop :=
  ∀ s : State, s.Inv → s.clock.Inv

/-- R173. The phase-transition relation: in a cycle a command in progress stays in its phase or takes an edge of the table (with
`T_IDLE = 0` it passes through `IDLEDLY` in zero cycles), and it returns to `IDLE` with a response; acceptance leads to the
command's first phase, or to `HALT` when it faults; `HALT` stays; reset leads to `IDLE`. -/
def Obligations.PhaseTransitions : Prop :=
  ∀ (s : State) (w : Word32), s.Inv →
    (∀ i, s.cmdr = encode i → s.phase ≠ .idle → s.phase ≠ .halt →
      (s.clock.phase = s.phase ∨ phaseEdge i s.phase s.clock.phase = true ∨
        (s.cfg.tIdle = 0 ∧ phaseEdge i s.phase .idledly = true ∧ phaseEdge i .idledly s.clock.phase = true)) ∧
      (s.clock.phase = .idle ↔ s.clock.rspValid = true)) ∧
    (s.phase = .idle →
      ((∃ i, decode w = .ok i ∧ acceptError i s = none ∧ (s.accept w).phase = firstPhase i) ∨
        (((∃ r, decode w = .error r) ∨ ∃ i, decode w = .ok i ∧ acceptError i s ≠ none) ∧ (s.accept w).phase = .halt)) ∧
      s.clock.phase = .idle) ∧
    (s.phase = .halt → s.clock.phase = .halt) ∧
    s.applyReset.phase = .idle

/-- R24, R56, R170. The command machine and the cycle machine agree: whatever `exec` answers is what the block's cycles lead to
from the acceptance of the command's word, with every register the same. -/
def Obligations.CyclesRefineCommands : Prop :=
  ∀ (i : Instr) (s t : State), exec i s = .next t → ∃ n, State.clock^[n] (s.accept (encode i)) = t

/-- R146. The registered port of a scan, cycle by cycle: there is a first cycle `t0` of `SHIFT`, before which the phase is
`PREFETCH` and the port 0, such that in cycle `t0 + TBIT*n + j` the phase is `SHIFT` and the port shows all lines high, the pattern
of chain position `n / 24` and bit `n mod 24` (green, red, blue, each from its bit 7 down), or 0, by `j`; then for `T_LATCH` cycles the phase is `LATCH` and the port 0; and in
the cycle after that the response is shown and the port is 0. -/
def Obligations.ScanPortByCycle : Prop :=
  ∀ s : State, s.fbv = true → s.palvOut = true → (s.cfg.palMode = .ram ∨ s.palSilent = false) →
    ∃ t0, (∀ m < t0, (State.clock^[m] (s.begin .scan)).phase = .prefetch ∧
        (State.clock^[m] (s.begin .scan)).port = 0) ∧
      (∀ n < 24 * s.cfg.l, ∀ j < s.cfg.tbit,
        (State.clock^[t0 + (s.cfg.tbit * n + j)] (s.begin .scan)).phase = .shift ∧
        (State.clock^[t0 + (s.cfg.tbit * n + j)] (s.begin .scan)).port =
          if j < s.cfg.th then (2 ^ s.cfg.n - 1) <<< s.cfg.firstPin
          else if j < s.cfg.th + s.cfg.tp then
            ((List.range s.cfg.n).map fun c =>
              ((s.lookup (s.fbCell (pixmap s.cfg.toParams c (n / 24)))).getLsbD
                (if n % 24 < 8 then 15 - n % 24 else if n % 24 < 16 then 31 - n % 24 else 23 - n % 24)).toNat <<<
                  (s.cfg.firstPin + c)).sum
          else 0) ∧
      (∀ m < s.cfg.tLatch,
        (State.clock^[t0 + s.cfg.tbit * (24 * s.cfg.l) + m] (s.begin .scan)).phase = .latch ∧
        (State.clock^[t0 + s.cfg.tbit * (24 * s.cfg.l) + m] (s.begin .scan)).port = 0) ∧
      (State.clock^[t0 + s.cfg.tbit * (24 * s.cfg.l) + s.cfg.tLatch] (s.begin .scan)).port = 0 ∧
      exec .scan s = .next (State.clock^[t0 + s.cfg.tbit * (24 * s.cfg.l) + s.cfg.tLatch] (s.begin .scan))

/-- R57, R124, R173. An injection requests exactly one byte and waits for it: from its acceptance on, if the RandomSource lets `m`
cycles pass and then answers `b`, there is a number of cycles, more than `m`, in which the phase is `INJECT`, `rng_req` is 1 in
exactly one of them, and nothing is written before the draw; then the phase ends with one draw made, of `b`. How many cycles that
are no rule fixes and this does not say (R231, log entry 9). The script is the model's form of the port (log entry 5). -/
def Obligations.RngRequestedOnce : Prop :=
  ∀ (i : Instr) (s : State) (m : Nat) (b : Byte) (l : List (Option Byte)), usesRng i = true →
    s.rngScript = List.replicate m none ++ some b :: l →
    ∃ n, m < n ∧
      (∀ j < n, (State.clock^[j] (s.begin i)).phase = .inject ∧
        ((State.clock^[j] (s.begin i)).draws = s.draws → (State.clock^[j] (s.begin i)).fb = s.fb)) ∧
      (List.range n).countP (fun j => (State.clock^[j] (s.begin i)).rngReq) = 1 ∧
      (State.clock^[n] (s.begin i)).phase = (if i = .inject then .idle else .diffuse) ∧
      (State.clock^[n] (s.begin i)).rngReq = false ∧
      (State.clock^[n] (s.begin i)).draws = s.draws + 1 ∧ (State.clock^[n] (s.begin i)).rngScript = l ∧
      (State.clock^[n] (s.begin i)).col = BitVec.ofNat 8 (b.toNat % s.cfg.w)

/-- R57: `rng_req` is raised in phase `INJECT` only, "for one cycle". That this is the first cycle of the phase, so that no cycle
that follows one of `INJECT` requests a byte and a cycle that leads into `INJECT` from another phase (the next pass of `RUN`) is
followed by a request, is the model's choice: no rule fixes the cycle of the pulse (R231; log entries 9 and 28). -/
def Obligations.RngRequestByPhase : Prop :=
  ∀ s : State, (s.rngReq = true → s.phase = .inject) ∧
    (s.phase = .inject → s.clock.rngReq = false) ∧
    (s.phase ≠ .inject → s.clock.phase = .inject → s.clock.rngReq = true)

/-- R61. Each request on the color-source port is one pulse that shows the index asked: in every cycle of a state of the invariant
the log of requests gets the index on `pal_idx` if `pal_req` is 1, and nothing if it is 0; a request that is not answered is not
repeated in the next cycle. In RAM mode only `PALINIT` requests; in the other modes `LOOKUP` does in the cycle after its
acceptance, with its operand on `pal_idx`. (The log and the cycles of the requests are the model's: log entries 6, 9 and 25.) -/
def Obligations.ColorRequestsArePulses : Prop :=
  ∀ s : State, s.Inv →
    s.clock.palLog = s.palLog ++ (if s.palReq = true then [s.palIdx] else []) ∧
    (s.palReq = true → s.palSilent = true → s.clock.palReq = false) ∧
    (s.palReq = true → s.cfg.palMode = .ram → s.phase = .palinit) ∧
    ∀ k, (s.begin (.lookup k)).palReq = decide (s.cfg.palMode ≠ .ram) ∧
      (s.cfg.palMode ≠ .ram → (s.begin (.lookup k)).palIdx = k)

/-- R37, R77, R202. In `IDLE` with no word presented nothing happens but that `rsp_valid` falls, so a response is shown for one
cycle only: this holds of a cycle, and of a step whose host waits or has nothing left to do. (That `RSP` is kept: log entry 4. The
list of acts: log entry 8.) -/
def Obligations.IdleOnlyDropsTheResponse : Prop :=
  ∀ s : State, s.phase = .idle →
    s.clock = { s with rspValid := false } ∧
    (s.todo = [] → step s = .next { s with rspValid := false }) ∧
    (∀ l, s.todo = .wait :: l → step s = .next { s with todo := l, rspValid := false })
end

