-- ==== Sys2Proof/Laws/State.lean ====
section
/-!
SUPPORT. What each named operation makes of each field of State: one lemma per field per update.
-/

namespace Sys2Proof.Machine

/-! `State.setFb` -/

@[simp] theorem State.setFb_cfg (s : State) (a : Nat) (v : Byte) : (s.setFb a v).cfg = s.cfg := rfl
@[simp] theorem State.setFb_phase (s : State) (a : Nat) (v : Byte) : (s.setFb a v).phase = s.phase := rfl
@[simp] theorem State.setFb_cmdr (s : State) (a : Nat) (v : Byte) : (s.setFb a v).cmdr = s.cmdr := rfl
@[simp] theorem State.setFb_fbv (s : State) (a : Nat) (v : Byte) : (s.setFb a v).fbv = s.fbv := rfl
@[simp] theorem State.setFb_palv (s : State) (a : Nat) (v : Byte) : (s.setFb a v).palv = s.palv := rfl
@[simp] theorem State.setFb_errcode (s : State) (a : Nat) (v : Byte) : (s.setFb a v).errcode = s.errcode := rfl
@[simp] theorem State.setFb_errinfo (s : State) (a : Nat) (v : Byte) : (s.setFb a v).errinfo = s.errinfo := rfl
@[simp] theorem State.setFb_col (s : State) (a : Nat) (v : Byte) : (s.setFb a v).col = s.col := rfl
@[simp] theorem State.setFb_cx (s : State) (a : Nat) (v : Byte) : (s.setFb a v).cx = s.cx := rfl
@[simp] theorem State.setFb_cy (s : State) (a : Nat) (v : Byte) : (s.setFb a v).cy = s.cy := rfl
@[simp] theorem State.setFb_c (s : State) (a : Nat) (v : Byte) : (s.setFb a v).c = s.c := rfl
@[simp] theorem State.setFb_lf (s : State) (a : Nat) (v : Byte) : (s.setFb a v).lf = s.lf := rfl
@[simp] theorem State.setFb_rt (s : State) (a : Nat) (v : Byte) : (s.setFb a v).rt = s.rt := rfl
@[simp] theorem State.setFb_up (s : State) (a : Nat) (v : Byte) : (s.setFb a v).up = s.up := rfl
@[simp] theorem State.setFb_dn (s : State) (a : Nat) (v : Byte) : (s.setFb a v).dn = s.dn := rfl
@[simp] theorem State.setFb_acc (s : State) (a : Nat) (v : Byte) : (s.setFb a v).acc = s.acc := rfl
@[simp] theorem State.setFb_pos (s : State) (a : Nat) (v : Byte) : (s.setFb a v).pos = s.pos := rfl
@[simp] theorem State.setFb_bitk (s : State) (a : Nat) (v : Byte) : (s.setFb a v).bitk = s.bitk := rfl
@[simp] theorem State.setFb_cyc (s : State) (a : Nat) (v : Byte) : (s.setFb a v).cyc = s.cyc := rfl
@[simp] theorem State.setFb_pfc (s : State) (a : Nat) (v : Byte) : (s.setFb a v).pfc = s.pfc := rfl
@[simp] theorem State.setFb_lcnt (s : State) (a : Nat) (v : Byte) : (s.setFb a v).lcnt = s.lcnt := rfl
@[simp] theorem State.setFb_icnt (s : State) (a : Nat) (v : Byte) : (s.setFb a v).icnt = s.icnt := rfl
@[simp] theorem State.setFb_filla (s : State) (a : Nat) (v : Byte) : (s.setFb a v).filla = s.filla := rfl
@[simp] theorem State.setFb_pali (s : State) (a : Nat) (v : Byte) : (s.setFb a v).pali = s.pali := rfl
@[simp] theorem State.setFb_sr (s : State) (a : Nat) (v : Byte) : (s.setFb a v).sr = s.sr := rfl
@[simp] theorem State.setFb_nx (s : State) (a : Nat) (v : Byte) : (s.setFb a v).nx = s.nx := rfl
@[simp] theorem State.setFb_rsp (s : State) (a : Nat) (v : Byte) : (s.setFb a v).rsp = s.rsp := rfl
@[simp] theorem State.setFb_rspValid (s : State) (a : Nat) (v : Byte) : (s.setFb a v).rspValid = s.rspValid := rfl
@[simp] theorem State.setFb_fb (s : State) (a : Nat) (v : Byte) : (s.setFb a v).fb = Memory.write s.fb a v := rfl
@[simp] theorem State.setFb_palc (s : State) (a : Nat) (v : Byte) : (s.setFb a v).palc = s.palc := rfl
@[simp] theorem State.setFb_port (s : State) (a : Nat) (v : Byte) : (s.setFb a v).port = s.port := rfl
@[simp] theorem State.setFb_rngWait (s : State) (a : Nat) (v : Byte) : (s.setFb a v).rngWait = s.rngWait := rfl
@[simp] theorem State.setFb_palWait (s : State) (a : Nat) (v : Byte) : (s.setFb a v).palWait = s.palWait := rfl
@[simp] theorem State.setFb_wave (s : State) (a : Nat) (v : Byte) : (s.setFb a v).wave = s.wave := rfl
@[simp] theorem State.setFb_draws (s : State) (a : Nat) (v : Byte) : (s.setFb a v).draws = s.draws := rfl
@[simp] theorem State.setFb_palLog (s : State) (a : Nat) (v : Byte) : (s.setFb a v).palLog = s.palLog := rfl
@[simp] theorem State.setFb_resets (s : State) (a : Nat) (v : Byte) : (s.setFb a v).resets = s.resets := rfl
@[simp] theorem State.setFb_todo (s : State) (a : Nat) (v : Byte) : (s.setFb a v).todo = s.todo := rfl
@[simp] theorem State.setFb_rngScript (s : State) (a : Nat) (v : Byte) : (s.setFb a v).rngScript = s.rngScript := rfl
@[simp] theorem State.setFb_rngSilent (s : State) (a : Nat) (v : Byte) : (s.setFb a v).rngSilent = s.rngSilent := rfl
@[simp] theorem State.setFb_palSilent (s : State) (a : Nat) (v : Byte) : (s.setFb a v).palSilent = s.palSilent := rfl

/-! `State.setPal` -/

@[simp] theorem State.setPal_cfg (s : State) (i : Nat) (v : Color) : (s.setPal i v).cfg = s.cfg := rfl
@[simp] theorem State.setPal_phase (s : State) (i : Nat) (v : Color) : (s.setPal i v).phase = s.phase := rfl
@[simp] theorem State.setPal_cmdr (s : State) (i : Nat) (v : Color) : (s.setPal i v).cmdr = s.cmdr := rfl
@[simp] theorem State.setPal_fbv (s : State) (i : Nat) (v : Color) : (s.setPal i v).fbv = s.fbv := rfl
@[simp] theorem State.setPal_palv (s : State) (i : Nat) (v : Color) : (s.setPal i v).palv = s.palv := rfl
@[simp] theorem State.setPal_errcode (s : State) (i : Nat) (v : Color) : (s.setPal i v).errcode = s.errcode := rfl
@[simp] theorem State.setPal_errinfo (s : State) (i : Nat) (v : Color) : (s.setPal i v).errinfo = s.errinfo := rfl
@[simp] theorem State.setPal_col (s : State) (i : Nat) (v : Color) : (s.setPal i v).col = s.col := rfl
@[simp] theorem State.setPal_cx (s : State) (i : Nat) (v : Color) : (s.setPal i v).cx = s.cx := rfl
@[simp] theorem State.setPal_cy (s : State) (i : Nat) (v : Color) : (s.setPal i v).cy = s.cy := rfl
@[simp] theorem State.setPal_c (s : State) (i : Nat) (v : Color) : (s.setPal i v).c = s.c := rfl
@[simp] theorem State.setPal_lf (s : State) (i : Nat) (v : Color) : (s.setPal i v).lf = s.lf := rfl
@[simp] theorem State.setPal_rt (s : State) (i : Nat) (v : Color) : (s.setPal i v).rt = s.rt := rfl
@[simp] theorem State.setPal_up (s : State) (i : Nat) (v : Color) : (s.setPal i v).up = s.up := rfl
@[simp] theorem State.setPal_dn (s : State) (i : Nat) (v : Color) : (s.setPal i v).dn = s.dn := rfl
@[simp] theorem State.setPal_acc (s : State) (i : Nat) (v : Color) : (s.setPal i v).acc = s.acc := rfl
@[simp] theorem State.setPal_pos (s : State) (i : Nat) (v : Color) : (s.setPal i v).pos = s.pos := rfl
@[simp] theorem State.setPal_bitk (s : State) (i : Nat) (v : Color) : (s.setPal i v).bitk = s.bitk := rfl
@[simp] theorem State.setPal_cyc (s : State) (i : Nat) (v : Color) : (s.setPal i v).cyc = s.cyc := rfl
@[simp] theorem State.setPal_pfc (s : State) (i : Nat) (v : Color) : (s.setPal i v).pfc = s.pfc := rfl
@[simp] theorem State.setPal_lcnt (s : State) (i : Nat) (v : Color) : (s.setPal i v).lcnt = s.lcnt := rfl
@[simp] theorem State.setPal_icnt (s : State) (i : Nat) (v : Color) : (s.setPal i v).icnt = s.icnt := rfl
@[simp] theorem State.setPal_filla (s : State) (i : Nat) (v : Color) : (s.setPal i v).filla = s.filla := rfl
@[simp] theorem State.setPal_pali (s : State) (i : Nat) (v : Color) : (s.setPal i v).pali = s.pali := rfl
@[simp] theorem State.setPal_sr (s : State) (i : Nat) (v : Color) : (s.setPal i v).sr = s.sr := rfl
@[simp] theorem State.setPal_nx (s : State) (i : Nat) (v : Color) : (s.setPal i v).nx = s.nx := rfl
@[simp] theorem State.setPal_rsp (s : State) (i : Nat) (v : Color) : (s.setPal i v).rsp = s.rsp := rfl
@[simp] theorem State.setPal_rspValid (s : State) (i : Nat) (v : Color) : (s.setPal i v).rspValid = s.rspValid := rfl
@[simp] theorem State.setPal_fb (s : State) (i : Nat) (v : Color) : (s.setPal i v).fb = s.fb := rfl
@[simp] theorem State.setPal_palc (s : State) (i : Nat) (v : Color) : (s.setPal i v).palc = Memory.write s.palc i v := rfl
@[simp] theorem State.setPal_port (s : State) (i : Nat) (v : Color) : (s.setPal i v).port = s.port := rfl
@[simp] theorem State.setPal_rngWait (s : State) (i : Nat) (v : Color) : (s.setPal i v).rngWait = s.rngWait := rfl
@[simp] theorem State.setPal_palWait (s : State) (i : Nat) (v : Color) : (s.setPal i v).palWait = s.palWait := rfl
@[simp] theorem State.setPal_wave (s : State) (i : Nat) (v : Color) : (s.setPal i v).wave = s.wave := rfl
@[simp] theorem State.setPal_draws (s : State) (i : Nat) (v : Color) : (s.setPal i v).draws = s.draws := rfl
@[simp] theorem State.setPal_palLog (s : State) (i : Nat) (v : Color) : (s.setPal i v).palLog = s.palLog := rfl
@[simp] theorem State.setPal_resets (s : State) (i : Nat) (v : Color) : (s.setPal i v).resets = s.resets := rfl
@[simp] theorem State.setPal_todo (s : State) (i : Nat) (v : Color) : (s.setPal i v).todo = s.todo := rfl
@[simp] theorem State.setPal_rngScript (s : State) (i : Nat) (v : Color) : (s.setPal i v).rngScript = s.rngScript := rfl
@[simp] theorem State.setPal_rngSilent (s : State) (i : Nat) (v : Color) : (s.setPal i v).rngSilent = s.rngSilent := rfl
@[simp] theorem State.setPal_palSilent (s : State) (i : Nat) (v : Color) : (s.setPal i v).palSilent = s.palSilent := rfl

/-! `State.askColor` -/

@[simp] theorem State.askColor_cfg (s : State) (i : Byte) : (s.askColor i).cfg = s.cfg := rfl
@[simp] theorem State.askColor_phase (s : State) (i : Byte) : (s.askColor i).phase = s.phase := rfl
@[simp] theorem State.askColor_cmdr (s : State) (i : Byte) : (s.askColor i).cmdr = s.cmdr := rfl
@[simp] theorem State.askColor_fbv (s : State) (i : Byte) : (s.askColor i).fbv = s.fbv := rfl
@[simp] theorem State.askColor_palv (s : State) (i : Byte) : (s.askColor i).palv = s.palv := rfl
@[simp] theorem State.askColor_errcode (s : State) (i : Byte) : (s.askColor i).errcode = s.errcode := rfl
@[simp] theorem State.askColor_errinfo (s : State) (i : Byte) : (s.askColor i).errinfo = s.errinfo := rfl
@[simp] theorem State.askColor_col (s : State) (i : Byte) : (s.askColor i).col = s.col := rfl
@[simp] theorem State.askColor_cx (s : State) (i : Byte) : (s.askColor i).cx = s.cx := rfl
@[simp] theorem State.askColor_cy (s : State) (i : Byte) : (s.askColor i).cy = s.cy := rfl
@[simp] theorem State.askColor_c (s : State) (i : Byte) : (s.askColor i).c = s.c := rfl
@[simp] theorem State.askColor_lf (s : State) (i : Byte) : (s.askColor i).lf = s.lf := rfl
@[simp] theorem State.askColor_rt (s : State) (i : Byte) : (s.askColor i).rt = s.rt := rfl
@[simp] theorem State.askColor_up (s : State) (i : Byte) : (s.askColor i).up = s.up := rfl
@[simp] theorem State.askColor_dn (s : State) (i : Byte) : (s.askColor i).dn = s.dn := rfl
@[simp] theorem State.askColor_acc (s : State) (i : Byte) : (s.askColor i).acc = s.acc := rfl
@[simp] theorem State.askColor_pos (s : State) (i : Byte) : (s.askColor i).pos = s.pos := rfl
@[simp] theorem State.askColor_bitk (s : State) (i : Byte) : (s.askColor i).bitk = s.bitk := rfl
@[simp] theorem State.askColor_cyc (s : State) (i : Byte) : (s.askColor i).cyc = s.cyc := rfl
@[simp] theorem State.askColor_pfc (s : State) (i : Byte) : (s.askColor i).pfc = s.pfc := rfl
@[simp] theorem State.askColor_lcnt (s : State) (i : Byte) : (s.askColor i).lcnt = s.lcnt := rfl
@[simp] theorem State.askColor_icnt (s : State) (i : Byte) : (s.askColor i).icnt = s.icnt := rfl
@[simp] theorem State.askColor_filla (s : State) (i : Byte) : (s.askColor i).filla = s.filla := rfl
@[simp] theorem State.askColor_pali (s : State) (i : Byte) : (s.askColor i).pali = s.pali := rfl
@[simp] theorem State.askColor_sr (s : State) (i : Byte) : (s.askColor i).sr = s.sr := rfl
@[simp] theorem State.askColor_nx (s : State) (i : Byte) : (s.askColor i).nx = s.nx := rfl
@[simp] theorem State.askColor_rsp (s : State) (i : Byte) : (s.askColor i).rsp = s.rsp := rfl
@[simp] theorem State.askColor_rspValid (s : State) (i : Byte) : (s.askColor i).rspValid = s.rspValid := rfl
@[simp] theorem State.askColor_fb (s : State) (i : Byte) : (s.askColor i).fb = s.fb := rfl
@[simp] theorem State.askColor_palc (s : State) (i : Byte) : (s.askColor i).palc = s.palc := rfl
@[simp] theorem State.askColor_port (s : State) (i : Byte) : (s.askColor i).port = s.port := rfl
@[simp] theorem State.askColor_rngWait (s : State) (i : Byte) : (s.askColor i).rngWait = s.rngWait := rfl
@[simp] theorem State.askColor_palWait (s : State) (i : Byte) : (s.askColor i).palWait = false := rfl
@[simp] theorem State.askColor_wave (s : State) (i : Byte) : (s.askColor i).wave = s.wave := rfl
@[simp] theorem State.askColor_draws (s : State) (i : Byte) : (s.askColor i).draws = s.draws := rfl
@[simp] theorem State.askColor_palLog (s : State) (i : Byte) : (s.askColor i).palLog = s.palLog ++ [i] := rfl
@[simp] theorem State.askColor_resets (s : State) (i : Byte) : (s.askColor i).resets = s.resets := rfl
@[simp] theorem State.askColor_todo (s : State) (i : Byte) : (s.askColor i).todo = s.todo := rfl
@[simp] theorem State.askColor_rngScript (s : State) (i : Byte) : (s.askColor i).rngScript = s.rngScript := rfl
@[simp] theorem State.askColor_rngSilent (s : State) (i : Byte) : (s.askColor i).rngSilent = s.rngSilent := rfl
@[simp] theorem State.askColor_palSilent (s : State) (i : Byte) : (s.askColor i).palSilent = s.palSilent := rfl

/-! `State.afterDraw` -/

@[simp] theorem State.afterDraw_cfg (s : State) : s.afterDraw.cfg = s.cfg := rfl
@[simp] theorem State.afterDraw_phase (s : State) : s.afterDraw.phase = s.phase := rfl
@[simp] theorem State.afterDraw_cmdr (s : State) : s.afterDraw.cmdr = s.cmdr := rfl
@[simp] theorem State.afterDraw_fbv (s : State) : s.afterDraw.fbv = s.fbv := rfl
@[simp] theorem State.afterDraw_palv (s : State) : s.afterDraw.palv = s.palv := rfl
@[simp] theorem State.afterDraw_errcode (s : State) : s.afterDraw.errcode = s.errcode := rfl
@[simp] theorem State.afterDraw_errinfo (s : State) : s.afterDraw.errinfo = s.errinfo := rfl
@[simp] theorem State.afterDraw_col (s : State) : s.afterDraw.col = s.col := rfl
@[simp] theorem State.afterDraw_cx (s : State) : s.afterDraw.cx = s.cx := rfl
@[simp] theorem State.afterDraw_cy (s : State) : s.afterDraw.cy = s.cy := rfl
@[simp] theorem State.afterDraw_c (s : State) : s.afterDraw.c = s.c := rfl
@[simp] theorem State.afterDraw_lf (s : State) : s.afterDraw.lf = s.lf := rfl
@[simp] theorem State.afterDraw_rt (s : State) : s.afterDraw.rt = s.rt := rfl
@[simp] theorem State.afterDraw_up (s : State) : s.afterDraw.up = s.up := rfl
@[simp] theorem State.afterDraw_dn (s : State) : s.afterDraw.dn = s.dn := rfl
@[simp] theorem State.afterDraw_acc (s : State) : s.afterDraw.acc = s.acc := rfl
@[simp] theorem State.afterDraw_pos (s : State) : s.afterDraw.pos = s.pos := rfl
@[simp] theorem State.afterDraw_bitk (s : State) : s.afterDraw.bitk = s.bitk := rfl
@[simp] theorem State.afterDraw_cyc (s : State) : s.afterDraw.cyc = s.cyc := rfl
@[simp] theorem State.afterDraw_pfc (s : State) : s.afterDraw.pfc = s.pfc := rfl
@[simp] theorem State.afterDraw_lcnt (s : State) : s.afterDraw.lcnt = s.lcnt := rfl
@[simp] theorem State.afterDraw_icnt (s : State) : s.afterDraw.icnt = s.icnt := rfl
@[simp] theorem State.afterDraw_filla (s : State) : s.afterDraw.filla = s.filla := rfl
@[simp] theorem State.afterDraw_pali (s : State) : s.afterDraw.pali = s.pali := rfl
@[simp] theorem State.afterDraw_sr (s : State) : s.afterDraw.sr = s.sr := rfl
@[simp] theorem State.afterDraw_nx (s : State) : s.afterDraw.nx = s.nx := rfl
@[simp] theorem State.afterDraw_rsp (s : State) : s.afterDraw.rsp = s.rsp := rfl
@[simp] theorem State.afterDraw_rspValid (s : State) : s.afterDraw.rspValid = s.rspValid := rfl
@[simp] theorem State.afterDraw_fb (s : State) : s.afterDraw.fb = s.fb := rfl
@[simp] theorem State.afterDraw_palc (s : State) : s.afterDraw.palc = s.palc := rfl
@[simp] theorem State.afterDraw_port (s : State) : s.afterDraw.port = s.port := rfl
@[simp] theorem State.afterDraw_rngWait (s : State) : s.afterDraw.rngWait = false := rfl
@[simp] theorem State.afterDraw_palWait (s : State) : s.afterDraw.palWait = s.palWait := rfl
@[simp] theorem State.afterDraw_wave (s : State) : s.afterDraw.wave = s.wave := rfl
@[simp] theorem State.afterDraw_draws (s : State) : s.afterDraw.draws = s.draws + 1 := rfl
@[simp] theorem State.afterDraw_palLog (s : State) : s.afterDraw.palLog = s.palLog := rfl
@[simp] theorem State.afterDraw_resets (s : State) : s.afterDraw.resets = s.resets := rfl
@[simp] theorem State.afterDraw_todo (s : State) : s.afterDraw.todo = s.todo := rfl
@[simp] theorem State.afterDraw_rngScript (s : State) : s.afterDraw.rngScript = (untilAnswer s.rngScript).tail := rfl
@[simp] theorem State.afterDraw_rngSilent (s : State) : s.afterDraw.rngSilent = s.rngSilent := rfl
@[simp] theorem State.afterDraw_palSilent (s : State) : s.afterDraw.palSilent = s.palSilent := rfl

/-! `State.emit` -/

@[simp] theorem State.emit_cfg (s : State) (v : PortVal) (n : Nat) : (s.emit v n).cfg = s.cfg := rfl
@[simp] theorem State.emit_phase (s : State) (v : PortVal) (n : Nat) : (s.emit v n).phase = s.phase := rfl
@[simp] theorem State.emit_cmdr (s : State) (v : PortVal) (n : Nat) : (s.emit v n).cmdr = s.cmdr := rfl
@[simp] theorem State.emit_fbv (s : State) (v : PortVal) (n : Nat) : (s.emit v n).fbv = s.fbv := rfl
@[simp] theorem State.emit_palv (s : State) (v : PortVal) (n : Nat) : (s.emit v n).palv = s.palv := rfl
@[simp] theorem State.emit_errcode (s : State) (v : PortVal) (n : Nat) : (s.emit v n).errcode = s.errcode := rfl
@[simp] theorem State.emit_errinfo (s : State) (v : PortVal) (n : Nat) : (s.emit v n).errinfo = s.errinfo := rfl
@[simp] theorem State.emit_col (s : State) (v : PortVal) (n : Nat) : (s.emit v n).col = s.col := rfl
@[simp] theorem State.emit_cx (s : State) (v : PortVal) (n : Nat) : (s.emit v n).cx = s.cx := rfl
@[simp] theorem State.emit_cy (s : State) (v : PortVal) (n : Nat) : (s.emit v n).cy = s.cy := rfl
@[simp] theorem State.emit_c (s : State) (v : PortVal) (n : Nat) : (s.emit v n).c = s.c := rfl
@[simp] theorem State.emit_lf (s : State) (v : PortVal) (n : Nat) : (s.emit v n).lf = s.lf := rfl
@[simp] theorem State.emit_rt (s : State) (v : PortVal) (n : Nat) : (s.emit v n).rt = s.rt := rfl
@[simp] theorem State.emit_up (s : State) (v : PortVal) (n : Nat) : (s.emit v n).up = s.up := rfl
@[simp] theorem State.emit_dn (s : State) (v : PortVal) (n : Nat) : (s.emit v n).dn = s.dn := rfl
@[simp] theorem State.emit_acc (s : State) (v : PortVal) (n : Nat) : (s.emit v n).acc = s.acc := rfl
@[simp] theorem State.emit_pos (s : State) (v : PortVal) (n : Nat) : (s.emit v n).pos = s.pos := rfl
@[simp] theorem State.emit_bitk (s : State) (v : PortVal) (n : Nat) : (s.emit v n).bitk = s.bitk := rfl
@[simp] theorem State.emit_cyc (s : State) (v : PortVal) (n : Nat) : (s.emit v n).cyc = s.cyc := rfl
@[simp] theorem State.emit_pfc (s : State) (v : PortVal) (n : Nat) : (s.emit v n).pfc = s.pfc := rfl
@[simp] theorem State.emit_lcnt (s : State) (v : PortVal) (n : Nat) : (s.emit v n).lcnt = s.lcnt := rfl
@[simp] theorem State.emit_icnt (s : State) (v : PortVal) (n : Nat) : (s.emit v n).icnt = s.icnt := rfl
@[simp] theorem State.emit_filla (s : State) (v : PortVal) (n : Nat) : (s.emit v n).filla = s.filla := rfl
@[simp] theorem State.emit_pali (s : State) (v : PortVal) (n : Nat) : (s.emit v n).pali = s.pali := rfl
@[simp] theorem State.emit_sr (s : State) (v : PortVal) (n : Nat) : (s.emit v n).sr = s.sr := rfl
@[simp] theorem State.emit_nx (s : State) (v : PortVal) (n : Nat) : (s.emit v n).nx = s.nx := rfl
@[simp] theorem State.emit_rsp (s : State) (v : PortVal) (n : Nat) : (s.emit v n).rsp = s.rsp := rfl
@[simp] theorem State.emit_rspValid (s : State) (v : PortVal) (n : Nat) : (s.emit v n).rspValid = s.rspValid := rfl
@[simp] theorem State.emit_fb (s : State) (v : PortVal) (n : Nat) : (s.emit v n).fb = s.fb := rfl
@[simp] theorem State.emit_palc (s : State) (v : PortVal) (n : Nat) : (s.emit v n).palc = s.palc := rfl
@[simp] theorem State.emit_port (s : State) (v : PortVal) (n : Nat) : (s.emit v n).port = s.port := rfl
@[simp] theorem State.emit_rngWait (s : State) (v : PortVal) (n : Nat) : (s.emit v n).rngWait = s.rngWait := rfl
@[simp] theorem State.emit_palWait (s : State) (v : PortVal) (n : Nat) : (s.emit v n).palWait = s.palWait := rfl
@[simp] theorem State.emit_wave (s : State) (v : PortVal) (n : Nat) : (s.emit v n).wave = pushWave v n s.wave := rfl
@[simp] theorem State.emit_draws (s : State) (v : PortVal) (n : Nat) : (s.emit v n).draws = s.draws := rfl
@[simp] theorem State.emit_palLog (s : State) (v : PortVal) (n : Nat) : (s.emit v n).palLog = s.palLog := rfl
@[simp] theorem State.emit_resets (s : State) (v : PortVal) (n : Nat) : (s.emit v n).resets = s.resets := rfl
@[simp] theorem State.emit_todo (s : State) (v : PortVal) (n : Nat) : (s.emit v n).todo = s.todo := rfl
@[simp] theorem State.emit_rngScript (s : State) (v : PortVal) (n : Nat) : (s.emit v n).rngScript = s.rngScript := rfl
@[simp] theorem State.emit_rngSilent (s : State) (v : PortVal) (n : Nat) : (s.emit v n).rngSilent = s.rngSilent := rfl
@[simp] theorem State.emit_palSilent (s : State) (v : PortVal) (n : Nat) : (s.emit v n).palSilent = s.palSilent := rfl

/-! `State.respond` -/

@[simp] theorem State.respond_cfg (s : State) (v : Word32) : (s.respond v).cfg = s.cfg := rfl
@[simp] theorem State.respond_phase (s : State) (v : Word32) : (s.respond v).phase = .idle := rfl
@[simp] theorem State.respond_cmdr (s : State) (v : Word32) : (s.respond v).cmdr = s.cmdr := rfl
@[simp] theorem State.respond_fbv (s : State) (v : Word32) : (s.respond v).fbv = s.fbv := rfl
@[simp] theorem State.respond_palv (s : State) (v : Word32) : (s.respond v).palv = s.palv := rfl
@[simp] theorem State.respond_errcode (s : State) (v : Word32) : (s.respond v).errcode = s.errcode := rfl
@[simp] theorem State.respond_errinfo (s : State) (v : Word32) : (s.respond v).errinfo = s.errinfo := rfl
@[simp] theorem State.respond_col (s : State) (v : Word32) : (s.respond v).col = s.col := rfl
@[simp] theorem State.respond_cx (s : State) (v : Word32) : (s.respond v).cx = s.cx := rfl
@[simp] theorem State.respond_cy (s : State) (v : Word32) : (s.respond v).cy = s.cy := rfl
@[simp] theorem State.respond_c (s : State) (v : Word32) : (s.respond v).c = s.c := rfl
@[simp] theorem State.respond_lf (s : State) (v : Word32) : (s.respond v).lf = s.lf := rfl
@[simp] theorem State.respond_rt (s : State) (v : Word32) : (s.respond v).rt = s.rt := rfl
@[simp] theorem State.respond_up (s : State) (v : Word32) : (s.respond v).up = s.up := rfl
@[simp] theorem State.respond_dn (s : State) (v : Word32) : (s.respond v).dn = s.dn := rfl
@[simp] theorem State.respond_acc (s : State) (v : Word32) : (s.respond v).acc = s.acc := rfl
@[simp] theorem State.respond_pos (s : State) (v : Word32) : (s.respond v).pos = s.pos := rfl
@[simp] theorem State.respond_bitk (s : State) (v : Word32) : (s.respond v).bitk = s.bitk := rfl
@[simp] theorem State.respond_cyc (s : State) (v : Word32) : (s.respond v).cyc = s.cyc := rfl
@[simp] theorem State.respond_pfc (s : State) (v : Word32) : (s.respond v).pfc = s.pfc := rfl
@[simp] theorem State.respond_lcnt (s : State) (v : Word32) : (s.respond v).lcnt = s.lcnt := rfl
@[simp] theorem State.respond_icnt (s : State) (v : Word32) : (s.respond v).icnt = s.icnt := rfl
@[simp] theorem State.respond_filla (s : State) (v : Word32) : (s.respond v).filla = s.filla := rfl
@[simp] theorem State.respond_pali (s : State) (v : Word32) : (s.respond v).pali = s.pali := rfl
@[simp] theorem State.respond_sr (s : State) (v : Word32) : (s.respond v).sr = s.sr := rfl
@[simp] theorem State.respond_nx (s : State) (v : Word32) : (s.respond v).nx = s.nx := rfl
@[simp] theorem State.respond_rsp (s : State) (v : Word32) : (s.respond v).rsp = v := rfl
@[simp] theorem State.respond_rspValid (s : State) (v : Word32) : (s.respond v).rspValid = true := rfl
@[simp] theorem State.respond_fb (s : State) (v : Word32) : (s.respond v).fb = s.fb := rfl
@[simp] theorem State.respond_palc (s : State) (v : Word32) : (s.respond v).palc = s.palc := rfl
@[simp] theorem State.respond_port (s : State) (v : Word32) : (s.respond v).port = 0 := rfl
@[simp] theorem State.respond_rngWait (s : State) (v : Word32) : (s.respond v).rngWait = s.rngWait := rfl
@[simp] theorem State.respond_palWait (s : State) (v : Word32) : (s.respond v).palWait = s.palWait := rfl
@[simp] theorem State.respond_wave (s : State) (v : Word32) : (s.respond v).wave = s.wave := rfl
@[simp] theorem State.respond_draws (s : State) (v : Word32) : (s.respond v).draws = s.draws := rfl
@[simp] theorem State.respond_palLog (s : State) (v : Word32) : (s.respond v).palLog = s.palLog := rfl
@[simp] theorem State.respond_resets (s : State) (v : Word32) : (s.respond v).resets = s.resets := rfl
@[simp] theorem State.respond_todo (s : State) (v : Word32) : (s.respond v).todo = s.todo := rfl
@[simp] theorem State.respond_rngScript (s : State) (v : Word32) : (s.respond v).rngScript = s.rngScript := rfl
@[simp] theorem State.respond_rngSilent (s : State) (v : Word32) : (s.respond v).rngSilent = s.rngSilent := rfl
@[simp] theorem State.respond_palSilent (s : State) (v : Word32) : (s.respond v).palSilent = s.palSilent := rfl

/-! `State.quiet` -/

@[simp] theorem State.quiet_cfg (s : State) : s.quiet.cfg = s.cfg := rfl
@[simp] theorem State.quiet_phase (s : State) : s.quiet.phase = s.phase := rfl
@[simp] theorem State.quiet_cmdr (s : State) : s.quiet.cmdr = s.cmdr := rfl
@[simp] theorem State.quiet_fbv (s : State) : s.quiet.fbv = s.fbv := rfl
@[simp] theorem State.quiet_palv (s : State) : s.quiet.palv = s.palv := rfl
@[simp] theorem State.quiet_errcode (s : State) : s.quiet.errcode = s.errcode := rfl
@[simp] theorem State.quiet_errinfo (s : State) : s.quiet.errinfo = s.errinfo := rfl
@[simp] theorem State.quiet_col (s : State) : s.quiet.col = s.col := rfl
@[simp] theorem State.quiet_cx (s : State) : s.quiet.cx = s.cx := rfl
@[simp] theorem State.quiet_cy (s : State) : s.quiet.cy = s.cy := rfl
@[simp] theorem State.quiet_c (s : State) : s.quiet.c = s.c := rfl
@[simp] theorem State.quiet_lf (s : State) : s.quiet.lf = s.lf := rfl
@[simp] theorem State.quiet_rt (s : State) : s.quiet.rt = s.rt := rfl
@[simp] theorem State.quiet_up (s : State) : s.quiet.up = s.up := rfl
@[simp] theorem State.quiet_dn (s : State) : s.quiet.dn = s.dn := rfl
@[simp] theorem State.quiet_acc (s : State) : s.quiet.acc = s.acc := rfl
@[simp] theorem State.quiet_pos (s : State) : s.quiet.pos = s.pos := rfl
@[simp] theorem State.quiet_bitk (s : State) : s.quiet.bitk = s.bitk := rfl
@[simp] theorem State.quiet_cyc (s : State) : s.quiet.cyc = s.cyc := rfl
@[simp] theorem State.quiet_pfc (s : State) : s.quiet.pfc = s.pfc := rfl
@[simp] theorem State.quiet_lcnt (s : State) : s.quiet.lcnt = s.lcnt := rfl
@[simp] theorem State.quiet_icnt (s : State) : s.quiet.icnt = s.icnt := rfl
@[simp] theorem State.quiet_filla (s : State) : s.quiet.filla = s.filla := rfl
@[simp] theorem State.quiet_pali (s : State) : s.quiet.pali = s.pali := rfl
@[simp] theorem State.quiet_sr (s : State) : s.quiet.sr = s.sr := rfl
@[simp] theorem State.quiet_nx (s : State) : s.quiet.nx = s.nx := rfl
@[simp] theorem State.quiet_rsp (s : State) : s.quiet.rsp = s.rsp := rfl
@[simp] theorem State.quiet_rspValid (s : State) : s.quiet.rspValid = false := rfl
@[simp] theorem State.quiet_fb (s : State) : s.quiet.fb = s.fb := rfl
@[simp] theorem State.quiet_palc (s : State) : s.quiet.palc = s.palc := rfl
@[simp] theorem State.quiet_port (s : State) : s.quiet.port = s.port := rfl
@[simp] theorem State.quiet_rngWait (s : State) : s.quiet.rngWait = s.rngWait := rfl
@[simp] theorem State.quiet_palWait (s : State) : s.quiet.palWait = s.palWait := rfl
@[simp] theorem State.quiet_wave (s : State) : s.quiet.wave = s.wave := rfl
@[simp] theorem State.quiet_draws (s : State) : s.quiet.draws = s.draws := rfl
@[simp] theorem State.quiet_palLog (s : State) : s.quiet.palLog = s.palLog := rfl
@[simp] theorem State.quiet_resets (s : State) : s.quiet.resets = s.resets := rfl
@[simp] theorem State.quiet_todo (s : State) : s.quiet.todo = s.todo := rfl
@[simp] theorem State.quiet_rngScript (s : State) : s.quiet.rngScript = s.rngScript := rfl
@[simp] theorem State.quiet_rngSilent (s : State) : s.quiet.rngSilent = s.rngSilent := rfl
@[simp] theorem State.quiet_palSilent (s : State) : s.quiet.palSilent = s.palSilent := rfl

/-! `State.raiseFault` -/

@[simp] theorem State.raiseFault_cfg (s : State) (e : ErrCode) (w : Word32) : (s.raiseFault e w).cfg = s.cfg := rfl
@[simp] theorem State.raiseFault_phase (s : State) (e : ErrCode) (w : Word32) : (s.raiseFault e w).phase = .halt := rfl
@[simp] theorem State.raiseFault_cmdr (s : State) (e : ErrCode) (w : Word32) : (s.raiseFault e w).cmdr = w := rfl
@[simp] theorem State.raiseFault_fbv (s : State) (e : ErrCode) (w : Word32) : (s.raiseFault e w).fbv = s.fbv := rfl
@[simp] theorem State.raiseFault_palv (s : State) (e : ErrCode) (w : Word32) : (s.raiseFault e w).palv = s.palv := rfl
@[simp] theorem State.raiseFault_errcode (s : State) (e : ErrCode) (w : Word32) : (s.raiseFault e w).errcode = e := rfl
@[simp] theorem State.raiseFault_errinfo (s : State) (e : ErrCode) (w : Word32) : (s.raiseFault e w).errinfo = w := rfl
@[simp] theorem State.raiseFault_col (s : State) (e : ErrCode) (w : Word32) : (s.raiseFault e w).col = s.col := rfl
@[simp] theorem State.raiseFault_cx (s : State) (e : ErrCode) (w : Word32) : (s.raiseFault e w).cx = s.cx := rfl
@[simp] theorem State.raiseFault_cy (s : State) (e : ErrCode) (w : Word32) : (s.raiseFault e w).cy = s.cy := rfl
@[simp] theorem State.raiseFault_c (s : State) (e : ErrCode) (w : Word32) : (s.raiseFault e w).c = s.c := rfl
@[simp] theorem State.raiseFault_lf (s : State) (e : ErrCode) (w : Word32) : (s.raiseFault e w).lf = s.lf := rfl
@[simp] theorem State.raiseFault_rt (s : State) (e : ErrCode) (w : Word32) : (s.raiseFault e w).rt = s.rt := rfl
@[simp] theorem State.raiseFault_up (s : State) (e : ErrCode) (w : Word32) : (s.raiseFault e w).up = s.up := rfl
@[simp] theorem State.raiseFault_dn (s : State) (e : ErrCode) (w : Word32) : (s.raiseFault e w).dn = s.dn := rfl
@[simp] theorem State.raiseFault_acc (s : State) (e : ErrCode) (w : Word32) : (s.raiseFault e w).acc = s.acc := rfl
@[simp] theorem State.raiseFault_pos (s : State) (e : ErrCode) (w : Word32) : (s.raiseFault e w).pos = s.pos := rfl
@[simp] theorem State.raiseFault_bitk (s : State) (e : ErrCode) (w : Word32) : (s.raiseFault e w).bitk = s.bitk := rfl
@[simp] theorem State.raiseFault_cyc (s : State) (e : ErrCode) (w : Word32) : (s.raiseFault e w).cyc = s.cyc := rfl
@[simp] theorem State.raiseFault_pfc (s : State) (e : ErrCode) (w : Word32) : (s.raiseFault e w).pfc = s.pfc := rfl
@[simp] theorem State.raiseFault_lcnt (s : State) (e : ErrCode) (w : Word32) : (s.raiseFault e w).lcnt = s.lcnt := rfl
@[simp] theorem State.raiseFault_icnt (s : State) (e : ErrCode) (w : Word32) : (s.raiseFault e w).icnt = s.icnt := rfl
@[simp] theorem State.raiseFault_filla (s : State) (e : ErrCode) (w : Word32) : (s.raiseFault e w).filla = s.filla := rfl
@[simp] theorem State.raiseFault_pali (s : State) (e : ErrCode) (w : Word32) : (s.raiseFault e w).pali = s.pali := rfl
@[simp] theorem State.raiseFault_sr (s : State) (e : ErrCode) (w : Word32) : (s.raiseFault e w).sr = s.sr := rfl
@[simp] theorem State.raiseFault_nx (s : State) (e : ErrCode) (w : Word32) : (s.raiseFault e w).nx = s.nx := rfl
@[simp] theorem State.raiseFault_rsp (s : State) (e : ErrCode) (w : Word32) : (s.raiseFault e w).rsp = s.rsp := rfl
@[simp] theorem State.raiseFault_rspValid (s : State) (e : ErrCode) (w : Word32) : (s.raiseFault e w).rspValid = false := rfl
@[simp] theorem State.raiseFault_fb (s : State) (e : ErrCode) (w : Word32) : (s.raiseFault e w).fb = s.fb := rfl
@[simp] theorem State.raiseFault_palc (s : State) (e : ErrCode) (w : Word32) : (s.raiseFault e w).palc = s.palc := rfl
@[simp] theorem State.raiseFault_port (s : State) (e : ErrCode) (w : Word32) : (s.raiseFault e w).port = 0 := rfl
@[simp] theorem State.raiseFault_rngWait (s : State) (e : ErrCode) (w : Word32) : (s.raiseFault e w).rngWait = s.rngWait := rfl
@[simp] theorem State.raiseFault_palWait (s : State) (e : ErrCode) (w : Word32) : (s.raiseFault e w).palWait = s.palWait := rfl
@[simp] theorem State.raiseFault_wave (s : State) (e : ErrCode) (w : Word32) : (s.raiseFault e w).wave = s.wave := rfl
@[simp] theorem State.raiseFault_draws (s : State) (e : ErrCode) (w : Word32) : (s.raiseFault e w).draws = s.draws := rfl
@[simp] theorem State.raiseFault_palLog (s : State) (e : ErrCode) (w : Word32) : (s.raiseFault e w).palLog = s.palLog := rfl
@[simp] theorem State.raiseFault_resets (s : State) (e : ErrCode) (w : Word32) : (s.raiseFault e w).resets = s.resets := rfl
@[simp] theorem State.raiseFault_todo (s : State) (e : ErrCode) (w : Word32) : (s.raiseFault e w).todo = s.todo := rfl
@[simp] theorem State.raiseFault_rngScript (s : State) (e : ErrCode) (w : Word32) : (s.raiseFault e w).rngScript = s.rngScript := rfl
@[simp] theorem State.raiseFault_rngSilent (s : State) (e : ErrCode) (w : Word32) : (s.raiseFault e w).rngSilent = s.rngSilent := rfl
@[simp] theorem State.raiseFault_palSilent (s : State) (e : ErrCode) (w : Word32) : (s.raiseFault e w).palSilent = s.palSilent := rfl

/-! `State.applyReset`: what is outside the block stays, the rest is `State.resetOf`. -/

@[simp] theorem State.applyReset_cfg (s : State) : s.applyReset.cfg = (State.resetOf s.cfg).cfg := rfl
@[simp] theorem State.applyReset_phase (s : State) : s.applyReset.phase = (State.resetOf s.cfg).phase := rfl
@[simp] theorem State.applyReset_cmdr (s : State) : s.applyReset.cmdr = (State.resetOf s.cfg).cmdr := rfl
@[simp] theorem State.applyReset_fbv (s : State) : s.applyReset.fbv = (State.resetOf s.cfg).fbv := rfl
@[simp] theorem State.applyReset_palv (s : State) : s.applyReset.palv = (State.resetOf s.cfg).palv := rfl
@[simp] theorem State.applyReset_errcode (s : State) : s.applyReset.errcode = (State.resetOf s.cfg).errcode := rfl
@[simp] theorem State.applyReset_errinfo (s : State) : s.applyReset.errinfo = (State.resetOf s.cfg).errinfo := rfl
@[simp] theorem State.applyReset_col (s : State) : s.applyReset.col = (State.resetOf s.cfg).col := rfl
@[simp] theorem State.applyReset_cx (s : State) : s.applyReset.cx = (State.resetOf s.cfg).cx := rfl
@[simp] theorem State.applyReset_cy (s : State) : s.applyReset.cy = (State.resetOf s.cfg).cy := rfl
@[simp] theorem State.applyReset_c (s : State) : s.applyReset.c = (State.resetOf s.cfg).c := rfl
@[simp] theorem State.applyReset_lf (s : State) : s.applyReset.lf = (State.resetOf s.cfg).lf := rfl
@[simp] theorem State.applyReset_rt (s : State) : s.applyReset.rt = (State.resetOf s.cfg).rt := rfl
@[simp] theorem State.applyReset_up (s : State) : s.applyReset.up = (State.resetOf s.cfg).up := rfl
@[simp] theorem State.applyReset_dn (s : State) : s.applyReset.dn = (State.resetOf s.cfg).dn := rfl
@[simp] theorem State.applyReset_acc (s : State) : s.applyReset.acc = (State.resetOf s.cfg).acc := rfl
@[simp] theorem State.applyReset_pos (s : State) : s.applyReset.pos = (State.resetOf s.cfg).pos := rfl
@[simp] theorem State.applyReset_bitk (s : State) : s.applyReset.bitk = (State.resetOf s.cfg).bitk := rfl
@[simp] theorem State.applyReset_cyc (s : State) : s.applyReset.cyc = (State.resetOf s.cfg).cyc := rfl
@[simp] theorem State.applyReset_pfc (s : State) : s.applyReset.pfc = (State.resetOf s.cfg).pfc := rfl
@[simp] theorem State.applyReset_lcnt (s : State) : s.applyReset.lcnt = (State.resetOf s.cfg).lcnt := rfl
@[simp] theorem State.applyReset_icnt (s : State) : s.applyReset.icnt = (State.resetOf s.cfg).icnt := rfl
@[simp] theorem State.applyReset_filla (s : State) : s.applyReset.filla = (State.resetOf s.cfg).filla := rfl
@[simp] theorem State.applyReset_pali (s : State) : s.applyReset.pali = (State.resetOf s.cfg).pali := rfl
@[simp] theorem State.applyReset_sr (s : State) : s.applyReset.sr = (State.resetOf s.cfg).sr := rfl
@[simp] theorem State.applyReset_nx (s : State) : s.applyReset.nx = (State.resetOf s.cfg).nx := rfl
@[simp] theorem State.applyReset_rsp (s : State) : s.applyReset.rsp = (State.resetOf s.cfg).rsp := rfl
@[simp] theorem State.applyReset_rspValid (s : State) : s.applyReset.rspValid = (State.resetOf s.cfg).rspValid := rfl
@[simp] theorem State.applyReset_fb (s : State) : s.applyReset.fb = (State.resetOf s.cfg).fb := rfl
@[simp] theorem State.applyReset_palc (s : State) : s.applyReset.palc = (State.resetOf s.cfg).palc := rfl
@[simp] theorem State.applyReset_port (s : State) : s.applyReset.port = (State.resetOf s.cfg).port := rfl
@[simp] theorem State.applyReset_rngWait (s : State) : s.applyReset.rngWait = (State.resetOf s.cfg).rngWait := rfl
@[simp] theorem State.applyReset_palWait (s : State) : s.applyReset.palWait = (State.resetOf s.cfg).palWait := rfl
@[simp] theorem State.applyReset_wave (s : State) : s.applyReset.wave = s.observe.wave := rfl
@[simp] theorem State.applyReset_draws (s : State) : s.applyReset.draws = s.draws := rfl
@[simp] theorem State.applyReset_palLog (s : State) : s.applyReset.palLog = s.palLog := rfl
@[simp] theorem State.applyReset_resets (s : State) : s.applyReset.resets = s.resets + 1 := rfl
@[simp] theorem State.applyReset_todo (s : State) : s.applyReset.todo = s.todo := rfl
@[simp] theorem State.applyReset_rngScript (s : State) : s.applyReset.rngScript = s.rngScript := rfl
@[simp] theorem State.applyReset_rngSilent (s : State) : s.applyReset.rngSilent = s.rngSilent := rfl
@[simp] theorem State.applyReset_palSilent (s : State) : s.applyReset.palSilent = s.palSilent := rfl

/-! `State.resetOf` -/

@[simp] theorem State.resetOf_cfg (cfg : Config) : (State.resetOf cfg).cfg = cfg := rfl
@[simp] theorem State.resetOf_phase (cfg : Config) : (State.resetOf cfg).phase = .idle := rfl
@[simp] theorem State.resetOf_cmdr (cfg : Config) : (State.resetOf cfg).cmdr = 0#32 := rfl
@[simp] theorem State.resetOf_fbv (cfg : Config) : (State.resetOf cfg).fbv = false := rfl
@[simp] theorem State.resetOf_palv (cfg : Config) : (State.resetOf cfg).palv = decide (cfg.palMode ≠ .ram) := rfl
@[simp] theorem State.resetOf_errcode (cfg : Config) : (State.resetOf cfg).errcode = .none := rfl
@[simp] theorem State.resetOf_errinfo (cfg : Config) : (State.resetOf cfg).errinfo = 0#32 := rfl
@[simp] theorem State.resetOf_port (cfg : Config) : (State.resetOf cfg).port = 0 := rfl
@[simp] theorem State.resetOf_rspValid (cfg : Config) : (State.resetOf cfg).rspValid = false := rfl
@[simp] theorem State.resetOf_fb (cfg : Config) : (State.resetOf cfg).fb = [] := rfl
@[simp] theorem State.resetOf_palc (cfg : Config) : (State.resetOf cfg).palc = [] := rfl
@[simp] theorem State.resetOf_sr (cfg : Config) : (State.resetOf cfg).sr = List.replicate cfg.n 0#24 := rfl
@[simp] theorem State.resetOf_nx (cfg : Config) : (State.resetOf cfg).nx = List.replicate cfg.n 0#24 := rfl
@[simp] theorem State.resetOf_wave (cfg : Config) : (State.resetOf cfg).wave = [] := rfl
@[simp] theorem State.resetOf_pos (cfg : Config) : (State.resetOf cfg).pos = 0 := rfl
@[simp] theorem State.resetOf_bitk (cfg : Config) : (State.resetOf cfg).bitk = 0 := rfl
@[simp] theorem State.resetOf_cyc (cfg : Config) : (State.resetOf cfg).cyc = 0 := rfl
@[simp] theorem State.resetOf_pfc (cfg : Config) : (State.resetOf cfg).pfc = 0 := rfl
@[simp] theorem State.resetOf_lcnt (cfg : Config) : (State.resetOf cfg).lcnt = 0 := rfl
@[simp] theorem State.resetOf_icnt (cfg : Config) : (State.resetOf cfg).icnt = 0 := rfl
@[simp] theorem State.resetOf_filla (cfg : Config) : (State.resetOf cfg).filla = 0 := rfl
@[simp] theorem State.resetOf_pali (cfg : Config) : (State.resetOf cfg).pali = 0 := rfl
@[simp] theorem State.resetOf_rngWait (cfg : Config) : (State.resetOf cfg).rngWait = false := rfl
@[simp] theorem State.resetOf_palWait (cfg : Config) : (State.resetOf cfg).palWait = false := rfl

/-! `State.enter`: the phase, and the fields no phase's start touches. -/

@[simp] theorem State.enter_phase (s : State) (p : Phase) : (s.enter p).phase = p := by cases p <;> rfl
@[simp] theorem State.enter_cfg (s : State) (p : Phase) : (s.enter p).cfg = s.cfg := by cases p <;> rfl
@[simp] theorem State.enter_cmdr (s : State) (p : Phase) : (s.enter p).cmdr = s.cmdr := by cases p <;> rfl
@[simp] theorem State.enter_fbv (s : State) (p : Phase) : (s.enter p).fbv = s.fbv := by cases p <;> rfl
@[simp] theorem State.enter_palv (s : State) (p : Phase) : (s.enter p).palv = s.palv := by cases p <;> rfl
@[simp] theorem State.enter_errcode (s : State) (p : Phase) : (s.enter p).errcode = s.errcode := by cases p <;> rfl
@[simp] theorem State.enter_errinfo (s : State) (p : Phase) : (s.enter p).errinfo = s.errinfo := by cases p <;> rfl
@[simp] theorem State.enter_col (s : State) (p : Phase) : (s.enter p).col = s.col := by cases p <;> rfl
@[simp] theorem State.enter_c (s : State) (p : Phase) : (s.enter p).c = s.c := by cases p <;> rfl
@[simp] theorem State.enter_lf (s : State) (p : Phase) : (s.enter p).lf = s.lf := by cases p <;> rfl
@[simp] theorem State.enter_rt (s : State) (p : Phase) : (s.enter p).rt = s.rt := by cases p <;> rfl
@[simp] theorem State.enter_up (s : State) (p : Phase) : (s.enter p).up = s.up := by cases p <;> rfl
@[simp] theorem State.enter_dn (s : State) (p : Phase) : (s.enter p).dn = s.dn := by cases p <;> rfl
@[simp] theorem State.enter_acc (s : State) (p : Phase) : (s.enter p).acc = s.acc := by cases p <;> rfl
@[simp] theorem State.enter_nx (s : State) (p : Phase) : (s.enter p).nx = s.nx := by cases p <;> rfl
@[simp] theorem State.enter_rsp (s : State) (p : Phase) : (s.enter p).rsp = s.rsp := by cases p <;> rfl
@[simp] theorem State.enter_rspValid (s : State) (p : Phase) : (s.enter p).rspValid = s.rspValid := by cases p <;> rfl
@[simp] theorem State.enter_fb (s : State) (p : Phase) : (s.enter p).fb = s.fb := by cases p <;> rfl
@[simp] theorem State.enter_palc (s : State) (p : Phase) : (s.enter p).palc = s.palc := by cases p <;> rfl
@[simp] theorem State.enter_draws (s : State) (p : Phase) : (s.enter p).draws = s.draws := by cases p <;> rfl
@[simp] theorem State.enter_palLog (s : State) (p : Phase) : (s.enter p).palLog = s.palLog := by cases p <;> rfl
@[simp] theorem State.enter_resets (s : State) (p : Phase) : (s.enter p).resets = s.resets := by cases p <;> rfl
@[simp] theorem State.enter_todo (s : State) (p : Phase) : (s.enter p).todo = s.todo := by cases p <;> rfl
@[simp] theorem State.enter_rngScript (s : State) (p : Phase) : (s.enter p).rngScript = s.rngScript := by cases p <;> rfl
@[simp] theorem State.enter_rngSilent (s : State) (p : Phase) : (s.enter p).rngSilent = s.rngSilent := by cases p <;> rfl
@[simp] theorem State.enter_palSilent (s : State) (p : Phase) : (s.enter p).palSilent = s.palSilent := by cases p <;> rfl

/-! `State.observe`: only the record. -/

@[simp] theorem State.observe_cfg (s : State) : s.observe.cfg = s.cfg := by unfold State.observe; split <;> rfl
@[simp] theorem State.observe_phase (s : State) : s.observe.phase = s.phase := by unfold State.observe; split <;> rfl
@[simp] theorem State.observe_cmdr (s : State) : s.observe.cmdr = s.cmdr := by unfold State.observe; split <;> rfl
@[simp] theorem State.observe_fbv (s : State) : s.observe.fbv = s.fbv := by unfold State.observe; split <;> rfl
@[simp] theorem State.observe_palv (s : State) : s.observe.palv = s.palv := by unfold State.observe; split <;> rfl
@[simp] theorem State.observe_errcode (s : State) : s.observe.errcode = s.errcode := by unfold State.observe; split <;> rfl
@[simp] theorem State.observe_errinfo (s : State) : s.observe.errinfo = s.errinfo := by unfold State.observe; split <;> rfl
@[simp] theorem State.observe_col (s : State) : s.observe.col = s.col := by unfold State.observe; split <;> rfl
@[simp] theorem State.observe_cx (s : State) : s.observe.cx = s.cx := by unfold State.observe; split <;> rfl
@[simp] theorem State.observe_cy (s : State) : s.observe.cy = s.cy := by unfold State.observe; split <;> rfl
@[simp] theorem State.observe_c (s : State) : s.observe.c = s.c := by unfold State.observe; split <;> rfl
@[simp] theorem State.observe_lf (s : State) : s.observe.lf = s.lf := by unfold State.observe; split <;> rfl
@[simp] theorem State.observe_rt (s : State) : s.observe.rt = s.rt := by unfold State.observe; split <;> rfl
@[simp] theorem State.observe_up (s : State) : s.observe.up = s.up := by unfold State.observe; split <;> rfl
@[simp] theorem State.observe_dn (s : State) : s.observe.dn = s.dn := by unfold State.observe; split <;> rfl
@[simp] theorem State.observe_acc (s : State) : s.observe.acc = s.acc := by unfold State.observe; split <;> rfl
@[simp] theorem State.observe_pos (s : State) : s.observe.pos = s.pos := by unfold State.observe; split <;> rfl
@[simp] theorem State.observe_bitk (s : State) : s.observe.bitk = s.bitk := by unfold State.observe; split <;> rfl
@[simp] theorem State.observe_cyc (s : State) : s.observe.cyc = s.cyc := by unfold State.observe; split <;> rfl
@[simp] theorem State.observe_pfc (s : State) : s.observe.pfc = s.pfc := by unfold State.observe; split <;> rfl
@[simp] theorem State.observe_lcnt (s : State) : s.observe.lcnt = s.lcnt := by unfold State.observe; split <;> rfl
@[simp] theorem State.observe_icnt (s : State) : s.observe.icnt = s.icnt := by unfold State.observe; split <;> rfl
@[simp] theorem State.observe_filla (s : State) : s.observe.filla = s.filla := by unfold State.observe; split <;> rfl
@[simp] theorem State.observe_pali (s : State) : s.observe.pali = s.pali := by unfold State.observe; split <;> rfl
@[simp] theorem State.observe_sr (s : State) : s.observe.sr = s.sr := by unfold State.observe; split <;> rfl
@[simp] theorem State.observe_nx (s : State) : s.observe.nx = s.nx := by unfold State.observe; split <;> rfl
@[simp] theorem State.observe_rsp (s : State) : s.observe.rsp = s.rsp := by unfold State.observe; split <;> rfl
@[simp] theorem State.observe_rspValid (s : State) : s.observe.rspValid = s.rspValid := by unfold State.observe; split <;> rfl
@[simp] theorem State.observe_fb (s : State) : s.observe.fb = s.fb := by unfold State.observe; split <;> rfl
@[simp] theorem State.observe_palc (s : State) : s.observe.palc = s.palc := by unfold State.observe; split <;> rfl
@[simp] theorem State.observe_port (s : State) : s.observe.port = s.port := by unfold State.observe; split <;> rfl
@[simp] theorem State.observe_rngWait (s : State) : s.observe.rngWait = s.rngWait := by unfold State.observe; split <;> rfl
@[simp] theorem State.observe_palWait (s : State) : s.observe.palWait = s.palWait := by unfold State.observe; split <;> rfl
@[simp] theorem State.observe_draws (s : State) : s.observe.draws = s.draws := by unfold State.observe; split <;> rfl
@[simp] theorem State.observe_palLog (s : State) : s.observe.palLog = s.palLog := by unfold State.observe; split <;> rfl
@[simp] theorem State.observe_resets (s : State) : s.observe.resets = s.resets := by unfold State.observe; split <;> rfl
@[simp] theorem State.observe_todo (s : State) : s.observe.todo = s.todo := by unfold State.observe; split <;> rfl
@[simp] theorem State.observe_rngScript (s : State) : s.observe.rngScript = s.rngScript := by unfold State.observe; split <;> rfl
@[simp] theorem State.observe_rngSilent (s : State) : s.observe.rngSilent = s.rngSilent := by unfold State.observe; split <;> rfl
@[simp] theorem State.observe_palSilent (s : State) : s.observe.palSilent = s.palSilent := by unfold State.observe; split <;> rfl

/-! `State.setTodo` -/

@[simp] theorem State.setTodo_cfg (s : State) (l : List HostAct) : (s.setTodo l).cfg = s.cfg := rfl
@[simp] theorem State.setTodo_phase (s : State) (l : List HostAct) : (s.setTodo l).phase = s.phase := rfl
@[simp] theorem State.setTodo_cmdr (s : State) (l : List HostAct) : (s.setTodo l).cmdr = s.cmdr := rfl
@[simp] theorem State.setTodo_fbv (s : State) (l : List HostAct) : (s.setTodo l).fbv = s.fbv := rfl
@[simp] theorem State.setTodo_palv (s : State) (l : List HostAct) : (s.setTodo l).palv = s.palv := rfl
@[simp] theorem State.setTodo_errcode (s : State) (l : List HostAct) : (s.setTodo l).errcode = s.errcode := rfl
@[simp] theorem State.setTodo_errinfo (s : State) (l : List HostAct) : (s.setTodo l).errinfo = s.errinfo := rfl
@[simp] theorem State.setTodo_col (s : State) (l : List HostAct) : (s.setTodo l).col = s.col := rfl
@[simp] theorem State.setTodo_cx (s : State) (l : List HostAct) : (s.setTodo l).cx = s.cx := rfl
@[simp] theorem State.setTodo_cy (s : State) (l : List HostAct) : (s.setTodo l).cy = s.cy := rfl
@[simp] theorem State.setTodo_c (s : State) (l : List HostAct) : (s.setTodo l).c = s.c := rfl
@[simp] theorem State.setTodo_lf (s : State) (l : List HostAct) : (s.setTodo l).lf = s.lf := rfl
@[simp] theorem State.setTodo_rt (s : State) (l : List HostAct) : (s.setTodo l).rt = s.rt := rfl
@[simp] theorem State.setTodo_up (s : State) (l : List HostAct) : (s.setTodo l).up = s.up := rfl
@[simp] theorem State.setTodo_dn (s : State) (l : List HostAct) : (s.setTodo l).dn = s.dn := rfl
@[simp] theorem State.setTodo_acc (s : State) (l : List HostAct) : (s.setTodo l).acc = s.acc := rfl
@[simp] theorem State.setTodo_pos (s : State) (l : List HostAct) : (s.setTodo l).pos = s.pos := rfl
@[simp] theorem State.setTodo_bitk (s : State) (l : List HostAct) : (s.setTodo l).bitk = s.bitk := rfl
@[simp] theorem State.setTodo_cyc (s : State) (l : List HostAct) : (s.setTodo l).cyc = s.cyc := rfl
@[simp] theorem State.setTodo_pfc (s : State) (l : List HostAct) : (s.setTodo l).pfc = s.pfc := rfl
@[simp] theorem State.setTodo_lcnt (s : State) (l : List HostAct) : (s.setTodo l).lcnt = s.lcnt := rfl
@[simp] theorem State.setTodo_icnt (s : State) (l : List HostAct) : (s.setTodo l).icnt = s.icnt := rfl
@[simp] theorem State.setTodo_filla (s : State) (l : List HostAct) : (s.setTodo l).filla = s.filla := rfl
@[simp] theorem State.setTodo_pali (s : State) (l : List HostAct) : (s.setTodo l).pali = s.pali := rfl
@[simp] theorem State.setTodo_sr (s : State) (l : List HostAct) : (s.setTodo l).sr = s.sr := rfl
@[simp] theorem State.setTodo_nx (s : State) (l : List HostAct) : (s.setTodo l).nx = s.nx := rfl
@[simp] theorem State.setTodo_rsp (s : State) (l : List HostAct) : (s.setTodo l).rsp = s.rsp := rfl
@[simp] theorem State.setTodo_rspValid (s : State) (l : List HostAct) : (s.setTodo l).rspValid = s.rspValid := rfl
@[simp] theorem State.setTodo_fb (s : State) (l : List HostAct) : (s.setTodo l).fb = s.fb := rfl
@[simp] theorem State.setTodo_palc (s : State) (l : List HostAct) : (s.setTodo l).palc = s.palc := rfl
@[simp] theorem State.setTodo_port (s : State) (l : List HostAct) : (s.setTodo l).port = s.port := rfl
@[simp] theorem State.setTodo_rngWait (s : State) (l : List HostAct) : (s.setTodo l).rngWait = s.rngWait := rfl
@[simp] theorem State.setTodo_palWait (s : State) (l : List HostAct) : (s.setTodo l).palWait = s.palWait := rfl
@[simp] theorem State.setTodo_wave (s : State) (l : List HostAct) : (s.setTodo l).wave = s.wave := rfl
@[simp] theorem State.setTodo_draws (s : State) (l : List HostAct) : (s.setTodo l).draws = s.draws := rfl
@[simp] theorem State.setTodo_palLog (s : State) (l : List HostAct) : (s.setTodo l).palLog = s.palLog := rfl
@[simp] theorem State.setTodo_resets (s : State) (l : List HostAct) : (s.setTodo l).resets = s.resets := rfl
@[simp] theorem State.setTodo_todo (s : State) (l : List HostAct) : (s.setTodo l).todo = l := rfl
@[simp] theorem State.setTodo_rngScript (s : State) (l : List HostAct) : (s.setTodo l).rngScript = s.rngScript := rfl
@[simp] theorem State.setTodo_rngSilent (s : State) (l : List HostAct) : (s.setTodo l).rngSilent = s.rngSilent := rfl
@[simp] theorem State.setTodo_palSilent (s : State) (l : List HostAct) : (s.setTodo l).palSilent = s.palSilent := rfl

/-! `State.setFbv` -/

@[simp] theorem State.setFbv_cfg (s : State) : s.setFbv.cfg = s.cfg := rfl
@[simp] theorem State.setFbv_phase (s : State) : s.setFbv.phase = s.phase := rfl
@[simp] theorem State.setFbv_cmdr (s : State) : s.setFbv.cmdr = s.cmdr := rfl
@[simp] theorem State.setFbv_fbv (s : State) : s.setFbv.fbv = true := rfl
@[simp] theorem State.setFbv_palv (s : State) : s.setFbv.palv = s.palv := rfl
@[simp] theorem State.setFbv_errcode (s : State) : s.setFbv.errcode = s.errcode := rfl
@[simp] theorem State.setFbv_errinfo (s : State) : s.setFbv.errinfo = s.errinfo := rfl
@[simp] theorem State.setFbv_col (s : State) : s.setFbv.col = s.col := rfl
@[simp] theorem State.setFbv_cx (s : State) : s.setFbv.cx = s.cx := rfl
@[simp] theorem State.setFbv_cy (s : State) : s.setFbv.cy = s.cy := rfl
@[simp] theorem State.setFbv_c (s : State) : s.setFbv.c = s.c := rfl
@[simp] theorem State.setFbv_lf (s : State) : s.setFbv.lf = s.lf := rfl
@[simp] theorem State.setFbv_rt (s : State) : s.setFbv.rt = s.rt := rfl
@[simp] theorem State.setFbv_up (s : State) : s.setFbv.up = s.up := rfl
@[simp] theorem State.setFbv_dn (s : State) : s.setFbv.dn = s.dn := rfl
@[simp] theorem State.setFbv_acc (s : State) : s.setFbv.acc = s.acc := rfl
@[simp] theorem State.setFbv_pos (s : State) : s.setFbv.pos = s.pos := rfl
@[simp] theorem State.setFbv_bitk (s : State) : s.setFbv.bitk = s.bitk := rfl
@[simp] theorem State.setFbv_cyc (s : State) : s.setFbv.cyc = s.cyc := rfl
@[simp] theorem State.setFbv_pfc (s : State) : s.setFbv.pfc = s.pfc := rfl
@[simp] theorem State.setFbv_lcnt (s : State) : s.setFbv.lcnt = s.lcnt := rfl
@[simp] theorem State.setFbv_icnt (s : State) : s.setFbv.icnt = s.icnt := rfl
@[simp] theorem State.setFbv_filla (s : State) : s.setFbv.filla = s.filla := rfl
@[simp] theorem State.setFbv_pali (s : State) : s.setFbv.pali = s.pali := rfl
@[simp] theorem State.setFbv_sr (s : State) : s.setFbv.sr = s.sr := rfl
@[simp] theorem State.setFbv_nx (s : State) : s.setFbv.nx = s.nx := rfl
@[simp] theorem State.setFbv_rsp (s : State) : s.setFbv.rsp = s.rsp := rfl
@[simp] theorem State.setFbv_rspValid (s : State) : s.setFbv.rspValid = s.rspValid := rfl
@[simp] theorem State.setFbv_fb (s : State) : s.setFbv.fb = s.fb := rfl
@[simp] theorem State.setFbv_palc (s : State) : s.setFbv.palc = s.palc := rfl
@[simp] theorem State.setFbv_port (s : State) : s.setFbv.port = s.port := rfl
@[simp] theorem State.setFbv_rngWait (s : State) : s.setFbv.rngWait = s.rngWait := rfl
@[simp] theorem State.setFbv_palWait (s : State) : s.setFbv.palWait = s.palWait := rfl
@[simp] theorem State.setFbv_wave (s : State) : s.setFbv.wave = s.wave := rfl
@[simp] theorem State.setFbv_draws (s : State) : s.setFbv.draws = s.draws := rfl
@[simp] theorem State.setFbv_palLog (s : State) : s.setFbv.palLog = s.palLog := rfl
@[simp] theorem State.setFbv_resets (s : State) : s.setFbv.resets = s.resets := rfl
@[simp] theorem State.setFbv_todo (s : State) : s.setFbv.todo = s.todo := rfl
@[simp] theorem State.setFbv_rngScript (s : State) : s.setFbv.rngScript = s.rngScript := rfl
@[simp] theorem State.setFbv_rngSilent (s : State) : s.setFbv.rngSilent = s.rngSilent := rfl
@[simp] theorem State.setFbv_palSilent (s : State) : s.setFbv.palSilent = s.palSilent := rfl

/-! `State.setPalv` -/

@[simp] theorem State.setPalv_cfg (s : State) : s.setPalv.cfg = s.cfg := rfl
@[simp] theorem State.setPalv_phase (s : State) : s.setPalv.phase = s.phase := rfl
@[simp] theorem State.setPalv_cmdr (s : State) : s.setPalv.cmdr = s.cmdr := rfl
@[simp] theorem State.setPalv_fbv (s : State) : s.setPalv.fbv = s.fbv := rfl
@[simp] theorem State.setPalv_palv (s : State) : s.setPalv.palv = true := rfl
@[simp] theorem State.setPalv_errcode (s : State) : s.setPalv.errcode = s.errcode := rfl
@[simp] theorem State.setPalv_errinfo (s : State) : s.setPalv.errinfo = s.errinfo := rfl
@[simp] theorem State.setPalv_col (s : State) : s.setPalv.col = s.col := rfl
@[simp] theorem State.setPalv_cx (s : State) : s.setPalv.cx = s.cx := rfl
@[simp] theorem State.setPalv_cy (s : State) : s.setPalv.cy = s.cy := rfl
@[simp] theorem State.setPalv_c (s : State) : s.setPalv.c = s.c := rfl
@[simp] theorem State.setPalv_lf (s : State) : s.setPalv.lf = s.lf := rfl
@[simp] theorem State.setPalv_rt (s : State) : s.setPalv.rt = s.rt := rfl
@[simp] theorem State.setPalv_up (s : State) : s.setPalv.up = s.up := rfl
@[simp] theorem State.setPalv_dn (s : State) : s.setPalv.dn = s.dn := rfl
@[simp] theorem State.setPalv_acc (s : State) : s.setPalv.acc = s.acc := rfl
@[simp] theorem State.setPalv_pos (s : State) : s.setPalv.pos = s.pos := rfl
@[simp] theorem State.setPalv_bitk (s : State) : s.setPalv.bitk = s.bitk := rfl
@[simp] theorem State.setPalv_cyc (s : State) : s.setPalv.cyc = s.cyc := rfl
@[simp] theorem State.setPalv_pfc (s : State) : s.setPalv.pfc = s.pfc := rfl
@[simp] theorem State.setPalv_lcnt (s : State) : s.setPalv.lcnt = s.lcnt := rfl
@[simp] theorem State.setPalv_icnt (s : State) : s.setPalv.icnt = s.icnt := rfl
@[simp] theorem State.setPalv_filla (s : State) : s.setPalv.filla = s.filla := rfl
@[simp] theorem State.setPalv_pali (s : State) : s.setPalv.pali = s.pali := rfl
@[simp] theorem State.setPalv_sr (s : State) : s.setPalv.sr = s.sr := rfl
@[simp] theorem State.setPalv_nx (s : State) : s.setPalv.nx = s.nx := rfl
@[simp] theorem State.setPalv_rsp (s : State) : s.setPalv.rsp = s.rsp := rfl
@[simp] theorem State.setPalv_rspValid (s : State) : s.setPalv.rspValid = s.rspValid := rfl
@[simp] theorem State.setPalv_fb (s : State) : s.setPalv.fb = s.fb := rfl
@[simp] theorem State.setPalv_palc (s : State) : s.setPalv.palc = s.palc := rfl
@[simp] theorem State.setPalv_port (s : State) : s.setPalv.port = s.port := rfl
@[simp] theorem State.setPalv_rngWait (s : State) : s.setPalv.rngWait = s.rngWait := rfl
@[simp] theorem State.setPalv_palWait (s : State) : s.setPalv.palWait = s.palWait := rfl
@[simp] theorem State.setPalv_wave (s : State) : s.setPalv.wave = s.wave := rfl
@[simp] theorem State.setPalv_draws (s : State) : s.setPalv.draws = s.draws := rfl
@[simp] theorem State.setPalv_palLog (s : State) : s.setPalv.palLog = s.palLog := rfl
@[simp] theorem State.setPalv_resets (s : State) : s.setPalv.resets = s.resets := rfl
@[simp] theorem State.setPalv_todo (s : State) : s.setPalv.todo = s.todo := rfl
@[simp] theorem State.setPalv_rngScript (s : State) : s.setPalv.rngScript = s.rngScript := rfl
@[simp] theorem State.setPalv_rngSilent (s : State) : s.setPalv.rngSilent = s.rngSilent := rfl
@[simp] theorem State.setPalv_palSilent (s : State) : s.setPalv.palSilent = s.palSilent := rfl

/-! `State.setLcnt` -/

@[simp] theorem State.setLcnt_cfg (s : State) (n : Nat) : (s.setLcnt n).cfg = s.cfg := rfl
@[simp] theorem State.setLcnt_phase (s : State) (n : Nat) : (s.setLcnt n).phase = s.phase := rfl
@[simp] theorem State.setLcnt_cmdr (s : State) (n : Nat) : (s.setLcnt n).cmdr = s.cmdr := rfl
@[simp] theorem State.setLcnt_fbv (s : State) (n : Nat) : (s.setLcnt n).fbv = s.fbv := rfl
@[simp] theorem State.setLcnt_palv (s : State) (n : Nat) : (s.setLcnt n).palv = s.palv := rfl
@[simp] theorem State.setLcnt_errcode (s : State) (n : Nat) : (s.setLcnt n).errcode = s.errcode := rfl
@[simp] theorem State.setLcnt_errinfo (s : State) (n : Nat) : (s.setLcnt n).errinfo = s.errinfo := rfl
@[simp] theorem State.setLcnt_col (s : State) (n : Nat) : (s.setLcnt n).col = s.col := rfl
@[simp] theorem State.setLcnt_cx (s : State) (n : Nat) : (s.setLcnt n).cx = s.cx := rfl
@[simp] theorem State.setLcnt_cy (s : State) (n : Nat) : (s.setLcnt n).cy = s.cy := rfl
@[simp] theorem State.setLcnt_c (s : State) (n : Nat) : (s.setLcnt n).c = s.c := rfl
@[simp] theorem State.setLcnt_lf (s : State) (n : Nat) : (s.setLcnt n).lf = s.lf := rfl
@[simp] theorem State.setLcnt_rt (s : State) (n : Nat) : (s.setLcnt n).rt = s.rt := rfl
@[simp] theorem State.setLcnt_up (s : State) (n : Nat) : (s.setLcnt n).up = s.up := rfl
@[simp] theorem State.setLcnt_dn (s : State) (n : Nat) : (s.setLcnt n).dn = s.dn := rfl
@[simp] theorem State.setLcnt_acc (s : State) (n : Nat) : (s.setLcnt n).acc = s.acc := rfl
@[simp] theorem State.setLcnt_pos (s : State) (n : Nat) : (s.setLcnt n).pos = s.pos := rfl
@[simp] theorem State.setLcnt_bitk (s : State) (n : Nat) : (s.setLcnt n).bitk = s.bitk := rfl
@[simp] theorem State.setLcnt_cyc (s : State) (n : Nat) : (s.setLcnt n).cyc = s.cyc := rfl
@[simp] theorem State.setLcnt_pfc (s : State) (n : Nat) : (s.setLcnt n).pfc = s.pfc := rfl
@[simp] theorem State.setLcnt_lcnt (s : State) (n : Nat) : (s.setLcnt n).lcnt = n := rfl
@[simp] theorem State.setLcnt_icnt (s : State) (n : Nat) : (s.setLcnt n).icnt = s.icnt := rfl
@[simp] theorem State.setLcnt_filla (s : State) (n : Nat) : (s.setLcnt n).filla = s.filla := rfl
@[simp] theorem State.setLcnt_pali (s : State) (n : Nat) : (s.setLcnt n).pali = s.pali := rfl
@[simp] theorem State.setLcnt_sr (s : State) (n : Nat) : (s.setLcnt n).sr = s.sr := rfl
@[simp] theorem State.setLcnt_nx (s : State) (n : Nat) : (s.setLcnt n).nx = s.nx := rfl
@[simp] theorem State.setLcnt_rsp (s : State) (n : Nat) : (s.setLcnt n).rsp = s.rsp := rfl
@[simp] theorem State.setLcnt_rspValid (s : State) (n : Nat) : (s.setLcnt n).rspValid = s.rspValid := rfl
@[simp] theorem State.setLcnt_fb (s : State) (n : Nat) : (s.setLcnt n).fb = s.fb := rfl
@[simp] theorem State.setLcnt_palc (s : State) (n : Nat) : (s.setLcnt n).palc = s.palc := rfl
@[simp] theorem State.setLcnt_port (s : State) (n : Nat) : (s.setLcnt n).port = s.port := rfl
@[simp] theorem State.setLcnt_rngWait (s : State) (n : Nat) : (s.setLcnt n).rngWait = s.rngWait := rfl
@[simp] theorem State.setLcnt_palWait (s : State) (n : Nat) : (s.setLcnt n).palWait = s.palWait := rfl
@[simp] theorem State.setLcnt_wave (s : State) (n : Nat) : (s.setLcnt n).wave = s.wave := rfl
@[simp] theorem State.setLcnt_draws (s : State) (n : Nat) : (s.setLcnt n).draws = s.draws := rfl
@[simp] theorem State.setLcnt_palLog (s : State) (n : Nat) : (s.setLcnt n).palLog = s.palLog := rfl
@[simp] theorem State.setLcnt_resets (s : State) (n : Nat) : (s.setLcnt n).resets = s.resets := rfl
@[simp] theorem State.setLcnt_todo (s : State) (n : Nat) : (s.setLcnt n).todo = s.todo := rfl
@[simp] theorem State.setLcnt_rngScript (s : State) (n : Nat) : (s.setLcnt n).rngScript = s.rngScript := rfl
@[simp] theorem State.setLcnt_rngSilent (s : State) (n : Nat) : (s.setLcnt n).rngSilent = s.rngSilent := rfl
@[simp] theorem State.setLcnt_palSilent (s : State) (n : Nat) : (s.setLcnt n).palSilent = s.palSilent := rfl

/-! `State.setIcnt` -/

@[simp] theorem State.setIcnt_cfg (s : State) (n : Nat) : (s.setIcnt n).cfg = s.cfg := rfl
@[simp] theorem State.setIcnt_phase (s : State) (n : Nat) : (s.setIcnt n).phase = s.phase := rfl
@[simp] theorem State.setIcnt_cmdr (s : State) (n : Nat) : (s.setIcnt n).cmdr = s.cmdr := rfl
@[simp] theorem State.setIcnt_fbv (s : State) (n : Nat) : (s.setIcnt n).fbv = s.fbv := rfl
@[simp] theorem State.setIcnt_palv (s : State) (n : Nat) : (s.setIcnt n).palv = s.palv := rfl
@[simp] theorem State.setIcnt_errcode (s : State) (n : Nat) : (s.setIcnt n).errcode = s.errcode := rfl
@[simp] theorem State.setIcnt_errinfo (s : State) (n : Nat) : (s.setIcnt n).errinfo = s.errinfo := rfl
@[simp] theorem State.setIcnt_col (s : State) (n : Nat) : (s.setIcnt n).col = s.col := rfl
@[simp] theorem State.setIcnt_cx (s : State) (n : Nat) : (s.setIcnt n).cx = s.cx := rfl
@[simp] theorem State.setIcnt_cy (s : State) (n : Nat) : (s.setIcnt n).cy = s.cy := rfl
@[simp] theorem State.setIcnt_c (s : State) (n : Nat) : (s.setIcnt n).c = s.c := rfl
@[simp] theorem State.setIcnt_lf (s : State) (n : Nat) : (s.setIcnt n).lf = s.lf := rfl
@[simp] theorem State.setIcnt_rt (s : State) (n : Nat) : (s.setIcnt n).rt = s.rt := rfl
@[simp] theorem State.setIcnt_up (s : State) (n : Nat) : (s.setIcnt n).up = s.up := rfl
@[simp] theorem State.setIcnt_dn (s : State) (n : Nat) : (s.setIcnt n).dn = s.dn := rfl
@[simp] theorem State.setIcnt_acc (s : State) (n : Nat) : (s.setIcnt n).acc = s.acc := rfl
@[simp] theorem State.setIcnt_pos (s : State) (n : Nat) : (s.setIcnt n).pos = s.pos := rfl
@[simp] theorem State.setIcnt_bitk (s : State) (n : Nat) : (s.setIcnt n).bitk = s.bitk := rfl
@[simp] theorem State.setIcnt_cyc (s : State) (n : Nat) : (s.setIcnt n).cyc = s.cyc := rfl
@[simp] theorem State.setIcnt_pfc (s : State) (n : Nat) : (s.setIcnt n).pfc = s.pfc := rfl
@[simp] theorem State.setIcnt_lcnt (s : State) (n : Nat) : (s.setIcnt n).lcnt = s.lcnt := rfl
@[simp] theorem State.setIcnt_icnt (s : State) (n : Nat) : (s.setIcnt n).icnt = n := rfl
@[simp] theorem State.setIcnt_filla (s : State) (n : Nat) : (s.setIcnt n).filla = s.filla := rfl
@[simp] theorem State.setIcnt_pali (s : State) (n : Nat) : (s.setIcnt n).pali = s.pali := rfl
@[simp] theorem State.setIcnt_sr (s : State) (n : Nat) : (s.setIcnt n).sr = s.sr := rfl
@[simp] theorem State.setIcnt_nx (s : State) (n : Nat) : (s.setIcnt n).nx = s.nx := rfl
@[simp] theorem State.setIcnt_rsp (s : State) (n : Nat) : (s.setIcnt n).rsp = s.rsp := rfl
@[simp] theorem State.setIcnt_rspValid (s : State) (n : Nat) : (s.setIcnt n).rspValid = s.rspValid := rfl
@[simp] theorem State.setIcnt_fb (s : State) (n : Nat) : (s.setIcnt n).fb = s.fb := rfl
@[simp] theorem State.setIcnt_palc (s : State) (n : Nat) : (s.setIcnt n).palc = s.palc := rfl
@[simp] theorem State.setIcnt_port (s : State) (n : Nat) : (s.setIcnt n).port = s.port := rfl
@[simp] theorem State.setIcnt_rngWait (s : State) (n : Nat) : (s.setIcnt n).rngWait = s.rngWait := rfl
@[simp] theorem State.setIcnt_palWait (s : State) (n : Nat) : (s.setIcnt n).palWait = s.palWait := rfl
@[simp] theorem State.setIcnt_wave (s : State) (n : Nat) : (s.setIcnt n).wave = s.wave := rfl
@[simp] theorem State.setIcnt_draws (s : State) (n : Nat) : (s.setIcnt n).draws = s.draws := rfl
@[simp] theorem State.setIcnt_palLog (s : State) (n : Nat) : (s.setIcnt n).palLog = s.palLog := rfl
@[simp] theorem State.setIcnt_resets (s : State) (n : Nat) : (s.setIcnt n).resets = s.resets := rfl
@[simp] theorem State.setIcnt_todo (s : State) (n : Nat) : (s.setIcnt n).todo = s.todo := rfl
@[simp] theorem State.setIcnt_rngScript (s : State) (n : Nat) : (s.setIcnt n).rngScript = s.rngScript := rfl
@[simp] theorem State.setIcnt_rngSilent (s : State) (n : Nat) : (s.setIcnt n).rngSilent = s.rngSilent := rfl
@[simp] theorem State.setIcnt_palSilent (s : State) (n : Nat) : (s.setIcnt n).palSilent = s.palSilent := rfl

/-! `State.setPlace` -/

@[simp] theorem State.setPlace_cfg (s : State) (k j : Nat) : (s.setPlace k j).cfg = s.cfg := rfl
@[simp] theorem State.setPlace_phase (s : State) (k j : Nat) : (s.setPlace k j).phase = s.phase := rfl
@[simp] theorem State.setPlace_cmdr (s : State) (k j : Nat) : (s.setPlace k j).cmdr = s.cmdr := rfl
@[simp] theorem State.setPlace_fbv (s : State) (k j : Nat) : (s.setPlace k j).fbv = s.fbv := rfl
@[simp] theorem State.setPlace_palv (s : State) (k j : Nat) : (s.setPlace k j).palv = s.palv := rfl
@[simp] theorem State.setPlace_errcode (s : State) (k j : Nat) : (s.setPlace k j).errcode = s.errcode := rfl
@[simp] theorem State.setPlace_errinfo (s : State) (k j : Nat) : (s.setPlace k j).errinfo = s.errinfo := rfl
@[simp] theorem State.setPlace_col (s : State) (k j : Nat) : (s.setPlace k j).col = s.col := rfl
@[simp] theorem State.setPlace_cx (s : State) (k j : Nat) : (s.setPlace k j).cx = s.cx := rfl
@[simp] theorem State.setPlace_cy (s : State) (k j : Nat) : (s.setPlace k j).cy = s.cy := rfl
@[simp] theorem State.setPlace_c (s : State) (k j : Nat) : (s.setPlace k j).c = s.c := rfl
@[simp] theorem State.setPlace_lf (s : State) (k j : Nat) : (s.setPlace k j).lf = s.lf := rfl
@[simp] theorem State.setPlace_rt (s : State) (k j : Nat) : (s.setPlace k j).rt = s.rt := rfl
@[simp] theorem State.setPlace_up (s : State) (k j : Nat) : (s.setPlace k j).up = s.up := rfl
@[simp] theorem State.setPlace_dn (s : State) (k j : Nat) : (s.setPlace k j).dn = s.dn := rfl
@[simp] theorem State.setPlace_acc (s : State) (k j : Nat) : (s.setPlace k j).acc = s.acc := rfl
@[simp] theorem State.setPlace_pos (s : State) (k j : Nat) : (s.setPlace k j).pos = s.pos := rfl
@[simp] theorem State.setPlace_bitk (s : State) (k j : Nat) : (s.setPlace k j).bitk = k := rfl
@[simp] theorem State.setPlace_cyc (s : State) (k j : Nat) : (s.setPlace k j).cyc = j := rfl
@[simp] theorem State.setPlace_pfc (s : State) (k j : Nat) : (s.setPlace k j).pfc = s.pfc := rfl
@[simp] theorem State.setPlace_lcnt (s : State) (k j : Nat) : (s.setPlace k j).lcnt = s.lcnt := rfl
@[simp] theorem State.setPlace_icnt (s : State) (k j : Nat) : (s.setPlace k j).icnt = s.icnt := rfl
@[simp] theorem State.setPlace_filla (s : State) (k j : Nat) : (s.setPlace k j).filla = s.filla := rfl
@[simp] theorem State.setPlace_pali (s : State) (k j : Nat) : (s.setPlace k j).pali = s.pali := rfl
@[simp] theorem State.setPlace_sr (s : State) (k j : Nat) : (s.setPlace k j).sr = s.sr := rfl
@[simp] theorem State.setPlace_nx (s : State) (k j : Nat) : (s.setPlace k j).nx = s.nx := rfl
@[simp] theorem State.setPlace_rsp (s : State) (k j : Nat) : (s.setPlace k j).rsp = s.rsp := rfl
@[simp] theorem State.setPlace_rspValid (s : State) (k j : Nat) : (s.setPlace k j).rspValid = s.rspValid := rfl
@[simp] theorem State.setPlace_fb (s : State) (k j : Nat) : (s.setPlace k j).fb = s.fb := rfl
@[simp] theorem State.setPlace_palc (s : State) (k j : Nat) : (s.setPlace k j).palc = s.palc := rfl
@[simp] theorem State.setPlace_port (s : State) (k j : Nat) : (s.setPlace k j).port = s.port := rfl
@[simp] theorem State.setPlace_rngWait (s : State) (k j : Nat) : (s.setPlace k j).rngWait = s.rngWait := rfl
@[simp] theorem State.setPlace_palWait (s : State) (k j : Nat) : (s.setPlace k j).palWait = s.palWait := rfl
@[simp] theorem State.setPlace_wave (s : State) (k j : Nat) : (s.setPlace k j).wave = s.wave := rfl
@[simp] theorem State.setPlace_draws (s : State) (k j : Nat) : (s.setPlace k j).draws = s.draws := rfl
@[simp] theorem State.setPlace_palLog (s : State) (k j : Nat) : (s.setPlace k j).palLog = s.palLog := rfl
@[simp] theorem State.setPlace_resets (s : State) (k j : Nat) : (s.setPlace k j).resets = s.resets := rfl
@[simp] theorem State.setPlace_todo (s : State) (k j : Nat) : (s.setPlace k j).todo = s.todo := rfl
@[simp] theorem State.setPlace_rngScript (s : State) (k j : Nat) : (s.setPlace k j).rngScript = s.rngScript := rfl
@[simp] theorem State.setPlace_rngSilent (s : State) (k j : Nat) : (s.setPlace k j).rngSilent = s.rngSilent := rfl
@[simp] theorem State.setPlace_palSilent (s : State) (k j : Nat) : (s.setPlace k j).palSilent = s.palSilent := rfl

end Sys2Proof.Machine
end

