-- ==== Sys2Proof/Laws/Accept.lean ====
section
/-!
SUPPORT. Everything the frame shared by the commands can do (R170, R191, R192): a fault at acceptance, a wait for ever, or
the command's own effect.
-/

namespace Sys2Proof.Machine

variable {i : Instr} {s t : State} {body : State → State}

/-- A command that faults at acceptance takes the fault and does nothing else (R193). -/
theorem command_fault {e : ErrCode} (h : acceptError i s = some e) :
    command i s body = .next (s.raiseFault e (encode i)) := by
  simp [command, h]

/-- A command that is accepted, and whose ports answer, has its effect. -/
theorem command_accepted (h : acceptError i s = none) (hn : neverAnswered i s = none) :
    command i s body = .next (body (s.begin i)) := by
  simp [command, h, hn]

/-- The only ways a command gives a next state. -/
theorem command_cases (h : command i s body = .next t) :
    (∃ e, acceptError i s = some e ∧ t = s.raiseFault e (encode i)) ∨
      (acceptError i s = none ∧ neverAnswered i s = none ∧ t = body (s.begin i)) := by
  unfold command at h
  split at h
  · next e he => exact .inl ⟨e, he, by simpa using h.symm⟩
  · next he =>
    split at h
    · cases h
    · next hn => exact .inr ⟨he, hn, by simpa using h.symm⟩

/-- What each command does after acceptance, from the start of its first phase to its completion. -/
def effect : Instr → State → State
  | .fbinit, s => (fbinitBody s).respond 0#32
  | .palinit, s => (palinitBody s).respond 0#32
  | .setpx x y v, s => (s.setCell x.toNat y.toNat v).respond 0#32
  | .getpx x y, s => s.respond (cellWord (s.cellAt x.toNat y.toNat))
  | .lookup k, s => (s.logLookup k).respond (colorWord (s.lookup k))
  | .inject, s => (injectBody s).respond 0#32
  | .diffuse, s => (diffuseBody s).respond 0#32
  | .sim, s => (simBody s).respond 0#32
  | .scan, s => (scanBody s).respond 0#32
  | .tick, s => (tickBody s).respond 0#32
  | .run, s => (tickBody s).enter .inject

/-- Every command is the shared frame around its effect. -/
theorem exec_eq_command (i : Instr) (s : State) : exec i s = command i s (effect i) := by
  cases i <;> rfl

/-- Acceptance without a fault: the operands are in range and the flags the command needs are set (R191). -/
theorem acceptError_eq_none : acceptError i s = none ↔
    i.wellFormed s.cfg.toParams = true ∧ (usesFb i = true → s.fbv = true) ∧
      (usesPalette i = true → s.palvOut = true) := by
  unfold acceptError
  cases i.wellFormed s.cfg.toParams <;> cases usesFb i <;> cases usesPalette i <;> cases s.fbv <;>
    cases s.palvOut <;> simp

@[simp] theorem begin_phase (s : State) (i : Instr) : (s.begin i).phase = firstPhase i := by simp [State.begin]
@[simp] theorem begin_cmdr (s : State) (i : Instr) : (s.begin i).cmdr = encode i := by simp [State.begin]
@[simp] theorem begin_cfg (s : State) (i : Instr) : (s.begin i).cfg = s.cfg := by simp [State.begin]
@[simp] theorem begin_fb (s : State) (i : Instr) : (s.begin i).fb = s.fb := by simp [State.begin]
@[simp] theorem begin_fbv (s : State) (i : Instr) : (s.begin i).fbv = s.fbv := by simp [State.begin]
@[simp] theorem begin_palv (s : State) (i : Instr) : (s.begin i).palv = s.palv := by simp [State.begin]
@[simp] theorem begin_palc (s : State) (i : Instr) : (s.begin i).palc = s.palc := by simp [State.begin]
@[simp] theorem begin_resets (s : State) (i : Instr) : (s.begin i).resets = s.resets := by simp [State.begin]
@[simp] theorem begin_palLog (s : State) (i : Instr) : (s.begin i).palLog = s.palLog := by simp [State.begin]
@[simp] theorem begin_draws (s : State) (i : Instr) : (s.begin i).draws = s.draws := by simp [State.begin]
@[simp] theorem begin_rngScript (s : State) (i : Instr) : (s.begin i).rngScript = s.rngScript := by simp [State.begin]
@[simp] theorem begin_rspValid (s : State) (i : Instr) : (s.begin i).rspValid = false := by simp [State.begin]

/-! The start of each command: the phase, the word, and the counters that phase starts (R173). -/

theorem begin_fbinit (s : State) : s.begin .fbinit =
    { s with phase := .fbinit, cmdr := encode .fbinit, rspValid := false, filla := 0 } := rfl
theorem begin_palinit (s : State) : s.begin .palinit =
    { s with phase := .palinit, cmdr := encode .palinit, rspValid := false, pali := 0, palWait := false } := rfl
theorem begin_access (s : State) {i : Instr} (h : firstPhase i = .access) : s.begin i =
    { s with phase := .access, cmdr := encode i, rspValid := false, palWait := false } := by
  unfold State.begin
  rw [h]
  rfl
theorem begin_inject (s : State) {i : Instr} (h : firstPhase i = .inject) : s.begin i =
    { s with phase := .inject, cmdr := encode i, rspValid := false, rngWait := false } := by
  unfold State.begin
  rw [h]
  rfl
theorem begin_diffuse (s : State) : s.begin .diffuse =
    { s with phase := .diffuse, cmdr := encode .diffuse, rspValid := false, cx := 0#9,
             cy := BitVec.ofNat 9 (s.cfg.h - 1) } := rfl
theorem begin_scan (s : State) : s.begin .scan =
    { s with phase := .prefetch, cmdr := encode .scan, rspValid := false, pos := 0, pfc := 0, port := 0, wave := [],
             palWait := false } := rfl

/-- A command that is accepted and whose ports answer completes with its effect. -/
theorem exec_accepted (h : acceptError i s = none) (hn : neverAnswered i s = none) :
    exec i s = .next (effect i (s.begin i)) := by
  rw [exec_eq_command, command_accepted h hn]

/-- The only ways a command gives a next state. -/
theorem exec_cases (h : exec i s = .next t) :
    (∃ e, acceptError i s = some e ∧ t = s.raiseFault e (encode i)) ∨
      (acceptError i s = none ∧ neverAnswered i s = none ∧ t = effect i (s.begin i)) :=
  command_cases ((exec_eq_command i s).symm.trans h)

end Sys2Proof.Machine
end

