-- ==== Sys2Proof/Laws/Config.lean ====
section
/-!
SUPPORT. What legality gives: positive sizes, and addresses that are in range and distinct (R54, R58).
-/

namespace Sys2Proof

theorem Config.w_pos (c : Config) : 0 < c.w := c.ok.1.1
theorem Config.w_le (c : Config) : c.w ≤ 256 := c.ok.1.2
theorem Config.h_pos (c : Config) : 0 < c.h := c.ok.2.1.1
theorem Config.h_le (c : Config) : c.h ≤ 256 := c.ok.2.1.2
theorem Config.l_pos (c : Config) : 0 < c.l := c.ok.2.2.1
theorem Config.l_dvd (c : Config) : c.l ∣ c.npix := c.ok.2.2.2.1
theorem Config.pins_le (c : Config) : c.firstPin + c.n ≤ c.portw := c.ok.2.2.2.2.1
theorem Config.palSrc_length (c : Config) : c.palSrc.length = 256 := c.ok.2.2.2.2.2.1
theorem Config.th_pos (c : Config) : 0 < c.th := c.ok.2.2.2.2.2.2.1.1
theorem Config.tp_pos (c : Config) : 0 < c.tp := c.ok.2.2.2.2.2.2.1.2.1
theorem Config.tl_pos (c : Config) : 0 < c.tl := c.ok.2.2.2.2.2.2.1.2.2
theorem Config.tLatch_ge (c : Config) : 960 ≤ c.tLatch := c.ok.2.2.2.2.2.2.2.1
theorem Config.tFetch_pos (c : Config) : 0 < c.tFetch := c.ok.2.2.2.2.2.2.2.2.1.1
theorem Config.budget (c : Config) : c.l = 1 ∨ c.n * c.tFetch ≤ 24 * c.tbit := c.ok.2.2.2.2.2.2.2.2.1.2
theorem Config.addrMap_legal (c : Config) : c.addrMap.legal c.npix = true := c.ok.2.2.2.2.2.2.2.2.2.1
theorem Config.pixMap_legal (c : Config) : c.pixMap.legal c.npix = true := c.ok.2.2.2.2.2.2.2.2.2.2

theorem Config.tbit_pos (c : Config) : 0 < c.tbit := by
  have := c.th_pos
  unfold Params.tbit
  omega

theorem Config.npix_pos (c : Config) : 0 < c.npix := Nat.mul_pos c.w_pos c.h_pos

theorem Config.n_mul_l (c : Config) : c.n * c.l = c.npix := Nat.div_mul_cancel c.l_dvd

theorem Config.n_pos (c : Config) : 0 < c.n := by
  rcases Nat.eq_zero_or_pos c.n with h | h
  · have := c.n_mul_l
    have := c.npix_pos
    simp_all
  · exact h

/-- The prefetch of all chains fits in the bit times of one position (R224). -/
theorem Config.n_le (c : Config) (h : 1 < c.l) : c.n ≤ 24 * c.tbit := by
  rcases c.budget with h1 | h1
  · omega
  · exact le_trans (Nat.le_mul_of_pos_right _ c.tFetch_pos) h1

namespace Machine

theorem cellAddr_lt {m : CellMap} {n k : Nat} (hm : m.legal n = true) (hk : k < n) : cellAddr m k < n := by
  cases m with
  | direct => exact hk
  | table t =>
    simp only [CellMap.legal, Bool.and_eq_true, decide_eq_true_eq, List.all_eq_true] at hm
    have hk' : k < t.length := by omega
    simp only [cellAddr, List.getD_eq_getElem?_getD, List.getElem?_eq_getElem hk', Option.getD_some]
    exact hm.2 _ (List.getElem_mem hk')

theorem cellAddr_inj {m : CellMap} {n j k : Nat} (hm : m.legal n = true) (hj : j < n) (hk : k < n)
    (h : cellAddr m j = cellAddr m k) : j = k := by
  cases m with
  | direct => exact h
  | table t =>
    simp only [CellMap.legal, Bool.and_eq_true, decide_eq_true_eq, List.all_eq_true] at hm
    have hj' : j < t.length := by omega
    have hk' : k < t.length := by omega
    simp only [cellAddr, List.getD_eq_getElem?_getD, List.getElem?_eq_getElem hk', List.getElem?_eq_getElem hj',
      Option.getD_some] at h
    exact (List.Nodup.getElem_inj_iff hm.1.2).1 h

theorem rowMajor_lt {w h x y : Nat} (hx : x < w) (hy : y < h) : y * w + x < w * h := by
  have : (y + 1) * w ≤ h * w := Nat.mul_le_mul_right w hy
  rw [Nat.mul_comm w h]
  rw [Nat.add_mul] at this
  omega

/-- A cell of the grid has an address in the frame buffer (R54). -/
theorem addr_lt (c : Config) {x y : Nat} (hx : x < c.w) (hy : y < c.h) : addr c.toParams x y < c.npix :=
  cellAddr_lt c.addrMap_legal (rowMajor_lt hx hy)

/-- Distinct cells have distinct addresses. -/
theorem addr_inj (c : Config) {x y x' y' : Nat} (hx : x < c.w) (hy : y < c.h) (hx' : x' < c.w) (hy' : y' < c.h)
    (h : addr c.toParams x y = addr c.toParams x' y') : x = x' ∧ y = y' := by
  have hk := cellAddr_inj c.addrMap_legal (rowMajor_lt hx hy) (rowMajor_lt hx' hy') h
  have hw := c.w_pos
  have hmod := congrArg (· % c.w) hk
  have hdiv := congrArg (· / c.w) hk
  simp only [Nat.mul_comm y, Nat.mul_comm y', Nat.mul_add_mod, Nat.mod_eq_of_lt hx, Nat.mod_eq_of_lt hx'] at hmod
  simp only [Nat.mul_comm y, Nat.mul_comm y', Nat.mul_add_div hw, Nat.div_eq_of_lt hx, Nat.div_eq_of_lt hx'] at hdiv
  omega

/-- A chain position has an address in the frame buffer (R54). -/
theorem pixmap_lt (cfg : Config) {c q : Nat} (hc : c < cfg.n) (hq : q < cfg.l) : pixmap cfg.toParams c q < cfg.npix := by
  refine cellAddr_lt cfg.pixMap_legal ?_
  have := rowMajor_lt hq hc
  rw [← cfg.n_mul_l, Nat.mul_comm cfg.n]
  exact this

/-- The spec's default map: `addr(x, y) = y*W + x` (R53). -/
theorem addr_direct {p : Params} (h : p.addrMap = .direct) (x y : Nat) : addr p x y = y * p.w + x := by
  simp [addr, cellAddr, h]

/-- The spec's default map: chain `c` at position `q` shows `c*L + q` (R67). -/
theorem pixmap_direct {p : Params} (h : p.pixMap = .direct) (c q : Nat) : pixmap p c q = c * p.l + q := by
  simp [pixmap, cellAddr, h]

end Machine

end Sys2Proof
end

