-- ==== Sys2Proof/Laws/Memory.lean ====
section
/-!
SUPPORT. The laws of a memory: a read after a write, and the canonical form.
-/

namespace Sys2Proof.Machine

variable {α : Type}

@[simp] theorem Memory.read?_nil (a : Nat) : Memory.read? ([] : List (Nat × α)) a = none := rfl

@[simp] theorem Memory.read?_cons (b : Nat) (v : α) (t : List (Nat × α)) (a : Nat) :
    Memory.read? ((b, v) :: t) a = if b = a then some v else Memory.read? t a := rfl

/-- A read of the address just written gives the value written. -/
@[simp] theorem Memory.read?_write_self (m : List (Nat × α)) (a : Nat) (v : α) :
    Memory.read? (Memory.write m a v) a = some v := by
  induction m with
  | nil => simp [Memory.write]
  | cons x t ih =>
    obtain ⟨b, u⟩ := x
    unfold Memory.write
    split
    · simp
    · split
      · simp
      · have : b ≠ a := by omega
        simp [this, ih]

/-- A write leaves every other address alone. -/
theorem Memory.read?_write_of_ne (m : List (Nat × α)) {a b : Nat} (v : α) (h : b ≠ a) :
    Memory.read? (Memory.write m a v) b = Memory.read? m b := by
  induction m with
  | nil => simp [Memory.write, h.symm]
  | cons x t ih =>
    obtain ⟨k, u⟩ := x
    unfold Memory.write
    split
    · simp [h.symm]
    · split
      · next h1 h2 =>
        subst h2
        simp [h.symm]
      · simp [ih]

theorem Memory.read?_write (m : List (Nat × α)) (a b : Nat) (v : α) :
    Memory.read? (Memory.write m a v) b = if b = a then some v else Memory.read? m b := by
  split
  · next h => subst h; simp
  · next h => exact Memory.read?_write_of_ne m v h

/-- Every address a write leaves listed was listed or is the one written. -/
theorem Memory.mem_write {m : List (Nat × α)} {a : Nat} {v : α} {x : Nat × α}
    (h : x ∈ Memory.write m a v) : x = (a, v) ∨ x ∈ m := by
  induction m with
  | nil => simpa [Memory.write] using h
  | cons y t ih =>
    obtain ⟨b, u⟩ := y
    unfold Memory.write at h
    split at h
    · simpa using h
    · split at h
      · rcases List.mem_cons.1 h with h | h
        · exact .inl h
        · exact .inr (List.mem_cons_of_mem _ h)
      · rcases List.mem_cons.1 h with h | h
        · exact .inr (by simp [h])
        · rcases ih h with h | h
          · exact .inl h
          · exact .inr (List.mem_cons_of_mem _ h)

/-- A write keeps the canonical form. -/
theorem Memory.wf_write {m : List (Nat × α)} (h : Memory.wf m) (a : Nat) (v : α) :
    Memory.wf (Memory.write m a v) := by
  induction m with
  | nil => simp [Memory.write, Memory.wf]
  | cons y t ih =>
    obtain ⟨b, u⟩ := y
    have hb := List.pairwise_cons.1 h
    unfold Memory.write
    split
    · next hab =>
      refine List.pairwise_cons.2 ⟨?_, h⟩
      intro x hx
      rcases List.mem_cons.1 hx with hx | hx
      · simpa [hx] using hab
      · exact lt_trans hab (hb.1 x hx)
    · split
      · next hab =>
        subst hab
        exact List.pairwise_cons.2 ⟨hb.1, hb.2⟩
      · next h1 h2 =>
        refine List.pairwise_cons.2 ⟨?_, ih hb.2⟩
        intro x hx
        rcases Memory.mem_write hx with hx | hx
        · subst hx
          show b < a
          omega
        · exact hb.1 x hx

/-- A listed value is read, in the canonical form. -/
theorem Memory.read?_of_mem {m : List (Nat × α)} (h : Memory.wf m) {x : Nat × α} (hx : x ∈ m) :
    Memory.read? m x.1 = some x.2 := by
  induction m with
  | nil => simp at hx
  | cons y t ih =>
    obtain ⟨b, u⟩ := y
    have hb := List.pairwise_cons.1 h
    rcases List.mem_cons.1 hx with rfl | hx
    · simp
    · have : b ≠ x.1 := Nat.ne_of_lt (hb.1 x hx)
      simp [this, ih hb.2 hx]

theorem Memory.mem_of_read? {m : List (Nat × α)} {a : Nat} {v : α} (h : Memory.read? m a = some v) :
    (a, v) ∈ m := by
  induction m with
  | nil => simp at h
  | cons y t ih =>
    obtain ⟨b, u⟩ := y
    rw [Memory.read?_cons] at h
    split at h
    · next hb => simp_all
    · exact List.mem_cons_of_mem _ (ih h)

/-- Canonical memories that read alike are equal. -/
theorem Memory.ext_of_read? : ∀ {m n : List (Nat × α)}, Memory.wf m → Memory.wf n →
    (∀ a, Memory.read? m a = Memory.read? n a) → m = n
  | [], [], _, _, _ => rfl
  | [], (b, v) :: t, _, _, h => by simpa using h b
  | (b, v) :: t, [], _, _, h => by simpa using h b
  | (a, u) :: s, (b, v) :: t, hm, hn, h => by
    have hm' := List.pairwise_cons.1 hm
    have hn' := List.pairwise_cons.1 hn
    have key : a = b := by
      by_contra hab
      rcases Nat.lt_or_gt_of_ne hab with hlt | hlt
      · have h1 := h a
        simp only [Memory.read?_cons, if_true, if_neg (Ne.symm hab)] at h1
        have := hn'.1 _ (Memory.mem_of_read? h1.symm)
        have : b < a := this
        omega
      · have h1 := h b
        simp only [Memory.read?_cons, if_true, if_neg hab] at h1
        have := hm'.1 _ (Memory.mem_of_read? h1)
        have : a < b := this
        omega
    subst key
    have huv : u = v := by simpa using h a
    subst huv
    have : s = t := by
      refine Memory.ext_of_read? hm'.2 hn'.2 fun x => ?_
      by_cases hx : a = x
      · subst hx
        have h1 : Memory.read? s a = none := by
          by_contra hc
          obtain ⟨w, hw⟩ := Option.ne_none_iff_exists'.1 hc
          have : a < a := hm'.1 _ (Memory.mem_of_read? hw)
          omega
        have h2 : Memory.read? t a = none := by
          by_contra hc
          obtain ⟨w, hw⟩ := Option.ne_none_iff_exists'.1 hc
          have : a < a := hn'.1 _ (Memory.mem_of_read? hw)
          omega
        rw [h1, h2]
      · simpa [hx] using h x
    rw [this]

end Sys2Proof.Machine
end

