-- ==== Sys2Proof/Laws/FrameBuffer.lean ====
section
/-!
SUPPORT. What the zero-fill does (R106), and reading a cell after writing one.
-/

namespace Sys2Proof.Machine

/-- The zero-fill changes the frame buffer and its counter, nothing else. -/
theorem fillCell_iterate (n : Nat) (s : State) :
    State.fillCell^[n] s = { s with fb := (State.fillCell^[n] s).fb, filla := s.filla + n } := by
  induction n with
  | zero => rfl
  | succ n ih =>
    rw [Function.iterate_succ_apply', ih]
    rfl

/-- The zero-fill sets `n` cells from its counter on to 0 and leaves the others. -/
theorem fillCell_iterate_read (n : Nat) (s : State) (a : Nat) :
    Memory.read? (State.fillCell^[n] s).fb a =
      if s.filla ≤ a ∧ a < s.filla + n then some 0#8 else Memory.read? s.fb a := by
  induction n with
  | zero =>
    rw [if_neg (by omega)]
    rfl
  | succ n ih =>
    rw [Function.iterate_succ_apply']
    have hf : (State.fillCell^[n] s).filla = s.filla + n := by rw [fillCell_iterate]
    simp only [State.fillCell, State.setFb_fb, hf, Memory.read?_write, ih]
    by_cases h : a = s.filla + n
    · rw [if_pos h, if_pos (by omega)]
    · rw [if_neg h]
      by_cases h2 : s.filla ≤ a ∧ a < s.filla + n
      · rw [if_pos h2, if_pos (by omega)]
      · rw [if_neg h2, if_neg (by omega)]

/-- The zero-fill keeps the canonical form. -/
theorem fillCell_iterate_wf (n : Nat) {s : State} (h : Memory.wf s.fb) : Memory.wf (State.fillCell^[n] s).fb := by
  induction n with
  | zero => exact h
  | succ n ih =>
    rw [Function.iterate_succ_apply']
    exact Memory.wf_write ih _ _

theorem fbCell_setFb (s : State) (a b : Nat) (v : Byte) :
    (s.setFb a v).fbCell b = if b = a then v else s.fbCell b := by
  unfold State.fbCell
  simp only [State.setFb_fb, State.setFb_resets, Memory.read?_write]
  split <;> rfl

/-- A cell read after a cell is written (R62). -/
theorem cellAt_setCell (s : State) {x y x' y' : Nat} (v : Byte) (hx : x < s.cfg.w) (hy : y < s.cfg.h)
    (hx' : x' < s.cfg.w) (hy' : y' < s.cfg.h) :
    (s.setCell x y v).cellAt x' y' = if x' = x ∧ y' = y then v else s.cellAt x' y' := by
  unfold State.setCell State.cellAt
  rw [fbCell_setFb]
  by_cases h : x' = x ∧ y' = y
  · rw [if_pos h]
    simp [h]
  · rw [if_neg h, if_neg]
    · rfl
    · intro hc
      exact h (addr_inj s.cfg hx' hy' hx hy hc)

end Sys2Proof.Machine
end

