-- ==== Sys2Proof/Laws/Palette.lean ====
section
/-!
SUPPORT. What the palette fill does (R92), and what a lookup depends on (R91).
-/

namespace Sys2Proof.Machine

/-- Filling one entry of the palette cache: the entry, its counter, and the request (R92). -/
theorem fillColor_eq (s : State) :
    s.fillColor =
      { s with palc := Memory.write s.palc s.pali (palSrcAt s.cfg.toParams (BitVec.ofNat 8 s.pali)),
               pali := s.pali + 1, palLog := s.palLog ++ [BitVec.ofNat 8 s.pali], palWait := false } := rfl

/-- The palette fill changes the cache, its counter and the request port, nothing else. -/
theorem fillColor_iterate (n : Nat) (s : State) :
    State.fillColor^[n] s =
      { s with palc := (State.fillColor^[n] s).palc, pali := s.pali + n,
               palLog := s.palLog ++ (List.range n).map fun k => BitVec.ofNat 8 (s.pali + k),
               palWait := (State.fillColor^[n] s).palWait } := by
  induction n with
  | zero => simp
  | succ n ih =>
    rw [Function.iterate_succ_apply']
    generalize State.fillColor^[n] s = t at ih
    rw [fillColor_eq t]
    rw [ih]
    simp [List.range_succ, Nat.add_assoc]

/-- The palette fill stores the color source's answer in `n` entries from its counter on and leaves the others (R65). -/
theorem fillColor_iterate_read (n : Nat) (s : State) (a : Nat) :
    Memory.read? (State.fillColor^[n] s).palc a =
      if s.pali ≤ a ∧ a < s.pali + n then some (palSrcAt s.cfg.toParams (BitVec.ofNat 8 a))
      else Memory.read? s.palc a := by
  induction n with
  | zero =>
    rw [if_neg (by omega)]
    rfl
  | succ n ih =>
    rw [Function.iterate_succ_apply']
    have hf := congrArg State.pali (fillColor_iterate n s)
    have hc := congrArg State.cfg (fillColor_iterate n s)
    generalize State.fillColor^[n] s = t at ih hf hc
    simp only at hf hc
    rw [fillColor_eq t]
    simp only [Memory.read?_write, ih, hf, hc]
    by_cases h : a = s.pali + n
    · rw [if_pos h, if_pos (by omega), h]
    · rw [if_neg h]
      by_cases h2 : s.pali ≤ a ∧ a < s.pali + n
      · rw [if_pos h2, if_pos (by omega)]
      · rw [if_neg h2, if_neg (by omega)]

/-- The palette fill keeps the canonical form. -/
theorem fillColor_iterate_wf (n : Nat) {s : State} (h : Memory.wf s.palc) :
    Memory.wf (State.fillColor^[n] s).palc := by
  induction n with
  | zero => exact h
  | succ n ih =>
    rw [Function.iterate_succ_apply']
    exact Memory.wf_write ih _ _

/-- A lookup depends on the build, the palette cache and the reset count only (R91). -/
theorem lookup_congr {s t : State} (hc : s.cfg = t.cfg) (hp : s.palc = t.palc) (hr : s.resets = t.resets) (i : Byte) :
    s.lookup i = t.lookup i := by
  unfold State.lookup State.palEntry
  rw [hc, hp, hr]

/-- In ROM and CAL mode a lookup is the color source's answer (R91). -/
theorem lookup_of_not_ram {s : State} (h : s.cfg.palMode ≠ .ram) (i : Byte) :
    s.lookup i = palSrcAt s.cfg.toParams i := by
  unfold State.lookup
  cases hm : s.cfg.palMode <;> simp_all

/-- In RAM mode a lookup is the cached entry (R91). -/
theorem lookup_of_ram {s : State} (h : s.cfg.palMode = .ram) (i : Byte) : s.lookup i = s.palEntry i.toNat := by
  unfold State.lookup
  simp [h]

/-- The external activity of a lookup touches the request port only (R93). -/
theorem logLookup_frame (s : State) (i : Byte) :
    s.logLookup i = { s with palLog := (s.logLookup i).palLog, palWait := (s.logLookup i).palWait } := by
  unfold State.logLookup
  split <;> rfl

end Sys2Proof.Machine
end

