-- ==== Sys2Proof/Laws/Wave.lean ====
section
/-!
SUPPORT. The record of the output port: what appending a run does to it, cycle by cycle (R12, R146).
-/

namespace Sys2Proof.Machine

@[simp] theorem waveCycles_nil : waveCycles [] = [] := rfl

@[simp] theorem waveCycles_cons (x : PortVal × Nat) (r : List (PortVal × Nat)) :
    waveCycles (x :: r) = waveCycles r ++ List.replicate x.2 x.1 := by
  simp [waveCycles]

/-- Appending a run appends its cycles. -/
@[simp] theorem waveCycles_pushWave (v : PortVal) (n : Nat) (r : List (PortVal × Nat)) :
    waveCycles (pushWave v n r) = waveCycles r ++ List.replicate n v := by
  cases r with
  | nil =>
    rw [pushWave]
    split <;> simp_all
  | cons x t =>
    obtain ⟨u, m⟩ := x
    rw [pushWave]
    split
    · simp_all
    · split
      · next h =>
        subst h
        simp
      · simp

@[simp] theorem pushWave_zero (v : PortVal) (r : List (PortVal × Nat)) : pushWave v 0 r = r := by
  cases r <;> simp [pushWave]

/-- Two runs of one value are one run. -/
theorem pushWave_pushWave (v : PortVal) (m n : Nat) (r : List (PortVal × Nat)) :
    pushWave v n (pushWave v m r) = pushWave v (m + n) r := by
  rcases Nat.eq_zero_or_pos m with rfl | hm
  · simp
  rcases Nat.eq_zero_or_pos n with rfl | hn
  · simp
  have hm' : m ≠ 0 := by omega
  have hn' : n ≠ 0 := by omega
  cases r with
  | nil => simp [pushWave, hm']
  | cons x t =>
    obtain ⟨u, k⟩ := x
    by_cases h : u = v
    · simp [pushWave, hm', h, hn', Nat.add_assoc]
    · simp [pushWave, hm', h, hn']

/-- A record with `f 0`, ..., `f (n-1)` appended, one cycle each. -/
def pushEach (f : Nat → PortVal) : Nat → List (PortVal × Nat) → List (PortVal × Nat)
  | 0, r => r
  | n + 1, r => pushWave (f n) 1 (pushEach f n r)

/-- Cycles that all show one value are one run. -/
theorem pushEach_const {f : Nat → PortVal} {a n : Nat} {v : PortVal} (h : ∀ j, a ≤ j → j < a + n → f j = v)
    (r : List (PortVal × Nat)) : pushEach f (a + n) r = pushWave v n (pushEach f a r) := by
  induction n with
  | zero => simp
  | succ n ih =>
    rw [← Nat.add_assoc, pushEach, ih fun j h1 h2 => h j h1 (by omega), h (a + n) (by omega) (by omega),
      pushWave_pushWave]

theorem pushEach_congr {f g : Nat → PortVal} {n : Nat} (h : ∀ j, j < n → f j = g j) (r : List (PortVal × Nat)) :
    pushEach f n r = pushEach g n r := by
  induction n with
  | zero => rfl
  | succ n ih => rw [pushEach, pushEach, ih fun j hj => h j (by omega), h n (by omega)]

theorem pushEach_add (f : Nat → PortVal) (m n : Nat) (r : List (PortVal × Nat)) :
    pushEach f (m + n) r = pushEach (fun j => f (m + j)) n (pushEach f m r) := by
  induction n with
  | zero => rfl
  | succ n ih => rw [← Nat.add_assoc, pushEach, ih, pushEach]

end Sys2Proof.Machine
end

