-- ==== Sys2Proof/Laws/Encoder.lean ====
section
/-!
SUPPORT. The encoder: what a fetch, a bit time, a chain position and a whole scan change, and what the scan puts on the port
(R141 to R149).
-/

namespace Sys2Proof.Machine

/-- The bits of a color in the order sent: green, red, blue, each from its most significant bit down (R142, R143). -/
theorem dataBit_wire24 (v : Color) {k : Nat} (hk : k < 24) :
    dataBit (wire24 v) k = v.getLsbD (if k < 8 then 15 - k else if k < 16 then 31 - k else 23 - k) := by
  unfold dataBit wire24 greenOf redOf blueOf
  simp only [BitVec.getLsbD_append, BitVec.getLsbD_extractLsb']
  rcases lt_or_ge k 8 with h | h
  · simp [h, show ¬ 23 - k < 8 by omega, show ¬ 23 - k - 8 < 8 by omega, show 23 - k - 8 - 8 < 8 by omega,
      show 8 + (23 - k - 8 - 8) = 15 - k by omega]
  · rcases lt_or_ge k 16 with h' | h'
    · simp [h', show ¬ k < 8 by omega, show ¬ 23 - k < 8 by omega, show 23 - k - 8 < 8 by omega,
        show 16 + (23 - k - 8) = 31 - k by omega]
    · simp [show ¬ k < 8 by omega, show ¬ k < 16 by omega, show 23 - k < 8 by omega]

/-- A register of a bank after one of them is written. -/
theorem getD_putReg (r : List Color) {c j : Nat} (v : Color) (h : j ≤ c) (hc : c ≤ r.length) :
    (putReg r c v).getD j 0#24 = if j = c then v else r.getD j 0#24 := by
  have hlen : (r.take c).length = c := by simp [hc]
  simp only [putReg, List.getD_eq_getElem?_getD]
  rcases Nat.lt_or_eq_of_le h with h1 | h1
  · rw [if_neg (by omega), List.getElem?_append_left (by omega), List.getElem?_take_of_lt h1]
  · subst h1
    rw [if_pos rfl, List.getElem?_append_right (by omega), hlen]
    simp

theorem length_putReg (r : List Color) {c : Nat} (v : Color) (hc : c ≤ r.length) :
    (putReg r c v).length = max r.length (c + 1) := by
  simp only [putReg, List.length_append, List.length_take, List.length_cons, List.length_drop]
  omega

/-- What a fetch reads is not what it writes: LED words depend on the build, the memories and the reset count. -/
theorem ledWord_congr {s t : State} (hc : s.cfg = t.cfg) (hf : s.fb = t.fb) (hp : s.palc = t.palc)
    (hr : s.resets = t.resets) (c q : Nat) : s.ledWord c q = t.ledWord c q := by
  unfold State.ledWord
  have h : s.fbCell = t.fbCell := by
    funext a
    unfold State.fbCell
    rw [hf, hr]
  rw [lookup_congr hc hp hr, h, hc]

/-- A fetch changes `NX`, `PFC` and the request port, nothing else (R152). -/
theorem fetch_frame (q : Nat) (s : State) :
    s.fetch q = { s with nx := putReg s.nx s.pfc (s.ledWord s.pfc q), pfc := s.pfc + 1,
                         palLog := (s.fetch q).palLog, palWait := (s.fetch q).palWait } := by
  unfold State.fetch
  rw [logLookup_frame]

/-- The fetches of a chain position change `NX`, `PFC` and the request port, nothing else. -/
theorem fetch_iterate_frame (q n : Nat) (s : State) :
    (State.fetch q)^[n] s = { s with nx := ((State.fetch q)^[n] s).nx, pfc := s.pfc + n,
                                     palLog := ((State.fetch q)^[n] s).palLog,
                                     palWait := ((State.fetch q)^[n] s).palWait } := by
  induction n with
  | zero => rfl
  | succ n ih =>
    rw [Function.iterate_succ_apply']
    generalize (State.fetch q)^[n] s = t at ih
    rw [fetch_frame q t]
    rw [ih]
    simp [Nat.add_assoc]

/-- After `n` fetches from `PFC = 0` on, `NX[0..n-1]` hold the LED words of position `q` (R149). -/
theorem fetch_iterate_nx (q n : Nat) (s : State) (h0 : s.pfc = 0) :
    n ≤ ((State.fetch q)^[n] s).nx.length ∧
      ∀ c < n, ((State.fetch q)^[n] s).nx.getD c 0#24 = s.ledWord c q := by
  induction n with
  | zero => simp
  | succ n ih =>
    obtain ⟨hl, hn⟩ := ih
    rw [Function.iterate_succ_apply']
    have hf := fetch_iterate_frame q n s
    generalize (State.fetch q)^[n] s = t at hl hn hf
    have hpfc : t.pfc = n := by rw [hf]; simp [h0]
    have hword : t.ledWord n q = s.ledWord n q := by
      apply ledWord_congr <;> rw [hf]
    rw [fetch_frame q t]
    simp only [hpfc, hword]
    constructor
    · rw [length_putReg _ _ hl]
      omega
    · intro c hc
      rw [getD_putReg _ _ (by omega) hl]
      split
      · next h => rw [h]
      · exact hn c (by omega)

/-- A pattern depends on the words of the `N` chains only (R144). -/
theorem patternOf_congr {p : Params} {r r' : List Color} (h : ∀ c < p.n, r.getD c 0#24 = r'.getD c 0#24) (k : Nat) :
    patternOf p r k = patternOf p r' k := by
  unfold patternOf
  congr 1
  apply List.map_congr_left
  intro c hc
  rw [h c (List.mem_range.1 hc)]

/-- A bit time adds its three runs to the record, nothing else (R145). -/
theorem bitTime_eq (s : State) (k : Nat) :
    s.bitTime k = { s with wave := pushWave 0 s.cfg.tl (pushWave (patternOf s.cfg.toParams s.sr k) s.cfg.tp
                      (pushWave (highMask s.cfg.toParams) s.cfg.th s.wave)) } := rfl

/-- The cycles of one bit time (R145). -/
def bitCycles (p : Params) (pat : PortVal) : List PortVal :=
  List.replicate p.th (highMask p) ++ List.replicate p.tp pat ++ List.replicate p.tl 0

theorem length_bitCycles (p : Params) (pat : PortVal) : (bitCycles p pat).length = p.tbit := by
  simp [bitCycles, Params.tbit, Nat.add_assoc]

theorem getElem?_bitCycles (p : Params) (pat : PortVal) {j : Nat} (h : j < p.tbit) :
    (bitCycles p pat)[j]? = some (bitLevel p pat j) := by
  unfold Params.tbit at h
  simp only [bitCycles, bitLevel, List.append_assoc, List.getElem?_append, List.getElem?_replicate, List.length_replicate]
  by_cases h1 : j < p.th
  · simp [h1]
  · by_cases h2 : j < p.th + p.tp
    · have h3 : j - p.th < p.tp := by omega
      simp [h1, h2, h3]
    · have h3 : ¬ j - p.th < p.tp := by omega
      have h4 : j - p.th - p.tp < p.tl := by omega
      simp [h1, h2, h3, h4]

/-- The cycles of one LED word per chain: 24 bit times (R79). -/
def wordCycles (p : Params) (sr : List Color) : List PortVal :=
  (List.range 24).flatMap fun k => bitCycles p (patternOf p sr k)

/-- Sending the words in `SR` adds their 24 bit times to the record, nothing else. -/
theorem foldl_bitTime (ks : List Nat) (s : State) :
    ks.foldl State.bitTime s = { s with wave := (ks.foldl State.bitTime s).wave } ∧
      waveCycles (ks.foldl State.bitTime s).wave =
        waveCycles s.wave ++ ks.flatMap fun k => bitCycles s.cfg.toParams (patternOf s.cfg.toParams s.sr k) := by
  induction ks generalizing s with
  | nil => simp
  | cons k ks ih =>
    obtain ⟨h1, h2⟩ := ih (s.bitTime k)
    rw [List.foldl_cons]
    refine ⟨by rw [h1]; rfl, ?_⟩
    rw [h2, bitTime_eq]
    simp [bitCycles]

theorem sendWord_frame (s : State) : s.sendWord = { s with wave := s.sendWord.wave } := (foldl_bitTime _ s).1

theorem sendWord_cycles (s : State) :
    waveCycles s.sendWord.wave = waveCycles s.wave ++ wordCycles s.cfg.toParams s.sr := (foldl_bitTime _ s).2

/-- Moving on to the next chain position changes the place, `SR`, `PFC` and the port, nothing else. -/
theorem nextPosition_frame (s : State) :
    s.nextPosition = { s with pos := s.pos + 1, bitk := 0, cyc := 0, sr := s.nextPosition.sr, pfc := s.nextPosition.pfc,
                              port := s.nextPosition.port } := by
  unfold State.nextPosition
  split <;> rfl

/-- What one chain position changes: the place, the encoder registers, the request port, the record and the port. -/
theorem sendPosition_frame (s : State) :
    s.sendPosition = { s with pos := s.pos + 1, bitk := 0, cyc := 0, sr := s.sendPosition.sr, nx := s.sendPosition.nx,
                              pfc := s.sendPosition.pfc, port := s.sendPosition.port, wave := s.sendPosition.wave,
                              palLog := s.sendPosition.palLog, palWait := s.sendPosition.palWait } := by
  unfold State.sendPosition
  simp only
  rw [nextPosition_frame, sendWord_frame]
  split
  · rw [fetch_iterate_frame]
  · rfl

/-- What the `SHIFT` phase changes. -/
theorem sendPosition_iterate_frame (n : Nat) (s : State) :
    State.sendPosition^[n] s =
      { s with pos := s.pos + n, bitk := (State.sendPosition^[n] s).bitk, cyc := (State.sendPosition^[n] s).cyc,
               sr := (State.sendPosition^[n] s).sr, nx := (State.sendPosition^[n] s).nx,
               pfc := (State.sendPosition^[n] s).pfc, port := (State.sendPosition^[n] s).port,
               wave := (State.sendPosition^[n] s).wave, palLog := (State.sendPosition^[n] s).palLog,
               palWait := (State.sendPosition^[n] s).palWait } := by
  induction n with
  | zero => rfl
  | succ n ih =>
    rw [Function.iterate_succ_apply']
    generalize State.sendPosition^[n] s = t at ih
    rw [sendPosition_frame t]
    rw [ih]
    simp [Nat.add_assoc]

/-- The LED words of chain position `q`, chain 0 first (R142). -/
def State.ledWords (s : State) (q : Nat) : List Color := (List.range s.cfg.n).map fun c => s.ledWord c q

theorem getD_ledWords (s : State) (q : Nat) {c : Nat} (h : c < s.cfg.n) :
    (s.ledWords q).getD c 0#24 = s.ledWord c q := by
  simp [State.ledWords, h]

theorem wordCycles_congr {p : Params} {r r' : List Color} (h : ∀ c < p.n, r.getD c 0#24 = r'.getD c 0#24) :
    wordCycles p r = wordCycles p r' := by
  unfold wordCycles
  congr 1
  funext k
  rw [patternOf_congr h]

/-- One chain position sends the words in `SR` and loads the words of the next one (R149). -/
theorem sendPosition_spec (s : State) (h0 : s.pfc = 0) :
    waveCycles s.sendPosition.wave = waveCycles s.wave ++ wordCycles s.cfg.toParams s.sr ∧
      (s.pos + 1 < s.cfg.l → s.sendPosition.pfc = 0 ∧
        ∀ c < s.cfg.n, s.sendPosition.sr.getD c 0#24 = s.ledWord c (s.pos + 1)) := by
  unfold State.sendPosition
  by_cases h : s.pos + 1 < s.cfg.l
  · simp only [if_pos h]
    have hf := fetch_iterate_frame (s.pos + 1) s.cfg.n s
    have hn := (fetch_iterate_nx (s.pos + 1) s.cfg.n s h0).2
    generalize (State.fetch (s.pos + 1))^[s.cfg.n] s = t at hf hn
    have hw := sendWord_cycles t
    have hs := sendWord_frame t
    generalize t.sendWord = u at hw hs
    rw [nextPosition_frame u]
    have e1 : t.wave = s.wave := by rw [hf]
    have e2 : t.cfg = s.cfg := by rw [hf]
    have e3 : t.sr = s.sr := by rw [hf]
    have e4 : u.pos = s.pos := by rw [hs, hf]
    have e5 : u.cfg = s.cfg := by rw [hs, hf]
    have e6 : u.nx = t.nx := by rw [hs]
    refine ⟨by simpa [e1, e2, e3] using hw, fun _ => ?_⟩
    simp only [State.nextPosition, e4, e5, if_pos h, e6]
    exact ⟨trivial, hn⟩
  · simp only [if_neg h]
    have hw := sendWord_cycles s
    generalize s.sendWord = u at hw
    rw [nextPosition_frame u]
    exact ⟨hw, fun hc => absurd hc h⟩

/-- After `q` chain positions the record holds their words' bit times, and `SR` the words of position `q` (R146). -/
theorem sendPosition_iterate_spec (s : State) (h0 : s.pfc = 0) (hp : s.pos = 0)
    (hsr : ∀ c < s.cfg.n, s.sr.getD c 0#24 = s.ledWord c 0) (q : Nat) (hq : q ≤ s.cfg.l) :
    waveCycles (State.sendPosition^[q] s).wave =
        waveCycles s.wave ++ (List.range q).flatMap (fun p => wordCycles s.cfg.toParams (s.ledWords p)) ∧
      (q < s.cfg.l → (State.sendPosition^[q] s).pfc = 0 ∧
        ∀ c < s.cfg.n, (State.sendPosition^[q] s).sr.getD c 0#24 = s.ledWord c q) := by
  induction q with
  | zero => exact ⟨by simp, fun _ => ⟨h0, hsr⟩⟩
  | succ q ih =>
    obtain ⟨ih1, ih2⟩ := ih (by omega)
    obtain ⟨ih3, ih4⟩ := ih2 (by omega)
    rw [Function.iterate_succ_apply']
    have hf := sendPosition_iterate_frame q s
    generalize State.sendPosition^[q] s = t at ih1 ih3 ih4 hf
    obtain ⟨h1, h2⟩ := sendPosition_spec t ih3
    have hcfg : t.cfg = s.cfg := by rw [hf]
    have hpos : t.pos = q := by rw [hf]; simp [hp]
    have hword : ∀ c p, t.ledWord c p = s.ledWord c p := by
      intro c p
      apply ledWord_congr <;> rw [hf]
    constructor
    · rw [h1, ih1, hcfg, wordCycles_congr (r' := s.ledWords q), List.range_succ, List.flatMap_append]
      · simp
      · intro c hc
        rw [getD_ledWords s q hc, ih4 c hc]
    · intro hq'
      have := h2 (by rw [hpos, hcfg]; exact hq')
      refine ⟨this.1, fun c hc => ?_⟩
      rw [this.2 c (by rw [hcfg]; exact hc), hword, hpos]

/-- What a scan changes: the phase it stands in, the encoder registers, the request port, the record and the port; neither
memory and no flag (R149). -/
theorem scanBody_frame (s : State) :
    scanBody s = { s with phase := .latch, pos := (scanBody s).pos, bitk := (scanBody s).bitk, cyc := (scanBody s).cyc,
                          pfc := (scanBody s).pfc, lcnt := s.cfg.tLatch, sr := (scanBody s).sr, nx := (scanBody s).nx,
                          port := 0, wave := (scanBody s).wave, palLog := (scanBody s).palLog,
                          palWait := (scanBody s).palWait } := by
  have h1 := fetch_iterate_frame 0 s.cfg.n s
  unfold scanBody latchBody shiftBody prefetchBody
  generalize (State.fetch 0)^[s.cfg.n] s = t at h1
  have hcfg : t.cfg = s.cfg := by rw [h1]
  have h2 := sendPosition_iterate_frame (t.enter .shift).cfg.l (t.enter .shift)
  generalize State.sendPosition^[(t.enter .shift).cfg.l] (t.enter .shift) = u at h2
  simp only [State.enter, State.emit, State.setLcnt]
  rw [h2]
  simp only [State.enter]
  rw [h1]

/-- The port of a scan, cycle by cycle from `t0` on: the words of the chain positions in order, then the latch hold
(R146, R148). -/
theorem scanBody_cycles (s : State) (h0 : s.pfc = 0) (hw : s.wave = []) :
    waveCycles (scanBody s).wave =
      (List.range s.cfg.l).flatMap (fun q => wordCycles s.cfg.toParams (s.ledWords q)) ++
        List.replicate s.cfg.tLatch 0 := by
  have h1 := fetch_iterate_frame 0 s.cfg.n s
  have hn := (fetch_iterate_nx 0 s.cfg.n s h0).2
  unfold scanBody latchBody shiftBody prefetchBody
  generalize (State.fetch 0)^[s.cfg.n] s = t at h1 hn
  have hcfg : t.cfg = s.cfg := by rw [h1]
  have hwave : t.wave = [] := by rw [h1]; exact hw
  have hword : ∀ c p, (t.enter .shift).ledWord c p = s.ledWord c p := by
    intro c p
    apply ledWord_congr
    · exact hcfg
    · show t.fb = s.fb
      rw [h1]
    · show t.palc = s.palc
      rw [h1]
    · show t.resets = s.resets
      rw [h1]
  have hwords : ∀ p, (t.enter .shift).ledWords p = s.ledWords p := by
    intro p
    simp only [State.ledWords, hword, State.enter_cfg, hcfg]
  have hsr : ∀ c < (t.enter .shift).cfg.n, (t.enter .shift).sr.getD c 0#24 = (t.enter .shift).ledWord c 0 := by
    intro c hc
    rw [hword]
    exact hn c (by simpa [hcfg] using hc)
  obtain ⟨h2, -⟩ := sendPosition_iterate_spec (t.enter .shift) rfl rfl hsr (t.enter .shift).cfg.l (le_refl _)
  have h3 := congrArg State.cfg (sendPosition_iterate_frame (t.enter .shift).cfg.l (t.enter .shift))
  generalize State.sendPosition^[(t.enter .shift).cfg.l] (t.enter .shift) = u at h2 h3
  have hu : u.cfg = s.cfg := by simpa [hcfg] using h3
  have hw0 : (t.enter .shift).wave = [] := hwave
  have hl : (u.enter .latch).wave = u.wave := rfl
  simp only [State.setLcnt_wave, State.emit_wave, waveCycles_pushWave, hl, h2, hw0, State.enter_cfg, hu, hcfg, hwords]
  simp

/-! No request stays open in a scan: each is answered at once (log entry 6). -/

/-- What one step keeps, every number of steps keeps. -/
theorem iterate_palWait {f : State → State} (h : ∀ s : State, s.palWait = false → (f s).palWait = false) (n : Nat)
    {s : State} (hs : s.palWait = false) : (f^[n] s).palWait = false := by
  induction n with
  | zero => exact hs
  | succ n ih => rw [Function.iterate_succ_apply']; exact h _ ih

theorem fetch_palWait (q : Nat) (s : State) (h : s.palWait = false) : (s.fetch q).palWait = false := by
  unfold State.fetch State.logLookup
  split
  · exact h
  · rfl

theorem sendPosition_palWait (s : State) (h : s.palWait = false) : s.sendPosition.palWait = false := by
  unfold State.sendPosition
  rw [nextPosition_frame, sendWord_frame]
  simp only
  split
  · exact iterate_palWait (fetch_palWait _) _ h
  · exact h

/-- After a scan no color request is open. -/
theorem scanBody_palWait {s : State} (h : s.palWait = false) : (scanBody s).palWait = false := by
  have h1 : ((prefetchBody s).enter .shift).palWait = false := iterate_palWait (fetch_palWait 0) s.cfg.n h
  show (shiftBody ((prefetchBody s).enter .shift)).palWait = false
  exact iterate_palWait sendPosition_palWait _ h1

end Sys2Proof.Machine
end

