-- ==== Sys2Proof/Laws/Simulation.lean ====
section
/-!
SUPPORT. The simulation datapath: what the injection and one cell of a diffusion pass change, where the pass stands after
`k` cells, and that every cell is written exactly once (R124 to R126).
-/

namespace Sys2Proof.Machine

/-- The awaited byte is the first answer of the script, after however many silent cycles (R57). -/
theorem untilAnswer_replicate (m : Nat) (b : Byte) (l : List (Option Byte)) :
    untilAnswer (List.replicate m none ++ some b :: l) = some b :: l := by
  induction m with
  | zero => rfl
  | succ m ih => exact ih

/-- A script without an answer is used up. -/
theorem untilAnswer_of_none : ∀ {r : List (Option Byte)}, (∀ x ∈ r, x = none) → untilAnswer r = []
  | [], _ => rfl
  | none :: t, h => untilAnswer_of_none (r := t) fun x hx => h x (List.mem_cons_of_mem _ hx)
  | some b :: _, h => nomatch h (some b) List.mem_cons_self

/-- The sum of five operands fits the 17-bit accumulator (R22, R121). -/
theorem diffuseSum_le (c l r u d : Byte) : diffuseSum c l r u d ≤ 66045 := by
  have := c.isLt; have := l.isLt; have := r.isLt; have := u.isLt; have := d.isLt
  unfold diffuseSum
  omega

/-- The accumulator holds the sum exactly (R121). -/
theorem loadOperands_acc (s : State) (x y : Nat) :
    (s.loadOperands x y).acc.toNat =
      diffuseSum (s.cellAt x y) (s.leftOf x y) (s.rightOf x y) (s.upOf x y) (s.downOf x y) := by
  have := diffuseSum_le (s.cellAt x y) (s.leftOf x y) (s.rightOf x y) (s.upOf x y) (s.downOf x y)
  simp only [State.loadOperands, BitVec.toNat_ofNat]
  omega

/-- The new value of cell `(x, y)` when it is visited in state `s` (R125). -/
def newCell (s : State) (x y : Nat) : Byte :=
  narrow8 s.cfg.narrow (diffuseCell (s.cellAt x y) (s.leftOf x y) (s.rightOf x y) (s.upOf x y) (s.downOf x y))

theorem advanceCell_cx (s : State) : s.advanceCell.cx =
    if s.cx.toNat + 1 < s.cfg.w then s.cx + 1#9 else if s.cy = 0#9 then BitVec.ofNat 9 s.cfg.w else 0#9 := by
  unfold State.advanceCell
  split
  · rfl
  · split <;> rfl

theorem advanceCell_cy (s : State) : s.advanceCell.cy =
    if s.cx.toNat + 1 < s.cfg.w then s.cy else if s.cy = 0#9 then s.cy else s.cy - 1#9 := by
  unfold State.advanceCell
  split
  · rfl
  · split <;> rfl

/-- Where the pass goes after a cell: the column. -/
theorem diffuseOne_cx (s : State) : s.diffuseOne.cx =
    if s.cx.toNat + 1 < s.cfg.w then s.cx + 1#9 else if s.cy = 0#9 then BitVec.ofNat 9 s.cfg.w else 0#9 :=
  advanceCell_cx _

/-- Where the pass goes after a cell: the row. -/
theorem diffuseOne_cy (s : State) : s.diffuseOne.cy =
    if s.cx.toNat + 1 < s.cfg.w then s.cy else if s.cy = 0#9 then s.cy else s.cy - 1#9 :=
  advanceCell_cy _

/-- One cell of the pass writes its new value at its address. -/
theorem diffuseOne_fb (s : State) :
    s.diffuseOne.fb =
      Memory.write s.fb (addr s.cfg.toParams s.cx.toNat s.cy.toNat) (newCell s s.cx.toNat s.cy.toNat) := by
  have h : s.diffuseOne.fb =
      ((s.loadOperands s.cx.toNat s.cy.toNat).storeCell s.cx.toNat s.cy.toNat).fb := by
    unfold State.diffuseOne State.advanceCell
    split
    · rfl
    · split <;> rfl
  rw [h]
  unfold State.storeCell State.setCell
  rw [State.setFb_fb, loadOperands_acc]
  rfl

/-- One cell of the pass changes the frame buffer and the datapath registers, nothing else. -/
theorem diffuseOne_frame (s : State) :
    s.diffuseOne =
      { s with c := s.diffuseOne.c, lf := s.diffuseOne.lf, rt := s.diffuseOne.rt, up := s.diffuseOne.up,
               dn := s.diffuseOne.dn, acc := s.diffuseOne.acc, fb := s.diffuseOne.fb,
               cx := s.diffuseOne.cx, cy := s.diffuseOne.cy } := by
  unfold State.diffuseOne State.advanceCell
  split
  · rfl
  · split <;> rfl

@[simp] theorem diffuseOne_cfg (s : State) : s.diffuseOne.cfg = s.cfg := by rw [diffuseOne_frame]

/-- A whole pass changes the frame buffer and the datapath registers, nothing else. -/
theorem diffuseOne_iterate_frame (n : Nat) (s : State) :
    State.diffuseOne^[n] s =
      { s with c := (State.diffuseOne^[n] s).c, lf := (State.diffuseOne^[n] s).lf, rt := (State.diffuseOne^[n] s).rt,
               up := (State.diffuseOne^[n] s).up, dn := (State.diffuseOne^[n] s).dn,
               acc := (State.diffuseOne^[n] s).acc, fb := (State.diffuseOne^[n] s).fb,
               cx := (State.diffuseOne^[n] s).cx, cy := (State.diffuseOne^[n] s).cy } := by
  induction n with
  | zero => rfl
  | succ n ih =>
    rw [Function.iterate_succ_apply']
    generalize State.diffuseOne^[n] s = t at ih
    rw [diffuseOne_frame t]
    rw [ih]

@[simp] theorem diffuseOne_iterate_cfg (n : Nat) (s : State) : (State.diffuseOne^[n] s).cfg = s.cfg := by
  rw [diffuseOne_iterate_frame]

/-- The injection changes one cell and `COL`, nothing else (R124). -/
theorem injectByte_frame (s : State) (r : Byte) :
    s.injectByte r = { s with fb := (s.injectByte r).fb, col := (s.injectByte r).col } := rfl

/-- Where the pass stands after `k` of its cells, from the start of phase `DIFFUSE` (R125). -/
theorem diffuse_place {s : State} (hx : s.cx = 0#9) (hy : s.cy = BitVec.ofNat 9 (s.cfg.h - 1)) {k : Nat}
    (hk : k < s.cfg.npix) :
    (State.diffuseOne^[k] s).cx.toNat = k % s.cfg.w ∧
      (State.diffuseOne^[k] s).cy.toNat = s.cfg.h - 1 - k / s.cfg.w := by
  have hw := s.cfg.w_pos
  have hw' := s.cfg.w_le
  have hh := s.cfg.h_pos
  have hh' := s.cfg.h_le
  induction k with
  | zero =>
    refine ⟨by simp [hx], ?_⟩
    rw [Function.iterate_zero, id_eq, hy, BitVec.toNat_ofNat, Nat.mod_eq_of_lt (by omega)]
    simp
  | succ k ih =>
    obtain ⟨ihx, ihy⟩ := ih (by omega)
    rw [Function.iterate_succ_apply']
    have hcfg := diffuseOne_iterate_cfg k s
    generalize State.diffuseOne^[k] s = t at ihx ihy hcfg
    rw [diffuseOne_cx, diffuseOne_cy, hcfg]
    have hdm := Nat.div_add_mod k s.cfg.w
    have hlt := Nat.mod_lt k hw
    have hklt : k / s.cfg.w < s.cfg.h := Nat.div_lt_of_lt_mul (lt_trans (Nat.lt_succ_self k) hk)
    by_cases h1 : t.cx.toNat + 1 < s.cfg.w
    · rw [if_pos h1, if_pos h1]
      have hm : (k + 1) % s.cfg.w = k % s.cfg.w + 1 := by
        rw [← hdm, Nat.add_assoc, Nat.mul_add_mod, Nat.mul_add_mod]
        rw [Nat.mod_eq_of_lt (by omega), Nat.mod_eq_of_lt hlt]
      have hd : (k + 1) / s.cfg.w = k / s.cfg.w := by
        conv_lhs => rw [← hdm, Nat.add_assoc, Nat.mul_add_div hw]
        rw [Nat.div_eq_of_lt (a := k % s.cfg.w + 1) (by omega)]
        rfl
      constructor
      · simp only [BitVec.toNat_add, BitVec.toNat_ofNat]
        omega
      · rw [hd]; exact ihy
    · have hm : (k + 1) % s.cfg.w = 0 := by
        rw [← hdm, Nat.add_assoc, Nat.mul_add_mod, show k % s.cfg.w + 1 = s.cfg.w by omega, Nat.mod_self]
      have hd : (k + 1) / s.cfg.w = k / s.cfg.w + 1 := by
        conv_lhs => rw [← hdm, Nat.add_assoc, Nat.mul_add_div hw, show k % s.cfg.w + 1 = s.cfg.w by omega, Nat.div_self hw]
      have hk2 : k / s.cfg.w + 1 < s.cfg.h := by
        rw [← hd]
        exact Nat.div_lt_of_lt_mul hk
      have hcy : t.cy ≠ 0#9 := by
        intro hc
        rw [hc] at ihy
        simp at ihy
        omega
      rw [if_neg h1, if_neg h1, if_neg hcy, if_neg hcy]
      · constructor
        · rw [hm]; rfl
        · rw [hd]
          have : (t.cy - 1#9).toNat = t.cy.toNat - 1 := by
            rw [BitVec.toNat_sub]
            simp only [BitVec.toNat_ofNat]
            omega
          rw [this]
          omega

/-- The pass ends with `CX = W` and `CY = 0`. -/
theorem diffuse_end {s : State} (hx : s.cx = 0#9) (hy : s.cy = BitVec.ofNat 9 (s.cfg.h - 1)) :
    (State.diffuseOne^[s.cfg.npix] s).cx.toNat = s.cfg.w := by
  have hp := s.cfg.npix_pos
  have hw := s.cfg.w_pos
  have hw' := s.cfg.w_le
  obtain ⟨ihx, ihy⟩ := diffuse_place hx hy (k := s.cfg.npix - 1) (by omega)
  have hn : s.cfg.npix = (s.cfg.npix - 1) + 1 := by omega
  rw [hn, Function.iterate_succ_apply']
  have hcfg := diffuseOne_iterate_cfg (s.cfg.npix - 1) s
  generalize State.diffuseOne^[s.cfg.npix - 1] s = t at ihx ihy hcfg
  have hq : (s.cfg.npix - 1) % s.cfg.w = s.cfg.w - 1 ∧ (s.cfg.npix - 1) / s.cfg.w = s.cfg.h - 1 := by
    have hh := s.cfg.h_pos
    have hmul : s.cfg.npix - 1 = s.cfg.w * (s.cfg.h - 1) + (s.cfg.w - 1) := by
      have : s.cfg.w * s.cfg.h = s.cfg.w * (s.cfg.h - 1) + s.cfg.w := by
        conv_lhs => rw [show s.cfg.h = (s.cfg.h - 1) + 1 by omega, Nat.mul_add, Nat.mul_one]
      unfold Params.npix
      omega
    rw [hmul, Nat.mul_add_mod, Nat.mul_add_div hw, Nat.mod_eq_of_lt (by omega), Nat.div_eq_of_lt (by omega)]
    simp
  rw [hq.1] at ihx
  rw [hq.2] at ihy
  rw [diffuseOne_cx, hcfg, if_neg (by omega), if_pos]
  · simp only [BitVec.toNat_ofNat]
    omega
  · apply BitVec.eq_of_toNat_eq
    rw [ihy]
    simp

end Sys2Proof.Machine
end

