-- ==== Sys2Proof/Laws/Bodies.lean ====
section
/-!
SUPPORT. What each command's body changes, and what it does to the memories: one frame for each body (R38, R57, R109).
-/

namespace Sys2Proof.Machine

/-- The zero-fill changes the frame buffer, `FBV` and its counter (R106). -/
theorem fbinitBody_frame (b : State) :
    fbinitBody b = { b with fb := (fbinitBody b).fb, fbv := true, filla := b.filla + b.cfg.npix } := by
  unfold fbinitBody
  have h := fillCell_iterate b.cfg.npix b
  generalize State.fillCell^[b.cfg.npix] b = t at h
  unfold State.setFbv
  rw [h]

/-- The zero-fill, cell by cell (R106). -/
theorem fbinitBody_read (b : State) (h0 : b.filla = 0) (a : Nat) :
    Memory.read? (fbinitBody b).fb a = if a < b.cfg.npix then some 0#8 else Memory.read? b.fb a := by
  unfold fbinitBody
  rw [State.setFbv_fb, fillCell_iterate_read, h0, Nat.zero_add]
  simp

/-- Outside RAM mode `PALINIT` does nothing (R92). -/
theorem palinitBody_of_not_ram {b : State} (h : b.cfg.palMode ≠ .ram) : palinitBody b = b := if_neg h

/-- The palette fill changes the cache, `PALV`, its counter and the request port (R92). -/
theorem palinitBody_frame {b : State} (h : b.cfg.palMode = .ram) (h0 : b.pali = 0) :
    palinitBody b = { b with palc := (palinitBody b).palc, palv := true, pali := 256, palWait := false,
                             palLog := b.palLog ++ (List.range 256).map fun k => BitVec.ofNat 8 k } := by
  unfold palinitBody
  rw [if_pos h]
  have hf := fillColor_iterate 256 b
  have hw : (State.fillColor^[256] b).palWait = false :=
    congrArg State.palWait ((Function.iterate_succ_apply' State.fillColor 255 b).trans (fillColor_eq _))
  generalize State.fillColor^[256] b = t at hf hw
  unfold State.setPalv
  rw [hw] at hf
  rw [hf]
  simp [h0]

/-- The palette fill, entry by entry (R92). -/
theorem palinitBody_read {b : State} (h : b.cfg.palMode = .ram) (h0 : b.pali = 0) (k : Nat) :
    Memory.read? (palinitBody b).palc k =
      if k < 256 then some (palSrcAt b.cfg.toParams (BitVec.ofNat 8 k)) else Memory.read? b.palc k := by
  unfold palinitBody
  rw [if_pos h, State.setPalv_palc, fillColor_iterate_read, h0]
  simp

/-- The injection changes the frame buffer, `COL` and the RandomSource (R124). -/
theorem injectBody_frame (b : State) :
    injectBody b = { b with fb := (injectBody b).fb, col := (injectBody b).col, draws := b.draws + 1, rngWait := false,
                            rngScript := (injectBody b).rngScript } := rfl

/-- The cell the injection changes (R124). -/
theorem injectBody_fb (b : State) :
    (injectBody b).fb = Memory.write b.fb (addr b.cfg.toParams (b.drawn.toNat % b.cfg.w) (b.cfg.h - 1))
      (satAdd8 (b.cellAt (b.drawn.toNat % b.cfg.w) (b.cfg.h - 1)) 8#8) := rfl

/-- A pass changes the frame buffer and the datapath registers (R125). -/
theorem diffuseBody_frame (b : State) :
    diffuseBody b = { b with c := (diffuseBody b).c, lf := (diffuseBody b).lf, rt := (diffuseBody b).rt,
                             up := (diffuseBody b).up, dn := (diffuseBody b).dn, acc := (diffuseBody b).acc,
                             fb := (diffuseBody b).fb, cx := (diffuseBody b).cx, cy := (diffuseBody b).cy } :=
  diffuseOne_iterate_frame b.cfg.npix b

/-- A simulation step changes what an injection and a pass change (R127). -/
theorem simBody_frame (b : State) :
    simBody b = { b with phase := .diffuse, c := (simBody b).c, lf := (simBody b).lf, rt := (simBody b).rt,
                         up := (simBody b).up, dn := (simBody b).dn, acc := (simBody b).acc, fb := (simBody b).fb,
                         cx := (simBody b).cx, cy := (simBody b).cy, col := (simBody b).col, draws := b.draws + 1,
                         rngWait := false, rngScript := (simBody b).rngScript } := by
  unfold simBody
  have h := diffuseBody_frame ((injectBody b).enter .diffuse)
  generalize diffuseBody ((injectBody b).enter .diffuse) = t at h
  rw [h]
  simp only [State.enter]
  rw [injectBody_frame]

/-- A tick changes what a simulation step and a scan change, and the idle counter (R171). -/
theorem tickBody_frame (b : State) :
    tickBody b = { b with phase := .idledly, c := (tickBody b).c, lf := (tickBody b).lf, rt := (tickBody b).rt,
                          up := (tickBody b).up, dn := (tickBody b).dn, acc := (tickBody b).acc, fb := (tickBody b).fb,
                          cx := (tickBody b).cx, cy := (tickBody b).cy, col := (tickBody b).col, draws := b.draws + 1,
                          rngWait := false, rngScript := (tickBody b).rngScript, pos := (tickBody b).pos,
                          bitk := (tickBody b).bitk, cyc := (tickBody b).cyc, pfc := (tickBody b).pfc,
                          lcnt := b.cfg.tLatch, sr := (tickBody b).sr, nx := (tickBody b).nx, port := 0,
                          wave := (tickBody b).wave, palLog := (tickBody b).palLog, palWait := (tickBody b).palWait,
                          icnt := b.cfg.tIdle } := by
  unfold tickBody
  have h1 := simBody_frame b
  generalize simBody b = t at h1
  have h2 := scanBody_frame (t.enter .prefetch)
  generalize scanBody (t.enter .prefetch) = u at h2
  simp only [idleBody, State.setIcnt, State.emit, State.enter]
  rw [h2]
  simp only [State.enter]
  rw [h1]

end Sys2Proof.Machine
end

