-- ==== Sys2Proof/Laws/Cycle.lean ====
section
/-!
SUPPORT. The cycle machine phase by phase: from the start of a phase, its cycles are what the command's meaning does in that
phase, and then the sequencer moves on as R173 says.
-/

namespace Sys2Proof.Machine

/-- While a cycle does what `g` does, the cycles do what the iterates of `g` do. -/
theorem clock_iterate {g : State → State} {b : State} {n : Nat}
    (h : ∀ k < n, (g^[k] b).clock = g (g^[k] b)) : State.clock^[n] b = g^[n] b := by
  induction n with
  | zero => rfl
  | succ n ih =>
    rw [Function.iterate_succ_apply', Function.iterate_succ_apply', ih fun k hk => h k (by omega), h n (by omega)]

/-- The same, when the last cycle of the phase differs. -/
theorem clock_iterate_last {g : State → State} {b : State} {n : Nat} (hn : 0 < n)
    (h : ∀ k < n - 1, (g^[k] b).clock = g (g^[k] b)) : State.clock^[n] b = (g^[n - 1] b).clock := by
  obtain ⟨m, rfl⟩ : ∃ m, n = m + 1 := ⟨n - 1, by omega⟩
  rw [Function.iterate_succ_apply', clock_iterate (n := m) fun k hk => h k (by omega)]
  rfl

theorem quiet_eq {s : State} (h : s.rspValid = false) : s.quiet = s := by
  cases s
  simp_all [State.quiet]

/-- Phase `FBINIT` (R106). -/
theorem clock_fbinit {b : State} (hp : b.phase = .fbinit) (hq : b.rspValid = false) (h0 : b.filla = 0) :
    State.clock^[b.cfg.npix] b = (fbinitBody b).respond 0#32 := by
  have hn := b.cfg.npix_pos
  have key : ∀ k, (State.fillCell^[k] b).clock = (State.fillCell^[k] b).fbinitCycle := by
    intro k
    have hf := fillCell_iterate k b
    generalize State.fillCell^[k] b = t at hf
    have e1 : t.phase = .fbinit := by rw [hf]; exact hp
    have e2 : t.rspValid = false := by rw [hf]; exact hq
    unfold State.clock
    rw [e1]
    simp only [quiet_eq e2]
  have hfilla : ∀ k, (State.fillCell^[k] b).filla = k := fun k => by rw [fillCell_iterate]; simp [h0]
  have hcfg : ∀ k, (State.fillCell^[k] b).cfg = b.cfg := fun k => by rw [fillCell_iterate]
  rw [clock_iterate_last (g := State.fillCell) hn, key]
  · unfold State.fbinitCycle
    rw [hfilla, hcfg, if_neg (by omega)]
    unfold fbinitBody
    conv_rhs => rw [show b.cfg.npix = (b.cfg.npix - 1) + 1 by omega, Function.iterate_succ_apply']
  · intro k hk
    rw [key]
    unfold State.fbinitCycle
    rw [hfilla, hcfg, if_pos (by omega)]

/-- Phase `PALINIT` (R92), when the color source answers. -/
theorem clock_palinit {b : State} (hp : b.phase = .palinit) (hq : b.rspValid = false) (h0 : b.pali = 0)
    (hs : b.cfg.palMode = .ram → b.palSilent = false) :
    ∃ n, State.clock^[n + 1] b = (palinitBody b).respond 0#32 := by
  by_cases hm : b.cfg.palMode = .ram
  · refine ⟨255, ?_⟩
    have key : ∀ k, (State.fillColor^[k] b).clock = (State.fillColor^[k] b).palinitCycle := by
      intro k
      have hf := fillColor_iterate k b
      generalize State.fillColor^[k] b = t at hf
      have e1 : t.phase = .palinit := by rw [hf]; exact hp
      have e2 : t.rspValid = false := by rw [hf]; exact hq
      unfold State.clock
      rw [e1]
      simp only [quiet_eq e2]
    have hpali : ∀ k, (State.fillColor^[k] b).pali = k := fun k => by rw [fillColor_iterate]; simp [h0]
    have hcfg : ∀ k, (State.fillColor^[k] b).cfg = b.cfg := fun k => by rw [fillColor_iterate]
    have hst : ∀ k, (State.fillColor^[k] b).colorStuck = false := fun k => by
      have : (State.fillColor^[k] b).palSilent = false := by rw [fillColor_iterate]; exact hs hm
      simp [State.colorStuck, this]
    rw [clock_iterate_last (g := State.fillColor) (by omega), key]
    · unfold State.palinitCycle
      rw [hcfg, if_pos hm, hst, hpali]
      simp only [Bool.false_eq_true, if_false, Nat.reduceSub, Nat.reduceAdd, Nat.lt_irrefl]
      have e : State.fillColor^[256] b = (State.fillColor^[255] b).fillColor := Function.iterate_succ_apply' _ 255 b
      unfold palinitBody
      rw [if_pos hm, e]
    · intro k hk
      rw [key]
      unfold State.palinitCycle
      rw [hcfg, if_pos hm, hst, hpali]
      simp only [Bool.false_eq_true, if_false]
      rw [if_pos (by omega)]
  · refine ⟨0, ?_⟩
    show b.clock = _
    unfold State.clock
    rw [hp]
    simp only [quiet_eq hq]
    unfold State.palinitCycle palinitBody
    rw [if_neg hm, if_neg hm]

/-- A draw waits through the silent cycles of the script; the injection that follows is the same (R57). -/
theorem injectBody_wait {b : State} {t : List (Option Byte)} (h : b.rngScript = none :: t) :
    injectBody { b with rngScript := t, rngWait := true } = injectBody b := by
  unfold injectBody State.afterDraw State.drawn
  simp only [h, untilAnswer]

/-- Phase `INJECT` (R124), when the RandomSource answers. -/
theorem clock_inject {b : State} (hp : b.phase = .inject) (hq : b.rspValid = false) (hs : b.rngStuck = false) :
    ∃ n, State.clock^[n + 1] b = (injectBody b).afterInject := by
  generalize hl : b.rngScript = l
  induction l generalizing b with
  | nil =>
    refine ⟨0, ?_⟩
    have h1 : b.rngSilent = false := by simpa [State.rngStuck, hl] using hs
    show b.clock = _
    unfold State.clock
    rw [hp]
    simp only [quiet_eq hq]
    unfold State.injectCycle
    simp [hl, h1]
  | cons x t ih =>
    cases x with
    | some v =>
      refine ⟨0, ?_⟩
      show b.clock = _
      unfold State.clock
      rw [hp]
      simp only [quiet_eq hq]
      unfold State.injectCycle
      simp [hl]
    | none =>
      have hs' : State.rngStuck { b with rngScript := t, rngWait := true } = false := by
        simpa [State.rngStuck, hl] using hs
      obtain ⟨n, hn⟩ := ih (b := { b with rngScript := t, rngWait := true }) hp hq hs' rfl
      refine ⟨n + 1, ?_⟩
      have hc : b.clock = { b with rngScript := t, rngWait := true } := by
        unfold State.clock
        rw [hp]
        simp only [quiet_eq hq]
        unfold State.injectCycle
        simp [hl, hp]
      rw [Function.iterate_succ_apply, hc, hn, injectBody_wait hl]

/-- Phase `DIFFUSE` (R125). -/
theorem clock_diffuse {b : State} (hp : b.phase = .diffuse) (hq : b.rspValid = false) (hx : b.cx = 0#9)
    (hy : b.cy = BitVec.ofNat 9 (b.cfg.h - 1)) :
    State.clock^[b.cfg.npix] b = (diffuseBody b).afterDiffuse := by
  have hn := b.cfg.npix_pos
  have key : ∀ k, (State.diffuseOne^[k] b).clock = (State.diffuseOne^[k] b).diffuseCycle := by
    intro k
    have hf := diffuseOne_iterate_frame k b
    generalize State.diffuseOne^[k] b = t at hf
    have e1 : t.phase = .diffuse := by rw [hf]; exact hp
    have e2 : t.rspValid = false := by rw [hf]; exact hq
    unfold State.clock
    rw [e1]
    simp only [quiet_eq e2]
  rw [clock_iterate_last (g := State.diffuseOne) hn, key]
  · have he := diffuse_end hx hy
    unfold State.diffuseCycle diffuseBody
    rw [show b.cfg.npix = (b.cfg.npix - 1) + 1 by omega, Function.iterate_succ_apply'] at he
    rw [he, diffuseOne_iterate_cfg, if_neg (by omega)]
    conv_rhs => rw [show b.cfg.npix = (b.cfg.npix - 1) + 1 by omega, Function.iterate_succ_apply']
  · intro k hk
    rw [key]
    unfold State.diffuseCycle
    have hpl := (diffuse_place hx hy (k := k + 1) (by omega)).1
    rw [Function.iterate_succ_apply'] at hpl
    have := Nat.mod_lt (k + 1) b.cfg.w_pos
    rw [hpl, diffuseOne_iterate_cfg, if_pos this]

/-- The color source answers, or the scan does not need it (R190 d). -/
def State.colorsAnswered (s : State) : Prop := s.cfg.palMode = .ram ∨ s.palSilent = false

theorem colorStuck_of_answered {s : State} (h : s.colorsAnswered) (hp : s.phase = .prefetch ∨ s.phase = .shift) :
    s.colorStuck = false := by
  unfold State.colorStuck
  rcases h with h | h
  · rcases hp with hp | hp <;> simp [h, hp]
  · simp [h]

/-- Phase `PREFETCH` (R149). -/
theorem clock_prefetch {b : State} (hp : b.phase = .prefetch) (hq : b.rspValid = false) (h0 : b.pfc = 0)
    (hs : b.colorsAnswered) : State.clock^[b.cfg.n] b = (prefetchBody b).enter .shift := by
  have hn := b.cfg.n_pos
  have key : ∀ k, ((State.fetch 0)^[k] b).clock = ((State.fetch 0)^[k] b).prefetchCycle ∧
      ((State.fetch 0)^[k] b).colorStuck = false ∧ ((State.fetch 0)^[k] b).pfc = k ∧
      ((State.fetch 0)^[k] b).cfg = b.cfg := by
    intro k
    have hf := fetch_iterate_frame 0 k b
    generalize (State.fetch 0)^[k] b = t at hf
    have e1 : t.phase = .prefetch := by rw [hf]; exact hp
    have e2 : t.rspValid = false := by rw [hf]; exact hq
    have e3 : t.cfg = b.cfg := by rw [hf]
    have e4 : t.palSilent = b.palSilent := by rw [hf]
    refine ⟨?_, colorStuck_of_answered ?_ (.inl e1), by rw [hf]; simp [h0], e3⟩
    · unfold State.clock
      rw [e1]
      simp only [quiet_eq e2]
    · unfold State.colorsAnswered
      rw [e3, e4]
      exact hs
  rw [clock_iterate_last (g := State.fetch 0) hn, (key _).1]
  · unfold State.prefetchCycle
    rw [(key _).2.1, (key _).2.2.1, (key _).2.2.2]
    simp only [Bool.false_eq_true, if_false]
    rw [if_neg (by omega)]
    unfold prefetchBody
    conv_rhs => rw [show b.cfg.n = (b.cfg.n - 1) + 1 by omega, Function.iterate_succ_apply']
  · intro k hk
    rw [(key k).1]
    unfold State.prefetchCycle
    rw [(key k).2.1, (key k).2.2.1, (key k).2.2.2]
    simp only [Bool.false_eq_true, if_false]
    rw [if_pos (by omega)]

/-- A fetch does not see the place within the bit time, the port or the record. -/
theorem fetch_update (q : Nat) (t : State) (k j : Nat) (v : PortVal) (r : List (PortVal × Nat)) :
    State.fetch q { t with bitk := k, cyc := j, port := v, wave := r } =
      { State.fetch q t with bitk := k, cyc := j, port := v, wave := r } := by
  unfold State.fetch State.logLookup
  simp only
  split <;> rfl

/-- The port level `m` cycles into a chain position whose words are in `r`. -/
def posLevel (p : Params) (r : List Color) (m : Nat) : PortVal := bitLevel p (patternOf p r (m / p.tbit)) (m % p.tbit)

/-- How many fetches of the next position are done `m` cycles into a position. -/
def State.fetched (s : State) (m : Nat) : Nat := if s.pos + 1 < s.cfg.l then min m s.cfg.n else 0

/-- The state `m` cycles into the chain position that starts at `s`. -/
def State.within (s : State) (m : Nat) : State :=
  { (State.fetch (s.pos + 1))^[s.fetched m] s with
    bitk := m / s.cfg.tbit, cyc := m % s.cfg.tbit, port := posLevel s.cfg.toParams s.sr m,
    wave := pushEach (posLevel s.cfg.toParams s.sr) m s.wave }

/-- One bit time is three runs (R145). -/
theorem pushEach_bit (p : Params) (hb : 0 < p.tbit) (r : List Color) (k : Nat) (w : List (PortVal × Nat)) :
    pushEach (posLevel p r) (p.tbit * (k + 1)) w =
      pushWave 0 p.tl (pushWave (patternOf p r k) p.tp (pushWave (highMask p) p.th
        (pushEach (posLevel p r) (p.tbit * k) w))) := by
  have hlev : ∀ j, j < p.tbit → posLevel p r (p.tbit * k + j) = bitLevel p (patternOf p r k) j := by
    intro j hj
    unfold posLevel
    rw [Nat.mul_add_div hb, Nat.mul_add_mod, Nat.div_eq_of_lt hj, Nat.mod_eq_of_lt hj, Nat.add_zero]
  rw [show p.tbit * (k + 1) = p.tbit * k + p.th + p.tp + p.tl by unfold Params.tbit; rw [Nat.mul_add]; omega]
  rw [pushEach_const (a := p.tbit * k + p.th + p.tp) (n := p.tl) (v := 0),
    pushEach_const (a := p.tbit * k + p.th) (n := p.tp) (v := patternOf p r k),
    pushEach_const (a := p.tbit * k) (n := p.th) (v := highMask p)]
  · intro j h1 h2
    obtain ⟨i, rfl⟩ : ∃ i, j = p.tbit * k + i := ⟨j - p.tbit * k, by omega⟩
    rw [hlev i (by unfold Params.tbit; omega), bitLevel, if_pos (by omega)]
  · intro j h1 h2
    obtain ⟨i, rfl⟩ : ∃ i, j = p.tbit * k + i := ⟨j - p.tbit * k, by omega⟩
    rw [hlev i (by unfold Params.tbit; omega), bitLevel, if_neg (by omega), if_pos (by omega)]
  · intro j h1 h2
    obtain ⟨i, rfl⟩ : ∃ i, j = p.tbit * k + i := ⟨j - p.tbit * k, by omega⟩
    rw [hlev i (by unfold Params.tbit; omega), bitLevel, if_neg (by omega), if_neg (by omega)]

/-- The record after all 24 bit times is the one `sendWord` makes. -/
theorem pushEach_word (s : State) (hb : 0 < s.cfg.tbit) :
    pushEach (posLevel s.cfg.toParams s.sr) (s.cfg.tbit * 24) s.wave = s.sendWord.wave := by
  have h : ∀ n, pushEach (posLevel s.cfg.toParams s.sr) (s.cfg.tbit * n) s.wave =
      ((List.range n).foldl State.bitTime s).wave := by
    intro n
    induction n with
    | zero => rfl
    | succ n ih =>
      rw [pushEach_bit _ hb, ih, List.range_succ, List.foldl_append]
      have hf := (foldl_bitTime (List.range n) s).1
      generalize (List.range n).foldl State.bitTime s = t at hf
      show _ = (t.bitTime n).wave
      rw [bitTime_eq]
      have e1 : t.cfg = s.cfg := by rw [hf]
      have e2 : t.sr = s.sr := by rw [hf]
      rw [e1, e2]
  exact h 24

theorem fetched_le (s : State) (m : Nat) : s.fetched m ≤ m := by
  unfold State.fetched
  split <;> omega

/-- What a position in progress has changed so far. -/
theorem within_frame (s : State) (m : Nat) :
    s.within m =
      { s with nx := (s.within m).nx, pfc := s.pfc + s.fetched m, palLog := (s.within m).palLog,
               palWait := (s.within m).palWait, bitk := m / s.cfg.tbit, cyc := m % s.cfg.tbit,
               port := posLevel s.cfg.toParams s.sr m,
               wave := pushEach (posLevel s.cfg.toParams s.sr) m s.wave } := by
  unfold State.within
  rw [fetch_iterate_frame]

/-- One cycle of `SHIFT` before the place moves on: the cycle is recorded, and one fetch is done if one is due. -/
theorem shift_prepare {s : State} (hp : s.phase = .shift) (hq : s.rspValid = false) (h0 : s.pfc = 0)
    (hs : s.colorsAnswered) (m : Nat) :
    (s.within m).clock =
      { (State.fetch (s.pos + 1))^[s.fetched (m + 1)] s with
        bitk := m / s.cfg.tbit, cyc := m % s.cfg.tbit, port := posLevel s.cfg.toParams s.sr m,
        wave := pushEach (posLevel s.cfg.toParams s.sr) (m + 1) s.wave }.nextCycle := by
  have hw := within_frame s m
  have e1 : (s.within m).phase = .shift := by rw [hw]; exact hp
  have e2 : (s.within m).rspValid = false := by rw [hw]; exact hq
  have e3 : (s.within m).observe.quiet =
      { (State.fetch (s.pos + 1))^[s.fetched m] s with
        bitk := m / s.cfg.tbit, cyc := m % s.cfg.tbit, port := posLevel s.cfg.toParams s.sr m,
        wave := pushEach (posLevel s.cfg.toParams s.sr) (m + 1) s.wave } := by
    rw [quiet_eq (by rw [State.observe_rspValid]; exact e2)]
    unfold State.observe
    rw [if_pos (.inl e1)]
    rfl
  unfold State.clock
  rw [e1]
  simp only [e3]
  have hf := fetch_iterate_frame (s.pos + 1) (s.fetched m) s
  have hsucc : (State.fetch (s.pos + 1))^[s.fetched m + 1] s =
      ((State.fetch (s.pos + 1))^[s.fetched m] s).fetch (s.pos + 1) := Function.iterate_succ_apply' _ _ _
  generalize ht : (State.fetch (s.pos + 1))^[s.fetched m] s = t at hf hsucc
  have f1 : t.phase = .shift := by rw [hf]; exact hp
  have f2 : t.cfg = s.cfg := by rw [hf]
  have f3 : t.pos = s.pos := by rw [hf]
  have f4 : t.pfc = s.fetched m := by rw [hf]; simp [h0]
  have f5 : t.palSilent = s.palSilent := by rw [hf]
  unfold State.shiftCycle
  by_cases h1 : s.pos + 1 < s.cfg.l ∧ m < s.cfg.n
  · have hm : s.fetched m = m := by unfold State.fetched; rw [if_pos h1.1]; omega
    have hm1 : s.fetched (m + 1) = s.fetched m + 1 := by unfold State.fetched; rw [if_pos h1.1, if_pos h1.1]; omega
    rw [if_pos, if_neg, hm1, hsucc]
    · have hu := fetch_update (s.pos + 1) t (m / s.cfg.tbit) (m % s.cfg.tbit) (posLevel s.cfg.toParams s.sr m)
        (pushEach (posLevel s.cfg.toParams s.sr) (m + 1) s.wave)
      refine Eq.trans ?_ (congrArg State.nextCycle hu)
      rw [← f3]
    · rw [colorStuck_of_answered]
      · simp
      · unfold State.colorsAnswered
        simp only [f2, f5]
        exact hs
      · exact .inr f1
    · simp [State.fetching, f1, f2, f3, f4, hm, h1]
  · have hm1 : s.fetched (m + 1) = s.fetched m := by
      unfold State.fetched
      split <;> omega
    rw [if_neg, hm1, ht]
    · have hge : ¬ (s.pos + 1 < s.cfg.l ∧ s.fetched m < s.cfg.n) := by
        intro hc
        apply h1
        refine ⟨hc.1, ?_⟩
        have := hc.2
        unfold State.fetched at this
        rw [if_pos hc.1] at this
        omega
      simp only [State.fetching, f1, f2, f3, f4]
      simp only [reduceCtorEq, decide_false, Bool.false_or, decide_true, Bool.true_and, Bool.and_eq_true,
        decide_eq_true_eq]
      exact hge

theorem succ_div_mod_of_lt {m b : Nat} (h : m % b + 1 < b) : (m + 1) / b = m / b ∧ (m + 1) % b = m % b + 1 := by
  have hb : 0 < b := by omega
  have hdm := Nat.div_add_mod m b
  constructor
  · conv_lhs => rw [← hdm, Nat.add_assoc, Nat.mul_add_div hb, Nat.div_eq_of_lt h]
    rfl
  · conv_lhs => rw [← hdm, Nat.add_assoc, Nat.mul_add_mod, Nat.mod_eq_of_lt h]

theorem succ_div_mod_of_eq {m b : Nat} (hb : 0 < b) (h : ¬ m % b + 1 < b) :
    (m + 1) / b = m / b + 1 ∧ (m + 1) % b = 0 := by
  have hdm := Nat.div_add_mod m b
  have hlt := Nat.mod_lt m hb
  have he : m % b + 1 = b := by omega
  constructor
  · conv_lhs => rw [← hdm, Nat.add_assoc, Nat.mul_add_div hb, he, Nat.div_self hb]
  · conv_lhs => rw [← hdm, Nat.add_assoc, Nat.mul_add_mod, he, Nat.mod_self]

/-- Within a position the place moves on cycle by cycle, and the port follows it (R146). -/
theorem within_clock {s : State} (hp : s.phase = .shift) (hq : s.rspValid = false) (h0 : s.pfc = 0)
    (hs : s.colorsAnswered) {m : Nat} (hm : m + 1 < s.cfg.tbit * 24) : (s.within m).clock = s.within (m + 1) := by
  have hb := s.cfg.tbit_pos
  rw [shift_prepare hp hq h0 hs]
  have hf := fetch_iterate_frame (s.pos + 1) (s.fetched (m + 1)) s
  unfold State.within
  generalize (State.fetch (s.pos + 1))^[s.fetched (m + 1)] s = t at hf
  have f2 : t.cfg = s.cfg := by rw [hf]
  have f3 : t.sr = s.sr := by rw [hf]
  unfold State.nextCycle State.setPlace posLevel
  simp only [f2]
  by_cases h1 : m % s.cfg.tbit + 1 < s.cfg.tbit
  · obtain ⟨d1, d2⟩ := succ_div_mod_of_lt h1
    rw [if_pos h1, d1, d2]
    unfold State.drive
    simp only [f3]
  · obtain ⟨d1, d2⟩ := succ_div_mod_of_eq hb h1
    have h2 : m / s.cfg.tbit + 1 < 24 := by
      rw [← d1]
      exact Nat.div_lt_of_lt_mul hm
    rw [if_neg h1, if_pos h2, d1, d2]
    unfold State.drive
    simp only [f3]

/-- At its start a position has sent nothing yet. -/
theorem within_zero {s : State} (hb : s.bitk = 0) (hc : s.cyc = 0) (ho : s.port = highMask s.cfg.toParams) :
    s.within 0 = s := by
  have hth := s.cfg.th_pos
  have hf : s.fetched 0 = 0 := by
    unfold State.fetched
    split <;> simp
  unfold State.within
  rw [hf]
  simp only [pushEach, posLevel]
  cases s
  simp_all [bitLevel]

/-- A state of phase `SHIFT` at the start of a chain position. -/
structure AtPosition (s : State) : Prop where
  phase : s.phase = .shift
  quiet : s.rspValid = false
  pfc : s.pfc = 0
  bitk : s.bitk = 0
  cyc : s.cyc = 0
  port : s.port = highMask s.cfg.toParams
  answered : s.colorsAnswered
  pos : s.pos < s.cfg.l

theorem clock_within {s : State} (h : AtPosition s) {m : Nat} (hm : m < s.cfg.tbit * 24) :
    State.clock^[m] s = s.within m := by
  induction m with
  | zero => exact (within_zero h.bitk h.cyc h.port).symm
  | succ m ih => rw [Function.iterate_succ_apply', ih (by omega), within_clock h.phase h.quiet h.pfc h.answered hm]

/-- The 24 bit times of a chain position, cycle by cycle, are what `sendPosition` does (R145, R149, R152). -/
theorem clock_position {s : State} (h : AtPosition s) :
    State.clock^[s.cfg.tbit * 24] s =
      if s.pos + 1 < s.cfg.l then s.sendPosition else s.sendPosition.enter .latch := by
  have hb := s.cfg.tbit_pos
  obtain ⟨n, hn⟩ : ∃ n, s.cfg.tbit * 24 = n + 1 := ⟨s.cfg.tbit * 24 - 1, by omega⟩
  rw [hn, Function.iterate_succ_apply', clock_within h (by omega), shift_prepare h.phase h.quiet h.pfc h.answered]
  have hdiv : n / s.cfg.tbit = 23 ∧ n % s.cfg.tbit = s.cfg.tbit - 1 := by
    have : n = s.cfg.tbit * 23 + (s.cfg.tbit - 1) := by omega
    rw [this, Nat.mul_add_div hb, Nat.mul_add_mod, Nat.div_eq_of_lt (by omega), Nat.mod_eq_of_lt (by omega)]
    simp
  rw [hdiv.1, hdiv.2, ← hn, pushEach_word s hb]
  have hfet : s.fetched (n + 1) = if s.pos + 1 < s.cfg.l then s.cfg.n else 0 := by
    unfold State.fetched
    split
    · next hl =>
      have := s.cfg.n_le (by omega)
      omega
    · rfl
  rw [← hn] at hfet
  rw [hfet]
  unfold State.sendPosition
  by_cases hl : s.pos + 1 < s.cfg.l
  · simp only [if_pos hl]
    have hf := fetch_iterate_frame (s.pos + 1) s.cfg.n s
    generalize (State.fetch (s.pos + 1))^[s.cfg.n] s = t at hf
    have f2 : t.cfg = s.cfg := by rw [hf]
    have f3 : t.sr = s.sr := by rw [hf]
    have f4 : t.pos = s.pos := by rw [hf]
    have f5 : t.sendWord.wave = s.sendWord.wave := by
      have e : t.wave = s.wave := by rw [hf]
      rw [← pushEach_word t (by rw [f2]; exact hb), ← pushEach_word s hb, f2, f3, e]
    unfold State.nextCycle State.setPlace
    simp only [f2, f4]
    rw [if_neg (by omega), if_neg (by omega), if_pos hl, sendWord_frame t, f5]
    unfold State.nextPosition
    simp only [f2, f4, if_pos hl]
  · simp only [if_neg hl, Function.iterate_zero, id_eq]
    unfold State.nextCycle State.setPlace
    simp only
    rw [if_neg (by omega), if_neg (by omega), if_neg hl]
    conv_rhs => rw [sendWord_frame s]
    unfold State.nextPosition
    simp only [if_neg hl]

/-- After a position that is not the last, the next one starts. -/
theorem atPosition_next {s : State} (h : AtPosition s) (hl : s.pos + 1 < s.cfg.l) : AtPosition s.sendPosition := by
  have hf := sendPosition_frame s
  have hcfg : s.sendPosition.cfg = s.cfg := by rw [hf]
  refine ⟨by rw [hf]; exact h.phase, by rw [hf]; exact h.quiet, ((sendPosition_spec s h.pfc).2 hl).1, by rw [hf],
    by rw [hf], ?_, ?_, by rw [hcfg, hf]; exact hl⟩
  · unfold State.sendPosition
    simp only [if_pos hl]
    have h1 := fetch_iterate_frame (s.pos + 1) s.cfg.n s
    generalize (State.fetch (s.pos + 1))^[s.cfg.n] s = t at h1
    have h2 := sendWord_frame t
    generalize t.sendWord = u at h2
    have e1 : u.cfg = s.cfg := by rw [h2, h1]
    have e2 : u.pos = s.pos := by rw [h2, h1]
    unfold State.nextPosition
    simp only [e1, e2, if_pos hl]
  · unfold State.colorsAnswered
    rw [hcfg, show s.sendPosition.palSilent = s.palSilent by rw [hf]]
    exact h.answered

/-- Phase `SHIFT`: `24 * L` bit times, back to back (R146, R149). -/
theorem clock_shift {s : State} (h : AtPosition s) (h0 : s.pos = 0) :
    State.clock^[s.cfg.tbit * 24 * s.cfg.l] s = (shiftBody s).enter .latch := by
  have hlp := s.cfg.l_pos
  have key : ∀ q, q < s.cfg.l →
      State.clock^[s.cfg.tbit * 24 * q] s = State.sendPosition^[q] s ∧ AtPosition (State.sendPosition^[q] s) := by
    intro q hq
    induction q with
    | zero => exact ⟨rfl, h⟩
    | succ q ih =>
      obtain ⟨ih1, ih2⟩ := ih (by omega)
      have hf := sendPosition_iterate_frame q s
      have hcfg : (State.sendPosition^[q] s).cfg = s.cfg := by rw [hf]
      have hpos : (State.sendPosition^[q] s).pos = q := by rw [hf]; simp [h0]
      have hstep := clock_position ih2
      have hl : (State.sendPosition^[q] s).pos + 1 < (State.sendPosition^[q] s).cfg.l := by rw [hcfg, hpos]; exact hq
      rw [if_pos hl, hcfg] at hstep
      refine ⟨?_, ?_⟩
      · rw [Nat.mul_succ, Nat.add_comm, Function.iterate_add_apply, ih1, hstep, Function.iterate_succ_apply']
      · rw [Function.iterate_succ_apply']
        exact atPosition_next ih2 hl
  obtain ⟨n, hn⟩ : ∃ n, s.cfg.l = n + 1 := ⟨s.cfg.l - 1, by omega⟩
  obtain ⟨k1, k2⟩ := key n (by omega)
  have hf := sendPosition_iterate_frame n s
  have hcfg : (State.sendPosition^[n] s).cfg = s.cfg := by rw [hf]
  have hpos : (State.sendPosition^[n] s).pos = n := by rw [hf]; simp [h0]
  have hstep := clock_position k2
  rw [if_neg (by rw [hcfg, hpos]; omega), hcfg] at hstep
  unfold shiftBody
  rw [hn, Nat.mul_succ, Nat.add_comm, Function.iterate_add_apply, k1, hstep, Function.iterate_succ_apply']

/-- One cycle of `LATCH` records a low port (R148). -/
theorem clock_latch_cycle {u : State} (hp : u.phase = .latch) (hq : u.rspValid = false) (ho : u.port = 0) :
    u.clock = (u.emit 0 1).latchCycle := by
  unfold State.clock
  rw [hp]
  simp only [quiet_eq (s := u.observe) (by rw [State.observe_rspValid]; exact hq)]
  unfold State.observe
  rw [if_pos (.inr (.inl hp)), ho]

/-- One cycle of `IDLEDLY` records a low port (R175). -/
theorem clock_idledly_cycle {u : State} (hp : u.phase = .idledly) (hq : u.rspValid = false) (ho : u.port = 0) :
    u.clock = (u.emit 0 1).idleCycle := by
  unfold State.clock
  rw [hp]
  simp only [quiet_eq (s := u.observe) (by rw [State.observe_rspValid]; exact hq)]
  unfold State.observe
  rw [if_pos (.inr (.inr hp)), ho]

/-- Phase `LATCH`: the port low for `T_LATCH` cycles, then the sequencer moves on (R148, R173). -/
theorem clock_latch {s : State} (hp : s.phase = .latch) (hq : s.rspValid = false) (h0 : s.lcnt = 0) (ho : s.port = 0) :
    State.clock^[s.cfg.tLatch] s = (latchBody s).afterLatch := by
  have ht := s.cfg.tLatch_ge
  have hstep : ∀ k, k < s.cfg.tLatch →
      ({ s with lcnt := k, wave := pushWave 0 k s.wave } : State).clock =
        ({ s with lcnt := k, wave := pushWave 0 (k + 1) s.wave } : State).latchCycle := by
    intro k _
    rw [clock_latch_cycle (by exact hp) (by exact hq) (by exact ho)]
    simp only [State.emit, pushWave_pushWave]
  have key : ∀ k, k < s.cfg.tLatch →
      State.clock^[k] s = { s with lcnt := k, wave := pushWave 0 k s.wave } := by
    intro k hk
    induction k with
    | zero =>
      cases s
      simp_all
    | succ k ih =>
      rw [Function.iterate_succ_apply', ih (by omega), hstep k (by omega)]
      unfold State.latchCycle State.setLcnt
      simp only
      rw [if_pos hk]
  obtain ⟨n, hn⟩ : ∃ n, s.cfg.tLatch = n + 1 := ⟨s.cfg.tLatch - 1, by omega⟩
  rw [hn, Function.iterate_succ_apply', key n (by omega), hstep n (by omega)]
  unfold State.latchCycle State.setLcnt
  simp only
  rw [if_neg (by omega)]
  unfold latchBody State.emit State.setLcnt
  rw [hn]

/-- Phase `IDLEDLY`: the port low for `T_IDLE` cycles, then the sequencer moves on (R175, R173). -/
theorem clock_idledly {s : State} (hp : s.phase = .idledly) (hq : s.rspValid = false) (h0 : s.icnt = 0) (ho : s.port = 0)
    (ht : 0 < s.cfg.tIdle) : State.clock^[s.cfg.tIdle] s = (idleBody s).afterIdle := by
  have hstep : ∀ k, k < s.cfg.tIdle →
      ({ s with icnt := k, wave := pushWave 0 k s.wave } : State).clock =
        ({ s with icnt := k, wave := pushWave 0 (k + 1) s.wave } : State).idleCycle := by
    intro k _
    rw [clock_idledly_cycle (by exact hp) (by exact hq) (by exact ho)]
    simp only [State.emit, pushWave_pushWave]
  have key : ∀ k, k < s.cfg.tIdle →
      State.clock^[k] s = { s with icnt := k, wave := pushWave 0 k s.wave } := by
    intro k hk
    induction k with
    | zero =>
      cases s
      simp_all
    | succ k ih =>
      rw [Function.iterate_succ_apply', ih (by omega), hstep k (by omega)]
      unfold State.idleCycle State.setIcnt
      simp only
      rw [if_pos hk]
  obtain ⟨n, hn⟩ : ∃ n, s.cfg.tIdle = n + 1 := ⟨s.cfg.tIdle - 1, by omega⟩
  rw [hn, Function.iterate_succ_apply', key n (by omega), hstep n (by omega)]
  unfold State.idleCycle State.setIcnt
  simp only
  rw [if_neg (by omega)]
  unfold idleBody State.emit State.setIcnt
  rw [hn]

end Sys2Proof.Machine
end

