-- ==== Sys2Proof/Laws/Encoding.lean ====
section
/-!
SUPPORT. The fields of a command word (R71): a word is its five fields, and each field of the word packed from five is that field.
-/

namespace Sys2Proof

/-- The word `{OP, Z, YF, XF, VF}` (R71). -/
def packWord (op z : BitVec 4) (y x v : Byte) : Word32 := op ++ z ++ (y ++ x ++ v)

/-- The bits of a packed word, field by field. -/
theorem getLsbD_packWord (op z : BitVec 4) (y x v : Byte) (j : Nat) :
    (packWord op z y x v).getLsbD j =
      if j < 8 then v.getLsbD j
      else if j < 16 then x.getLsbD (j - 8)
      else if j < 24 then y.getLsbD (j - 16)
      else if j < 28 then z.getLsbD (j - 24)
      else op.getLsbD (j - 28) := by
  have h : (packWord op z y x v).getLsbD j = BitVec.getLsbD (w := 4 + 4 + (8 + 8 + 8)) (op ++ z ++ (y ++ x ++ v)) j := rfl
  rw [h]
  simp only [BitVec.getLsbD_append]
  split_ifs <;> first | rfl | omega

@[simp] theorem fieldOp_packWord (op z : BitVec 4) (y x v : Byte) : fieldOp (packWord op z y x v) = op := by
  unfold fieldOp
  ext j hj
  rw [BitVec.getElem_extractLsb', getLsbD_packWord, if_neg (by omega), if_neg (by omega), if_neg (by omega),
    if_neg (by omega)]
  simp [hj]

@[simp] theorem fieldZ_packWord (op z : BitVec 4) (y x v : Byte) : fieldZ (packWord op z y x v) = z := by
  unfold fieldZ
  ext j hj
  rw [BitVec.getElem_extractLsb', getLsbD_packWord, if_neg (by omega), if_neg (by omega), if_neg (by omega),
    if_pos (by omega)]
  simp [hj]

@[simp] theorem fieldY_packWord (op z : BitVec 4) (y x v : Byte) : fieldY (packWord op z y x v) = y := by
  unfold fieldY
  ext j hj
  rw [BitVec.getElem_extractLsb', getLsbD_packWord, if_neg (by omega), if_neg (by omega), if_pos (by omega)]
  simp [hj]

@[simp] theorem fieldX_packWord (op z : BitVec 4) (y x v : Byte) : fieldX (packWord op z y x v) = x := by
  unfold fieldX
  ext j hj
  rw [BitVec.getElem_extractLsb', getLsbD_packWord, if_neg (by omega), if_pos (by omega)]
  simp [hj]

@[simp] theorem fieldV_packWord (op z : BitVec 4) (y x v : Byte) : fieldV (packWord op z y x v) = v := by
  unfold fieldV
  ext j hj
  rw [BitVec.getElem_extractLsb', getLsbD_packWord, if_pos (by omega)]
  simp [hj]

/-- A word is its five fields. -/
theorem packWord_fields (w : Word32) : packWord (fieldOp w) (fieldZ w) (fieldY w) (fieldX w) (fieldV w) = w := by
  apply BitVec.eq_of_getLsbD_eq
  intro j hj
  rw [getLsbD_packWord]
  unfold fieldOp fieldZ fieldY fieldX fieldV
  simp only [BitVec.getLsbD_extractLsb']
  split_ifs <;> (rw [show decide _ = true by simp; omega, Bool.true_and]; congr 1; omega)

/-- The encoder packs the operation code, `Z = 0` and the operands (R82). -/
theorem encode_eq_packWord (i : Instr) : ∃ y x v, encode i = packWord i.opcode 0#4 y x v := by
  cases i <;> first
    | exact ⟨_, _, _, rfl⟩
    | exact ⟨0#8, 0#8, 0#8, rfl⟩

/-- `CMDR.OP` of a command's word is its operation code (R71, R73). -/
@[simp] theorem fieldOp_encode (i : Instr) : fieldOp (encode i) = i.opcode := by
  obtain ⟨y, x, v, h⟩ := encode_eq_packWord i
  rw [h, fieldOp_packWord]

/-- `Z` of a command's word is 0 (R71). -/
@[simp] theorem fieldZ_encode (i : Instr) : fieldZ (encode i) = 0#4 := by
  obtain ⟨y, x, v, h⟩ := encode_eq_packWord i
  rw [h, fieldZ_packWord]

end Sys2Proof
end

