-- ==== Sys2Proof/Laws/Front.lean ====
section
/-!
SUPPORT. The datapaths do not see the front of the block: the command word, the response and the port level play no part in
what a simulation step or a scan does (R38, R57).
-/

namespace Sys2Proof.Machine

/-- The same state with another command word and another response. -/
def State.withFront (s : State) (w r : Word32) (v : Bool) : State := { s with cmdr := w, rsp := r, rspValid := v }

/-- The same state with another level on the port. -/
def State.withPort (s : State) (o : PortVal) : State := { s with port := o }

theorem advanceCell_withFront (s : State) (w r : Word32) (v : Bool) :
    (s.withFront w r v).advanceCell = s.advanceCell.withFront w r v := by
  unfold State.advanceCell
  by_cases h1 : s.cx.toNat + 1 < s.cfg.w <;> by_cases h2 : s.cy = 0#9 <;> simp [State.withFront, h1, h2]

theorem advanceCell_withPort (s : State) (o : PortVal) : (s.withPort o).advanceCell = s.advanceCell.withPort o := by
  unfold State.advanceCell
  by_cases h1 : s.cx.toNat + 1 < s.cfg.w <;> by_cases h2 : s.cy = 0#9 <;> simp [State.withPort, h1, h2]

theorem diffuseOne_withFront (s : State) (w r : Word32) (v : Bool) :
    (s.withFront w r v).diffuseOne = s.diffuseOne.withFront w r v :=
  advanceCell_withFront ((s.loadOperands s.cx.toNat s.cy.toNat).storeCell s.cx.toNat s.cy.toNat) w r v

theorem diffuseOne_withPort (s : State) (o : PortVal) : (s.withPort o).diffuseOne = s.diffuseOne.withPort o :=
  advanceCell_withPort ((s.loadOperands s.cx.toNat s.cy.toNat).storeCell s.cx.toNat s.cy.toNat) o

/-- What commutes with a cycle commutes with its iterates. -/
theorem iterate_commute {g f : State → State} (h : ∀ s, f (g s) = g (f s)) (n : Nat) (s : State) :
    f^[n] (g s) = g (f^[n] s) := by
  induction n with
  | zero => rfl
  | succ n ih => rw [Function.iterate_succ_apply', ih, h, Function.iterate_succ_apply']

theorem diffuseBody_withFront (s : State) (w r : Word32) (v : Bool) :
    diffuseBody (s.withFront w r v) = (diffuseBody s).withFront w r v :=
  iterate_commute (g := fun s => s.withFront w r v) (diffuseOne_withFront · w r v) _ s

theorem diffuseBody_withPort (s : State) (o : PortVal) : diffuseBody (s.withPort o) = (diffuseBody s).withPort o :=
  iterate_commute (g := fun s => s.withPort o) (diffuseOne_withPort · o) _ s

theorem simBody_withFront (s : State) (w r : Word32) (v : Bool) :
    simBody (s.withFront w r v) = (simBody s).withFront w r v := diffuseBody_withFront ((injectBody s).enter .diffuse) w r v

theorem simBody_withPort (s : State) (o : PortVal) : simBody (s.withPort o) = (simBody s).withPort o :=
  diffuseBody_withPort ((injectBody s).enter .diffuse) o

theorem logLookup_withFront (s : State) (i : Byte) (w r : Word32) (v : Bool) :
    (s.withFront w r v).logLookup i = (s.logLookup i).withFront w r v := by
  unfold State.logLookup
  by_cases h : s.cfg.palMode = .ram <;> simp [State.withFront, State.askColor, h]

theorem fetch_withFront (s : State) (q : Nat) (w r : Word32) (v : Bool) :
    (s.withFront w r v).fetch q = (s.fetch q).withFront w r v :=
  congrArg (fun t : State => { t with nx := putReg s.nx s.pfc (s.ledWord s.pfc q), pfc := s.pfc + 1 })
    (logLookup_withFront s (s.fbCell (pixmap s.cfg.toParams s.pfc q)) w r v)

theorem bitTime_withFront (s : State) (k : Nat) (w r : Word32) (v : Bool) :
    (s.withFront w r v).bitTime k = (s.bitTime k).withFront w r v := rfl

theorem sendWord_withFront (s : State) (w r : Word32) (v : Bool) :
    (s.withFront w r v).sendWord = s.sendWord.withFront w r v := by
  have h : ∀ (ks : List Nat) (t : State),
      ks.foldl State.bitTime (t.withFront w r v) = (ks.foldl State.bitTime t).withFront w r v := by
    intro ks
    induction ks with
    | nil => intro t; rfl
    | cons k ks ih => intro t; rw [List.foldl_cons, List.foldl_cons, bitTime_withFront, ih]
  exact h _ s

theorem nextPosition_withFront (s : State) (w r : Word32) (v : Bool) :
    (s.withFront w r v).nextPosition = s.nextPosition.withFront w r v := by
  unfold State.nextPosition
  by_cases h : s.pos + 1 < s.cfg.l <;> simp [State.withFront, h]

theorem sendPosition_withFront (s : State) (w r : Word32) (v : Bool) :
    (s.withFront w r v).sendPosition = s.sendPosition.withFront w r v := by
  have hf := iterate_commute (g := fun s => s.withFront w r v) (f := State.fetch (s.pos + 1))
    (fetch_withFront · (s.pos + 1) w r v) s.cfg.n s
  unfold State.sendPosition
  by_cases h : s.pos + 1 < s.cfg.l
  · rw [if_pos h, if_pos (by exact h)]
    rw [← nextPosition_withFront, ← sendWord_withFront, ← hf]
    rfl
  · rw [if_neg h, if_neg (by exact h)]
    rw [← nextPosition_withFront, ← sendWord_withFront]

theorem scanBody_withFront (s : State) (w r : Word32) (v : Bool) :
    scanBody (s.withFront w r v) = (scanBody s).withFront w r v := by
  have h1 : prefetchBody (s.withFront w r v) = (prefetchBody s).withFront w r v :=
    iterate_commute (g := fun s => s.withFront w r v) (fetch_withFront · 0 w r v) s.cfg.n s
  have h2 : ∀ t : State, shiftBody (t.withFront w r v) = (shiftBody t).withFront w r v := fun t =>
    iterate_commute (g := fun s => s.withFront w r v) (sendPosition_withFront · w r v) t.cfg.l t
  unfold scanBody
  rw [h1]
  have h3 : ((prefetchBody s).withFront w r v).enter .shift = ((prefetchBody s).enter .shift).withFront w r v := rfl
  rw [h3, h2]
  rfl

theorem tickBody_withFront (s : State) (w r : Word32) (v : Bool) :
    tickBody (s.withFront w r v) = (tickBody s).withFront w r v := by
  unfold tickBody
  rw [simBody_withFront]
  have h : ((simBody s).withFront w r v).enter .prefetch = ((simBody s).enter .prefetch).withFront w r v := rfl
  rw [h, scanBody_withFront]
  rfl

/-- The scan starts with the port at 0, whatever it showed before (R146). -/
theorem tickBody_withPort (s : State) (o : PortVal) : tickBody (s.withPort o) = tickBody s := by
  unfold tickBody
  rw [simBody_withPort]
  rfl

end Sys2Proof.Machine
end

