-- ==== Sys2Proof/Laws/Lines.lean ====
section
/-!
SUPPORT. The lines of the port: which bit of a pattern belongs to which chain (R144, R147, R150).
-/

namespace Sys2Proof.Machine

/-- A sum of bits at `f`, `f + 1`, ..., `f + n - 1`: it stays below `2^(f + n)`, and its bits are the summands. -/
theorem sum_bits (d : Nat → Bool) (f n : Nat) :
    ((List.range n).map fun c => (d c).toNat <<< (f + c)).sum < 2 ^ (f + n) ∧
      ∀ b, (((List.range n).map fun c => (d c).toNat <<< (f + c)).sum).testBit b =
        (decide (f ≤ b ∧ b < f + n) && d (b - f)) := by
  induction n with
  | zero =>
    refine ⟨by simp, fun b => ?_⟩
    rw [decide_eq_false (by omega)]
    simp
  | succ n ih =>
    obtain ⟨ih1, ih2⟩ := ih
    rw [List.range_succ, List.map_append, List.sum_append]
    generalize ((List.range n).map fun c => (d c).toNat <<< (f + c)).sum = a at ih1 ih2
    have hs : (List.map (fun c => (d c).toNat <<< (f + c)) [n]).sum = 2 ^ (f + n) * (d n).toNat := by
      simp [Nat.shiftLeft_eq, Nat.mul_comm]
    rw [hs, Nat.add_comm a, ← Nat.add_assoc f n 1]
    constructor
    · rw [Nat.pow_succ]
      cases d n <;> simp <;> omega
    · intro b
      rw [Nat.testBit_two_pow_mul_add _ ih1]
      by_cases h1 : b < f + n
      · rw [if_pos h1, ih2]
        have : b < f + n + 1 := by omega
        simp [h1, this]
      · rw [if_neg h1]
        by_cases h2 : b = f + n
        · subst h2
          cases hd : d n <;> simp [hd]
        · have h3 : ¬ (f ≤ b ∧ b < f + n + 1) := by omega
          obtain ⟨m, hm⟩ : ∃ m, b - (f + n) = m + 1 := ⟨b - (f + n) - 1, by omega⟩
          rw [hm]
          rw [decide_eq_false h3]
          cases d n <;> simp [Nat.testBit_succ]

/-- Port bit `FIRST_PIN + c` of a pattern is chain `c`'s data bit; every other bit is 0 (R144, R147). -/
theorem testBit_patternOf (p : Params) (sr : List Color) (k b : Nat) :
    (patternOf p sr k).testBit b =
      (decide (p.firstPin ≤ b ∧ b < p.firstPin + p.n) && dataBit (sr.getD (b - p.firstPin) 0#24) k) :=
  (sum_bits (fun c => dataBit (sr.getD c 0#24) k) p.firstPin p.n).2 b

/-- A pattern fits the chain lines (R42, R144). -/
theorem patternOf_lt (p : Params) (sr : List Color) (k : Nat) : patternOf p sr k < 2 ^ (p.firstPin + p.n) :=
  (sum_bits (fun c => dataBit (sr.getD c 0#24) k) p.firstPin p.n).1

/-- Every chain line is high in `HIGHMASK`, and no other bit is (R144). -/
theorem testBit_highMask (p : Params) (b : Nat) :
    (highMask p).testBit b = decide (p.firstPin ≤ b ∧ b < p.firstPin + p.n) := by
  unfold highMask
  rw [Nat.testBit_shiftLeft, Nat.testBit_two_pow_sub_one]
  by_cases h : p.firstPin ≤ b
  · have : (b - p.firstPin < p.n) ↔ (b < p.firstPin + p.n) := by omega
    simp [h, this]
  · simp [h]

end Sys2Proof.Machine
end

