-- ==== Sys2Proof/Laws/Step.lean ====
section
/-!
SUPPORT. Everything a step can do, one case for each act of the host and each state of the block (R84, R173, R194, R210).
-/

namespace Sys2Proof.Machine

variable {s t : State}

/-- A step takes the host's next act. -/
theorem step_of_todo {a : HostAct} {l : List HostAct} (h : s.todo = a :: l) : step s = react a (s.setTodo l) := by
  unfold step
  rw [h]

/-- With nothing left to do the host waits; in `HALT` nothing follows (R194). -/
theorem step_of_nil (h : s.todo = []) : step s = if s.phase = .halt then .fault .halted else goOn s := by
  unfold step
  rw [h]
  rfl

/-- In `IDLE` a presented word is accepted (R84). -/
theorem react_cmd_idle (w : Word32) (s : State) (h : s.phase = .idle) : react (.cmd w) s = acceptWord w s := if_pos h

/-- Outside `IDLE` a presented word is ignored (R84). -/
theorem react_cmd_busy (w : Word32) (s : State) (h : s.phase ≠ .idle) : react (.cmd w) s = goOn s := if_neg h

theorem acceptWord_ok {w : Word32} {i : Instr} (h : decode w = .ok i) : acceptWord w s = exec i s := by
  unfold acceptWord
  rw [h]

theorem acceptWord_error {w : Word32} {r : Reject} (h : decode w = .error r) :
    acceptWord w s = .next (s.raiseFault .illegal w) := by
  unfold acceptWord
  rw [h]

/-- The block left to itself: a pass of `RUN`, or one cycle, or a port that never answers. -/
theorem goOn_cases (h : goOn s = .next t) :
    (s.phase = .inject ∧ s.opcode = Instr.run.opcode ∧ neverAnswered .run s = none ∧
        t = (tickBody s.quiet).enter .inject) ∨
      (¬ (s.phase = .inject ∧ s.opcode = Instr.run.opcode) ∧ s.stuck = none ∧ t = s.clock) := by
  unfold goOn at h
  split at h
  · next hr =>
    unfold runPass at h
    split at h
    · cases h
    · next hn => exact .inl ⟨hr.1, hr.2, hn, by simpa using h.symm⟩
  · next hr =>
    split at h
    · cases h
    · next hs => exact .inr ⟨hr, hs, by simpa using h.symm⟩

/-- The only ways a step gives a next state. -/
theorem step_cases (h : step s = .next t) :
    (∃ u l, u = s.setTodo l ∧ (s.todo = [] ∧ l = [] ∧ s.phase ≠ .halt ∨ ∃ a, s.todo = a :: l ∧ (a = .wait ∨
        s.phase ≠ .idle ∧ ∃ w, a = .cmd w)) ∧ goOn u = .next t) ∨
      (∃ w l, s.todo = .cmd w :: l ∧ s.phase = .idle ∧ acceptWord w (s.setTodo l) = .next t) ∨
      (∃ l, s.todo = .rst :: l ∧ t = (s.setTodo l).applyReset) ∨
      (∃ w n l, s.todo = .cut w n :: l ∧ t = (State.clock^[n] ((s.setTodo l).offer w)).applyReset) := by
  rcases htodo : s.todo with _ | ⟨a, l⟩
  · rw [step_of_nil htodo] at h
    split at h
    · cases h
    · next hp =>
      refine .inl ⟨s.setTodo [], [], rfl, .inl ⟨rfl, rfl, hp⟩, ?_⟩
      rw [show s.setTodo [] = s by rw [← htodo]; rfl]
      exact h
  · rw [step_of_todo htodo] at h
    cases a with
    | wait => exact .inl ⟨_, l, rfl, .inr ⟨_, rfl, .inl rfl⟩, h⟩
    | cmd w =>
      by_cases hp : s.phase = .idle
      · rw [react_cmd_idle w (s.setTodo l) hp] at h
        exact .inr (.inl ⟨w, l, rfl, hp, h⟩)
      · rw [react_cmd_busy w (s.setTodo l) hp] at h
        exact .inl ⟨_, l, rfl, .inr ⟨_, rfl, .inr ⟨hp, w, rfl⟩⟩, h⟩
    | rst => exact .inr (.inr (.inl ⟨l, rfl, by simpa [react] using h.symm⟩))
    | cut w n => exact .inr (.inr (.inr ⟨w, n, l, rfl, by simpa [react] using h.symm⟩))

/-! One cycle, phase by phase. -/

theorem clock_of_idle (h : s.phase = .idle) : s.clock = s.quiet := by unfold State.clock; rw [h]
theorem clock_of_fbinit (h : s.phase = .fbinit) : s.clock = s.quiet.fbinitCycle := by unfold State.clock; rw [h]
theorem clock_of_palinit (h : s.phase = .palinit) : s.clock = s.quiet.palinitCycle := by unfold State.clock; rw [h]
theorem clock_of_access (h : s.phase = .access) : s.clock = s.quiet.accessCycle := by unfold State.clock; rw [h]
theorem clock_of_inject (h : s.phase = .inject) : s.clock = s.quiet.injectCycle := by unfold State.clock; rw [h]
theorem clock_of_diffuse (h : s.phase = .diffuse) : s.clock = s.quiet.diffuseCycle := by unfold State.clock; rw [h]
theorem clock_of_prefetch (h : s.phase = .prefetch) : s.clock = s.quiet.prefetchCycle := by unfold State.clock; rw [h]
theorem clock_of_shift (h : s.phase = .shift) : s.clock = (s.emit s.port 1).quiet.shiftCycle := by
  unfold State.clock State.observe; simp [h]
theorem clock_of_latch (h : s.phase = .latch) : s.clock = (s.emit s.port 1).quiet.latchCycle := by
  unfold State.clock State.observe; simp [h]
theorem clock_of_idledly (h : s.phase = .idledly) : s.clock = (s.emit s.port 1).quiet.idleCycle := by
  unfold State.clock State.observe; simp [h]
theorem clock_of_halt (h : s.phase = .halt) : s.clock = s.quiet := by unfold State.clock; rw [h]

end Sys2Proof.Machine
end

