-- ==== Sys2Proof/Laws/Outer.lean ====
section
/-!
SUPPORT. What a cycle leaves to others: the build, the count of resets, and what the host does and is (R6, R10).
-/

namespace Sys2Proof.Machine

/-- What no command and no cycle touches: the build, the count of resets, and the host's plans. -/
def State.outer (s : State) : Config × Nat × List HostAct × Bool × Bool :=
  (s.cfg, s.resets, s.todo, s.rngSilent, s.palSilent)

@[simp] theorem outer_respond (s : State) (v) : (s.respond v).outer = s.outer := rfl
@[simp] theorem outer_quiet (s : State) : (s.quiet).outer = s.outer := rfl
@[simp] theorem outer_setFbv (s : State) : s.setFbv.outer = s.outer := rfl
@[simp] theorem outer_setPalv (s : State) : s.setPalv.outer = s.outer := rfl
@[simp] theorem outer_setLcnt (s : State) (n) : (s.setLcnt n).outer = s.outer := rfl
@[simp] theorem outer_setIcnt (s : State) (n) : (s.setIcnt n).outer = s.outer := rfl
@[simp] theorem outer_setPlace (s : State) (k j) : (s.setPlace k j).outer = s.outer := rfl
@[simp] theorem outer_emit (s : State) (v n) : (s.emit v n).outer = s.outer := rfl
@[simp] theorem outer_setFb (s : State) (v n) : (s.setFb v n).outer = s.outer := rfl
@[simp] theorem outer_setCell (s : State) (v n m) : (s.setCell v n m).outer = s.outer := rfl
@[simp] theorem outer_fillCell (s : State) : (s.fillCell).outer = s.outer := rfl
@[simp] theorem outer_fillColor (s : State) : (s.fillColor).outer = s.outer := rfl
@[simp] theorem outer_injectByte (s : State) (r) : (s.injectByte r).outer = s.outer := rfl
@[simp] theorem outer_injectBody (s : State) : (injectBody s).outer = s.outer := rfl
@[simp] theorem outer_logLookup (s : State) (i) : (s.logLookup i).outer = s.outer := by unfold State.logLookup; split <;> rfl
@[simp] theorem outer_awaitColor (s : State) : (s.awaitColor).outer = s.outer := by unfold State.awaitColor; split <;> rfl
@[simp] theorem outer_diffuseOne (s : State) : (s.diffuseOne).outer = s.outer := by rw [diffuseOne_frame]; rfl
@[simp] theorem outer_fetch (s : State) (q) : (s.fetch q).outer = s.outer := by rw [fetch_frame]; rfl
@[simp] theorem outer_nextPosition (s : State) : (s.nextPosition).outer = s.outer := by rw [nextPosition_frame]; rfl
@[simp] theorem outer_drive (s : State) : (s.drive).outer = s.outer := rfl
@[simp] theorem outer_enter (s : State) (p) : (s.enter p).outer = s.outer := by cases p <;> rfl
@[simp] theorem outer_begin (s : State) (i) : (s.begin i).outer = s.outer := by unfold State.begin; rw [outer_enter]; rfl

theorem outer_nextCycle (s : State) : s.nextCycle.outer = s.outer := by
  unfold State.nextCycle
  repeat' split
  · rfl
  · rfl
  · simp
  · simp

theorem outer_accessCycle (s : State) : s.accessCycle.outer = s.outer := by
  unfold State.accessCycle
  split
  · simp
  · simp
  · split <;> simp
  · simp
  · simp

theorem outer_afterIdle (s : State) : s.afterIdle.outer = s.outer := by
  unfold State.afterIdle
  split <;> simp

theorem outer_afterLatch (s : State) : s.afterLatch.outer = s.outer := by
  unfold State.afterLatch
  split
  · simp
  · split <;> simp [outer_afterIdle]

/-- A cycle touches none of it. -/
theorem outer_clock (s : State) : s.clock.outer = s.outer := by
  cases h : s.phase
  · rw [clock_of_idle h]; simp
  · rw [clock_of_fbinit h]; unfold State.fbinitCycle; split
    · simp
    · simp
  · rw [clock_of_palinit h]; unfold State.palinitCycle
    split
    · split
      · simp
      · split
        · simp
        · simp
    · simp
  · rw [clock_of_access h, outer_accessCycle, outer_quiet]
  · rw [clock_of_inject h]; unfold State.injectCycle State.afterInject
    split
    · rfl
    · split <;> simp
    · split
      · rfl
      · split <;> simp
  · rw [clock_of_diffuse h]; unfold State.diffuseCycle State.afterDiffuse
    split
    · simp
    · split <;> simp
  · rw [clock_of_prefetch h]; unfold State.prefetchCycle
    split
    · simp
    · split <;> simp
  · rw [clock_of_shift h]; unfold State.shiftCycle
    split
    · split <;> simp [outer_nextCycle]
    · simp [outer_nextCycle]
  · rw [clock_of_latch h]; unfold State.latchCycle
    split <;> simp [outer_afterLatch]
  · rw [clock_of_idledly h]; unfold State.idleCycle
    split <;> simp [outer_afterIdle]
  · rw [clock_of_halt h]; simp

theorem outer_accept (s : State) (w) : (s.accept w).outer = s.outer := by
  unfold State.accept
  split
  · rfl
  · split
    · rfl
    · simp

theorem outer_offer (s : State) (w) : (s.offer w).outer = s.outer := by
  unfold State.offer
  split
  · exact outer_accept s w
  · exact outer_clock s

theorem outer_clocks (n : Nat) (s : State) : (State.clock^[n] s).outer = s.outer := by
  induction n with
  | zero => rfl
  | succ n ih => rw [Function.iterate_succ_apply', outer_clock, ih]

end Sys2Proof.Machine
end

