-- ==== Sys2Proof/Laws/PerInstr.lean ====
section
/-!
SUPPORT. What holds of every command as syntax, one lemma per constructor: its word lies in its row of the opcode map (R73), and
the reserved field of its word is 0 (R71).
-/

namespace Sys2Proof.Laws.TableRow

/-- The word of a command has the bits its row fixes, its row's operation code, and `Z = 0` (R71, R73). -/
def Statement (i : Instr) : Prop :=
  encode i &&& i.mask = i.matchWord ∧ fieldOp (encode i) = i.opcode ∧ fieldZ (encode i) = 0#4

/-- A word and a mask agree with a match word if they do so bit by bit. -/
theorem masked {op : BitVec 4} {y x v : Byte} {m w : Word32}
    (h : ∀ j < 32, ((if j < 8 then v.getLsbD j else if j < 16 then x.getLsbD (j - 8) else if j < 24 then y.getLsbD (j - 16)
      else if j < 28 then (0#4).getLsbD (j - 24) else op.getLsbD (j - 28)) && m.getLsbD j) = w.getLsbD j) :
    packWord op 0#4 y x v &&& m = w := by
  apply BitVec.eq_of_getLsbD_eq
  intro j hj
  rw [BitVec.getLsbD_and, getLsbD_packWord]
  exact h j hj

theorem fbinit : Statement .fbinit := by unfold Statement; decide
theorem palinit : Statement .palinit := by unfold Statement; decide
theorem setpx (x y v : Byte) : Statement (.setpx x y v) := by
  refine ⟨masked (op := 0x3#4) (y := y) (x := x) (v := v) ?_, by simp, by simp⟩
  intro j hj
  interval_cases j <;> simp [Instr.mask, Instr.matchWord]
theorem getpx (x y : Byte) : Statement (.getpx x y) := by
  refine ⟨masked (op := 0x4#4) (y := y) (x := x) (v := 0#8) ?_, by simp, by simp⟩
  intro j hj
  interval_cases j <;> simp [Instr.mask, Instr.matchWord]
theorem lookup (k : Byte) : Statement (.lookup k) := by
  refine ⟨masked (op := 0x5#4) (y := 0#8) (x := 0#8) (v := k) ?_, by simp, by simp⟩
  intro j hj
  interval_cases j <;> simp [Instr.mask, Instr.matchWord]
theorem inject : Statement .inject := by unfold Statement; decide
theorem diffuse : Statement .diffuse := by unfold Statement; decide
theorem sim : Statement .sim := by unfold Statement; decide
theorem scan : Statement .scan := by unfold Statement; decide
theorem tick : Statement .tick := by unfold Statement; decide
theorem run : Statement .run := by unfold Statement; decide

end Sys2Proof.Laws.TableRow
end

