-- ==== Sys2Proof/Tests/Slice0.lean ====
section
/-!
SUPPORT. The model's own tests: ill-formed terms that the checks refuse, words written out from the spec's encoding, the spec's
test vectors (95_test_vectors, the source of every expected value), and for each statement with hypotheses a witness that meets
them.
-/

namespace Sys2Proof.Tests

open Sys2Proof Sys2Proof.Machine

-- The kernel checks one theorem at a time: each evaluates the machine, and many at once would run out of threads.
set_option Elab.async false

/-! Builds and states of the tests. -/

/-- A build of the spec's defaults with an open size, chain length and mode; `FIRST_PIN = 2`, `PORTW = 8`. -/
def build (w h l : Nat) (mode : PalMode) : Config := (Config.build (Params.ofSize w h l mode)).getD Config.sample

/-- The fixture's palette cache, full. -/
def fullCache : List (Nat × Color) := (List.range 256).map fun k => (k, palSrcAt (Params.ofSize 1 1 1 .ram) (BitVec.ofNat 8 k))

/-- An idle state after boot whose frame buffer holds `cells`, row by row; the RandomSource answers `bytes` first. -/
def booted (c : Config) (cells bytes : List Byte) : State :=
  { State.resetOf c with
    fbv := true, palv := true, fb := (List.range cells.length).zip cells, palc := if c.palMode = .ram then fullCache else [],
    rngScript := bytes.map some }

/-- The same state with `l` as the host's list. -/
def doing (s : State) (l : List HostAct) : State := s.setTodo l

/-- A property of the next state, false where there is none. -/
def nextHas (o : Host.Outcome State Fault Refusal) (p : State → Bool) : Bool :=
  match o with
  | .next t => p t
  | .fault _ => false
  | .refused _ => false

/-- The reason the machine stops, if it does. -/
def stops (o : Host.Outcome State Fault Refusal) : Option Fault :=
  match o with
  | .next _ => none
  | .fault f => some f
  | .refused _ => none

/-- An outcome that has a property of its next state is one. -/
theorem next_of_nextHas {o : Host.Outcome State Fault Refusal} {p : State → Bool} (h : nextHas o p = true) :
    ∃ t, o = .next t ∧ p t = true := by
  cases o with
  | next t => exact ⟨t, rfl, h⟩
  | fault f => cases h
  | refused r => cases h

/-- The values of the frame buffer, by address. -/
def cells (s : State) : List Byte := s.fb.map (·.2)

/-- The response a state shows. -/
def answer (s : State) : Option Word32 := if s.rspValid then some s.rsp else none

/-- The fault a state records: cause and word. -/
def causeOf (s : State) : ErrCode × Word32 := (s.errcode, s.errinfo)

/-- 8 by 4 as in the spec's programs. -/
def zeros84 : List Byte := List.replicate 32 0#8

/-- The 8 by 4 CAL build, all cells 0, one RandomSource byte 3 (program P2). -/
def p2 : State := booted (build 8 4 32 .cal) zeros84 [3#8]

/-- The 8 by 4 RAM build, booted. -/
def ram84 : State := booted (build 8 4 32 .ram) zeros84 [3#8]

/-- The 2 by 2 CAL build with two chains (program P4). -/
def p4 : State := booted (build 2 2 2 .cal) [0#8, 255#8, 255#8, 0#8] []

/-- The 4 by 3 ROM build (program P5). -/
def p5 : State := booted (build 4 3 12 .rom) (List.replicate 12 0#8) [6#8, 255#8]

/-- The sum and cell of five operands. -/
def sumAndCell (c l r u d : Byte) : Nat × Nat := (diffuseSum c l r u d, diffuseCell c l r u d)

/-! WellFormed: each check refuses a term. -/

theorem test_wellFormed_accepts : (Instr.setpx 7 3 255).wellFormed (Params.ofSize 8 4 32 .ram) = true := by decide
theorem test_wellFormed_x : (Instr.setpx 8 0 1).wellFormed (Params.ofSize 8 4 32 .ram) = false := by decide
theorem test_wellFormed_y : (Instr.getpx 0 4).wellFormed (Params.ofSize 8 4 32 .ram) = false := by decide

/-! Legality (R7, R148, R224, R61, U19): each clause refuses a parameter set. -/

theorem test_legal_width : Config.build { Params.ofSize 8 4 32 .ram with w := 0 } = none := by decide +kernel
theorem test_legal_height : Config.build (Params.ofSize 1 257 257 .ram) = none := by decide +kernel
theorem test_legal_chain_zero : Config.build (Params.ofSize 8 4 0 .ram) = none := by decide +kernel
theorem test_legal_chain_divides : Config.build (Params.ofSize 8 4 5 .ram) = none := by decide +kernel
theorem test_legal_pins : Config.build { Params.ofSize 8 4 4 .ram with portw := 9 } = none := by decide +kernel
theorem test_legal_palette : Config.build { Params.ofSize 8 4 32 .ram with palSrc := [] } = none := by decide +kernel
theorem test_legal_bit_phase : Config.build { Params.ofSize 8 4 32 .ram with tp := 0 } = none := by decide +kernel
theorem test_legal_latch : Config.build { Params.ofSize 8 4 32 .ram with tLatch := 959 } = none := by decide +kernel
theorem test_legal_budget : Config.build { Params.ofSize 8 4 32 .ram with tFetch := 481 } = none := by decide +kernel
theorem test_legal_budget_full : (Config.build { Params.ofSize 8 4 32 .ram with tFetch := 480 }).isSome = true := by
  decide +kernel
theorem test_legal_addr_map :
    Config.build { Params.ofSize 2 1 2 .ram with addrMap := .table [0, 0] } = none := by decide +kernel
theorem test_legal_pix_map :
    Config.build { Params.ofSize 2 1 2 .ram with pixMap := .table [0, 2] } = none := by decide +kernel

/-! V-C: words written out field by field, `OP Z YF XF VF`. -/

theorem test_decode_fbinit : decode 0b0001_0000_00000000_00000000_00000000#32 = .ok .fbinit := by decide
theorem test_decode_palinit : decode 0b0010_0000_00000000_00000000_00000000#32 = .ok .palinit := by decide
theorem test_decode_setpx : decode 0b0011_0000_00000010_00000011_11001000#32 = .ok (.setpx 3 2 200) := by decide
theorem test_decode_setpx_top : decode 0x30FFFFFF#32 = .ok (.setpx 255 255 255) := by decide
theorem test_decode_getpx : decode 0b0100_0000_00000000_00000111_00000000#32 = .ok (.getpx 7 0) := by decide
theorem test_decode_lookup : decode 0b0101_0000_00000000_00000000_10000000#32 = .ok (.lookup 0x80) := by decide
theorem test_decode_inject : decode 0b0110_0000_00000000_00000000_00000000#32 = .ok .inject := by decide
theorem test_decode_diffuse : decode 0b0111_0000_00000000_00000000_00000000#32 = .ok .diffuse := by decide
theorem test_decode_sim : decode 0b1000_0000_00000000_00000000_00000000#32 = .ok .sim := by decide
theorem test_decode_scan : decode 0b1001_0000_00000000_00000000_00000000#32 = .ok .scan := by decide
theorem test_decode_tick : decode 0b1010_0000_00000000_00000000_00000000#32 = .ok .tick := by decide
theorem test_decode_run : decode 0b1011_0000_00000000_00000000_00000000#32 = .ok .run := by decide
theorem test_decode_illegal :
    decode 0x00000000#32 = .error .reservedOpcode ∧ decode 0xC0000000#32 = .error .reservedOpcode ∧
    decode 0xFFFFFFFF#32 = .error .reservedField ∧ decode 0x11000000#32 = .error .reservedField ∧
    decode 0x31000000#32 = .error .reservedField ∧ decode 0x10000001#32 = .error .unusedField ∧
    decode 0x40030301#32 = .error .unusedField ∧ decode 0x50000180#32 = .error .unusedField ∧
    decode 0x90010000#32 = .error .unusedField := by decide
theorem test_encode_setpx : encode (.setpx 7 3 255) = 0x300307FF#32 := by decide
theorem test_boot_words : bootWords = [0x10000000#32, 0x20000000#32] ∧ clearWord = 0x10000000#32 := by decide
theorem test_decode_table_word : decodeTableWord 32 0x30030200 = some (.setpx 2 3 0) := by decide

/-! V-P: the palette. -/

theorem test_palinit_entries : nextHas (exec .palinit State.reset) (fun t =>
    Memory.read? t.palc 0 == some 0x00FF55#24 && Memory.read? t.palc 0x80 == some 0x807FD5#24 &&
    Memory.read? t.palc 255 == some 0xFF00AA#24 && t.palv && answer t == some 0#32) = true := by decide +kernel
theorem test_palinit_rom : nextHas (exec .palinit (State.resetOf (build 8 4 32 .rom))) (fun t =>
    t.palLog == [] && t.palc == [] && answer t == some 0#32) = true := by decide +kernel
theorem test_lookup_ram : nextHas (exec (.lookup 0x80) ram84) (fun t =>
    answer t == some 0x00807FD5#32 && t.palLog == []) = true := by decide +kernel
theorem test_lookup_cal : nextHas (exec (.lookup 5) p2) (fun t =>
    answer t == some 0x0005FA50#32 && t.palLog == [5#8] && t.palvOut) = true := by decide +kernel

/-! V-F: the frame buffer. -/

theorem test_fbinit : nextHas (exec .fbinit State.reset) (fun t =>
    cells t == zeros84 && t.fbv && answer t == some 0#32) = true := by decide +kernel
theorem test_setpx : nextHas (exec (.setpx 3 2 200) ram84) (fun t =>
    cells t == zeros84.set 19 200#8 && answer t == some 0#32) = true := by decide +kernel
theorem test_setpx_last : nextHas (exec (.setpx 7 3 255) ram84) (fun t => cells t == zeros84.set 31 255#8) = true := by
  decide +kernel
theorem test_getpx : nextHas (exec (.getpx 3 2) (booted (build 8 4 32 .ram) (zeros84.set 19 200#8) []))
    (fun t => answer t == some 0x000000C8#32) = true := by decide +kernel
theorem test_getpx_not_swapped : nextHas (exec (.getpx 2 3) (booted (build 8 4 32 .ram) (zeros84.set 19 200#8) []))
    (fun t => answer t == some 0#32) = true := by decide +kernel

/-! V-A: arithmetic. -/

theorem test_satAdd8 : satAdd8 247 8 = 255 ∧ satAdd8 248 8 = 255 ∧ satAdd8 0 8 = 8 ∧ satAdd8 250 10 = 255 := by decide
theorem test_diffuse_cell :
    sumAndCell 8 0 0 0 8 = (1520, 5) ∧ sumAndCell 255 0 255 255 255 = (58140, 227) ∧
    sumAndCell 255 254 255 255 255 = (66014, 257) ∧ sumAndCell 0 255 255 255 255 = (33660, 131) ∧
    sumAndCell 1 0 0 0 1 = (190, 0) := by decide
theorem test_narrow : narrow8 .sat 257 = 255 ∧ narrow8 .wrap 257 = 1 ∧ narrow8 .wrap 256 = 0 := by decide

/-! V-I and V-D: the simulation. -/

theorem test_inject : nextHas (exec .inject p2) (fun t =>
    cells t == zeros84.set 27 8#8 && t.col == 3#8 && t.draws == 1 && t.rngScript == []) = true := by decide +kernel
theorem test_inject_mod : nextHas (exec .inject (booted (build 5 2 10 .cal) (List.replicate 10 0#8) [255#8]))
    (fun t => cells t == (List.replicate 10 0#8).set 5 8#8) = true := by decide +kernel
theorem test_diffuse_gradient :
    nextHas (exec .diffuse (booted (build 3 3 9 .cal) [10, 20, 30, 40, 50, 60, 70, 80, 90] []))
      (fun t => cells t == [17, 29, 32, 41, 57, 56, 62, 79, 78]) = true := by decide +kernel
theorem test_diffuse_narrows :
    nextHas (exec .diffuse (booted (build 4 2 8 .cal) (List.replicate 8 255#8) []))
      (fun t => cells t == [213, 245, 249, 212, 227, 254, 255, 227]) = true := by decide +kernel
theorem test_sim : nextHas (exec .sim p2) (fun t => cells t == (zeros84.set 27 5#8).set 19 1#8) = true := by decide +kernel

/-! V-E: the encoder, and P5: the tick loop. -/

/-- V-E2: four patterns of the two-chain scan, at the first pattern cycle of bits 0 and 16 of each chain position, and the
edges between. -/
theorem test_scan_two_chains : nextHas (exec .scan p4) (fun t =>
    let w := waveCycles t.wave
    w.length == 1920 && w[0]? == some 0x0C && w[7]? == some 0x04 && w[13]? == some 0 && w[327]? == some 0x08 &&
    w[479]? == some 0 && w[480]? == some 0x0C && w[487]? == some 0x08 && w[807]? == some 0x04 &&
    t.palLog == [0#8, 255#8, 255#8, 0#8]) = true := by decide +kernel
/-- V-E1: port bit 2 is high in 228 of the 480 shift cycles. -/
theorem test_scan_one_led :
    nextHas (exec .scan (booted ((Config.build { Params.ofSize 1 1 1 .cal with
      palSrc := List.replicate 256 0x0FA581#24 }).getD Config.sample) [0#8] []))
      (fun t => (lineOf 2 t.wave).count true == 228 && risingEdges false (lineOf 2 t.wave) == 24) = true := by decide +kernel
theorem test_tick : nextHas (exec .tick p5) (fun t =>
    cells t == [0, 0, 0, 0, 0, 0, 1, 0, 0, 0, 5, 0] && (waveCycles t.wave).length == 6720 && t.palLog.length == 12 &&
    answer t == some 0#32) = true := by decide +kernel
theorem test_run : nextHas (exec .run p5) (fun t =>
    cells t == [0, 0, 0, 0, 0, 0, 1, 0, 0, 0, 5, 0] && t.busy && !t.cmdReady false && answer t == none) = true := by
  decide +kernel
theorem test_run_second_pass :
    nextHas (step { booted (build 4 3 12 .rom) [0, 0, 0, 0, 0, 0, 1, 0, 0, 0, 5, 0] [255#8] with
      phase := .inject, cmdr := 0xB0000000#32 })
      (fun t => cells t == [0, 0, 0, 0, 0, 0, 1, 1, 0, 0, 4, 6] && t.draws == 1) = true := by decide +kernel

/-! V-X, P6 and V-R: faults and reset. -/

theorem test_fault_priority :
    nextHas (step (State.reset.withFetchWord 32 0x30C8C801)) (fun t => causeOf t == (.range, 0x30C8C801#32)) = true ∧
    nextHas (step (State.reset.withFetchWord 32 0x31C8C801)) (fun t => causeOf t == (.illegal, 0x31C8C801#32)) = true ∧
    nextHas (step (State.reset.withFetchWord 32 0xA0000000)) (fun t => causeOf t == (.fbUninit, 0xA0000000#32)) = true ∧
    nextHas (step (State.reset.withFetchWord 32 0x50000000)) (fun t => causeOf t == (.palUninit, 0x50000000#32)) = true := by
  decide +kernel
theorem test_reset_after_halt : nextHas (step (doing (ram84.raiseFault .range 0x30000801#32) [.rst])) (fun t =>
    t.phase.code == 0#4 && !t.busy && !t.halted && !t.fbv && !t.palvOut && t.errcode.code == 0#3 && t.errinfo == 0#32 &&
    t.cmdReady false) = true := by decide +kernel
/-- R228: 30 cycles after the word was presented the two-chain scan stands in `SHIFT`; the record ends there. -/
theorem test_cut_scan : nextHas (step (doing p4 [.cut 0x90000000#32 30])) (fun t =>
    t.phase == .idle && t.port == 0 && (waveCycles t.wave).length == 29) = true := by decide +kernel
theorem test_reset_memory_form : Memory.wf State.reset.fb ∧ Memory.wf State.reset.palc := by decide

/-! Witnesses: for each statement of Obligations.lean with hypotheses, a state and operands that meet them together, one for each
clause, at a boundary of its range where it has one. -/

/-- The 2 by 2 RAM build, booted, with the cells of `p4`. -/
def ram22 : State := booted (build 2 2 2 .ram) [0#8, 255#8, 255#8, 0#8] [3#8]

/-- `p4` in the middle of nothing: a tick has just been accepted. -/
def ticking : State := p4.begin .tick

/-- `p4` halted by an illegal word. -/
def haltedP4 : State := p4.raiseFault .illegal 0#32

/-- `p5` at the start of a later pass of a `RUN`. -/
def running (l : List HostAct) : State := doing { p5 with phase := .inject, cmdr := encode .run } l

theorem witness_EncodeDecode : decode 0x30FFFFFF#32 = .ok (.setpx 255 255 255) := by decide
theorem witness_IllegalWords : (doing p4 [.cmd 0x00000000#32]).phase = .idle ∧
    (doing p4 [.cmd 0x00000000#32]).todo = .cmd 0x00000000#32 :: [] ∧
    decode 0x00000000#32 = .error .reservedOpcode := by decide +kernel
theorem witness_StepRunsDecoded : (doing p4 [.cmd 0x70000000#32]).phase = .idle ∧
    (doing p4 [.cmd 0x70000000#32]).todo = .cmd 0x70000000#32 :: [] ∧ decode 0x70000000#32 = .ok .diffuse := by decide +kernel
theorem witness_WordsIgnoredOutsideIdle : (doing haltedP4 [.cmd 0x70000000#32]).phase ≠ .idle ∧
    (doing haltedP4 [.cmd 0x70000000#32]).todo = .cmd 0x70000000#32 :: [] := by decide +kernel
theorem witness_FaultPriority_state : State.reset.phase = .idle ∧
    (doing State.reset [.cmd 0x50000000#32]).todo = .cmd 0x50000000#32 :: [] := by decide +kernel
theorem witness_FaultPriority_illegal : decode 0x11000000#32 = .error .reservedField := by decide
theorem witness_FaultPriority_range_x : decode 0x30000801#32 = .ok (.setpx 8 0 1) ∧
    (Instr.setpx 8 0 1).coords = some (8, 0) ∧ State.reset.cfg.w ≤ (8#8).toNat := by decide +kernel
theorem witness_FaultPriority_range_y : decode 0x40040000#32 = .ok (.getpx 0 4) ∧
    (Instr.getpx 0 4).coords = some (0, 4) ∧ State.reset.cfg.h ≤ (4#8).toNat := by decide +kernel
theorem witness_FaultPriority_fb : decode 0x300307FF#32 = .ok (.setpx 7 3 255) ∧
    (7#8).toNat < State.reset.cfg.w ∧ (3#8).toNat < State.reset.cfg.h ∧ Instr.setpx 7 3 255 ≠ .fbinit ∧
    Instr.setpx 7 3 255 ≠ .palinit ∧ State.reset.fbv = false := by decide +kernel
theorem witness_FaultPriority_pal_lookup : decode 0x50000000#32 = .ok (.lookup 0) ∧ (Instr.lookup 0).coords = none ∧
    State.reset.cfg.palMode = .ram ∧ State.reset.palv = false := by decide +kernel
theorem witness_FaultPriority_pal_scan : decode 0x90000000#32 = .ok .scan ∧ Instr.scan.coords = none ∧
    State.reset.setFbv.fbv = true ∧ State.reset.setFbv.cfg.palMode = .ram ∧ State.reset.setFbv.palv = false := by
  decide +kernel
theorem witness_FaultEntry : acceptError .tick State.reset = some .fbUninit ∧
    acceptError (.getpx 0 4) State.reset = some .range ∧ acceptError (.lookup 0) State.reset = some .palUninit := by
  decide +kernel
theorem witness_HaltLeftByResetOnly : haltedP4.phase = .halt ∧ haltedP4.todo = [] ∧
    (doing haltedP4 [.wait]).todo = .wait :: [] ∧ (doing haltedP4 [.cmd 0#32]).todo = .cmd 0#32 :: [] ∧
    (doing haltedP4 [.rst]).todo = .rst :: [] ∧ (doing haltedP4 [.cut 0#32 0]).todo = .cut 0#32 0 :: [] := by decide +kernel
theorem witness_ResetValues : (doing haltedP4 [.rst]).todo = .rst :: [] := by decide +kernel
theorem witness_ResetDuringCommand : (doing p4 [.cut 0x70000000#32 2]).todo = .cut 0x70000000#32 2 :: [] := by decide +kernel
theorem witness_TornScan : ((p4.begin .scan).enter .shift).phase = .shift := by decide +kernel
theorem witness_FbinitZeroFills_clauses : 0 < p4.cfg.npix ∧ 3 < p4.cfg.npix ∧ p4.cfg.npix ≤ 4 := by decide +kernel
theorem witness_PalinitFillsCache : ram22.cfg.palMode = .ram ∧ ram22.palSilent = false := by decide +kernel
theorem witness_PalinitIdempotent : ∃ t u, exec .palinit ram22 = .next t ∧ exec .palinit t = .next u := by
  obtain ⟨t, h, ht⟩ := next_of_nextHas (o := exec .palinit ram22)
    (p := fun t => nextHas (exec .palinit t) fun _ => true) (by decide +kernel)
  obtain ⟨u, h', -⟩ := next_of_nextHas ht
  exact ⟨t, u, h, h'⟩
theorem witness_PalinitElsewhereDoesNothing : p4.cfg.palMode ≠ .ram := by decide +kernel
theorem witness_SetpxStoresOneCell : (1#8).toNat < p4.cfg.w ∧ (1#8).toNat < p4.cfg.h ∧ p4.fbv = true ∧
    p4.cfg.addrMap = .direct ∧ addr p4.cfg.toParams 1 1 = 3 := by decide +kernel
/-- The clauses of the invariant that can be evaluated on a concrete state, and the rest. -/
theorem inv_of_clauses {s : State}
    (h : (Memory.wf s.fb ∧ ∀ x ∈ s.fb, x.1 < s.cfg.npix) ∧
      (Memory.wf s.palc ∧ ∀ x ∈ s.palc, x.1 < 256 ∧ x.2 = palSrcAt s.cfg.toParams (BitVec.ofNat 8 x.1)) ∧
      (s.cfg.palMode ≠ .ram → s.palc = [] ∧ s.palv = true) ∧
      (s.fbv = true → ∀ a < s.cfg.npix, (Memory.read? s.fb a).isSome = true) ∧
      (s.cfg.palMode = .ram → s.palv = true → ∀ k < 256, (Memory.read? s.palc k).isSome = true) ∧
      (s.sr.length = s.cfg.n ∧ s.nx.length = s.cfg.n) ∧ s.port = s.portNow ∧ (s.errcode ≠ .none ↔ s.phase = .halt) ∧
      s.errinfo = (if s.errcode = .none then 0#32 else s.cmdr) ∧ (s.rspValid = true → s.phase = .idle) ∧
      (s.palWait = true → s.palSilent = true))
    (hp : s.inPlace) : s.Inv :=
  ⟨h.1, h.2.1, h.2.2.1, h.2.2.2.1, h.2.2.2.2.1, h.2.2.2.2.2.1, h.2.2.2.2.2.2.1, h.2.2.2.2.2.2.2.1, h.2.2.2.2.2.2.2.2.1,
    h.2.2.2.2.2.2.2.2.2.1, h.2.2.2.2.2.2.2.2.2.2, hp⟩

theorem witness_inv_p4 : p4.Inv := inv_of_clauses (by decide +kernel) trivial
theorem witness_inv_ram22 : ram22.Inv := inv_of_clauses (by decide +kernel) trivial
theorem witness_inv_ticking : ticking.Inv := inv_of_clauses (by decide +kernel) ⟨.tick, rfl, by decide +kernel, rfl⟩
theorem witness_inv_haltedP4 : haltedP4.Inv := inv_of_clauses (by decide +kernel) trivial
theorem witness_GetpxReadsCell : p4.Inv ∧ (1#8).toNat < p4.cfg.w ∧ (1#8).toNat < p4.cfg.h ∧ p4.fbv = true :=
  ⟨witness_inv_p4, by decide +kernel⟩
/-- The cell stored to, and another one: both branches of the answer. -/
theorem witness_GetAfterSet : (1#8).toNat < p4.cfg.w ∧ (1#8).toNat < p4.cfg.h ∧ (0#8).toNat < p4.cfg.h ∧ p4.fbv = true ∧
    ¬ ((1#8 : Byte) = 1#8 ∧ (0#8 : Byte) = 1#8) := by decide +kernel
theorem witness_LookupAnswersColor_ram : ram22.Inv ∧ ram22.palvOut = true ∧ ram22.cfg.palMode = .ram :=
  ⟨witness_inv_ram22, by decide +kernel⟩
theorem witness_LookupAnswersColor_cal : p4.Inv ∧ p4.palvOut = true ∧ p4.cfg.palMode ≠ .ram ∧ p4.palSilent = false :=
  ⟨witness_inv_p4, by decide +kernel⟩
/-- S5: the clauses at the values where they meet. -/
theorem witness_UniformCell : (85#8).toNat ≤ 85 ∧ 86 ≤ (86#8).toNat ∧ (170#8).toNat ≤ 170 ∧ 171 ≤ (171#8).toNat ∧
    sumAndCell 85 85 85 85 85 = (22015, 85) ∧ sumAndCell 86 86 86 86 86 = (22274, 87) ∧
    sumAndCell 170 170 170 170 170 = (44030, 171) ∧ sumAndCell 171 171 171 171 171 = (44289, 173) := by decide
/-- The sums on both sides of 65536 that S5 gives, and the largest value up to which the narrowings agree. -/
theorem witness_NarrowingsDiffer : diffuseSum 253 253 253 253 253 = 65527 ∧ diffuseSum 254 254 254 254 254 = 65786 ∧
    narrow8 .sat (65786 / 256) = 255 ∧ narrow8 .wrap (65786 / 256) = 0 ∧ narrow8 .wrap 255 = 255 := by decide
theorem witness_InjectAddsSpark : p2.fbv = true ∧ p2.rngStuck = false ∧
    p2.rngScript = List.replicate 0 none ++ some 3#8 :: [] := by decide +kernel
/-- A late answer: the byte drawn is the one that comes after two silent cycles. -/
theorem witness_InjectAddsSpark_late :
    let s := { p2 with rngScript := [none, none, some 3#8, none] }
    s.fbv = true ∧ s.rngStuck = false ∧ s.rngScript = List.replicate 2 none ++ some 3#8 :: [none] ∧ s.drawn = 3#8 := by
  decide +kernel
/-- No answer left in the script, and a source that is not silent. -/
theorem witness_InjectAddsSpark_free :
    let s := { p2 with rngScript := [none] }
    s.fbv = true ∧ s.rngStuck = false ∧ ∀ x ∈ s.rngScript, x = none := by decide +kernel
theorem witness_DiffuseInPlace : p4.fbv = true ∧ 0 < p4.cfg.w ∧ 0 < p4.cfg.h ∧ 1 < p4.cfg.w ∧ 1 < p4.cfg.h := by
  decide +kernel
theorem witness_ZeroBufferStaysZero : p5.fbv = true ∧ ∀ x < p5.cfg.w, ∀ y < p5.cfg.h, p5.cellAt x y = 0#8 := by
  decide +kernel
theorem witness_SimIsInjectThenDiffuse : p2.fbv = true ∧ p2.rngStuck = false := by decide +kernel
theorem witness_BitTimeOnEachLine : (1 : Nat) < p4.cfg.n ∧ 3 = p4.cfg.firstPin + 1 ∧ 1 < p4.cfg.firstPin ∧
    p4.cfg.firstPin + p4.cfg.n ≤ 4 := by decide +kernel
theorem witness_ScanTrace : p4.fbv = true ∧ p4.palvOut = true ∧ p4.palSilent = false ∧ 1 < p4.cfg.l ∧
    19 < p4.cfg.tbit ∧ 959 < p4.cfg.tLatch := by decide +kernel
/-- The builds of the tests have the spec's map; the boundaries of the three colors of a LED word. -/
theorem witness_ScanTrace_order : p4.cfg.pixMap = .direct ∧ dataBit (wire24 0x010000#24) 15 = true ∧
    dataBit (wire24 0x000100#24) 7 = true ∧ dataBit (wire24 0x000080#24) 16 = true ∧
    dataBit (wire24 0x800000#24) 8 = true := by decide +kernel
theorem witness_ScanTrace_ram : ram22.fbv = true ∧ ram22.palvOut = true ∧ ram22.cfg.palMode = .ram := by decide +kernel
theorem witness_ScanLookupOrder : p4.fbv = true ∧ p4.palvOut = true ∧ p4.palSilent = false := by decide +kernel
theorem witness_ScanRisingEdges : p4.fbv = true ∧ p4.palvOut = true ∧ p4.palSilent = false ∧ 1 < p4.cfg.n := by
  decide +kernel
/-- Two states of one build whose first chains show equal colors and whose second chains do not. -/
theorem witness_LanesIndependent :
    let s' := booted (build 2 2 2 .cal) [0#8, 255#8, 7#8, 9#8] []
    p4.cfg = s'.cfg ∧ 0 < p4.cfg.n ∧ acceptError .scan p4 = none ∧ neverAnswered .scan p4 = none ∧
    acceptError .scan s' = none ∧ neverAnswered .scan s' = none ∧
    (∀ p < p4.cfg.l, p4.lookup (p4.fbCell (pixmap p4.cfg.toParams 0 p)) =
      s'.lookup (s'.fbCell (pixmap p4.cfg.toParams 0 p))) ∧
    p4.lookup (p4.fbCell (pixmap p4.cfg.toParams 1 0)) ≠ s'.lookup (s'.fbCell (pixmap p4.cfg.toParams 1 0)) := by
  decide +kernel
theorem witness_CrossModeEquivalence : p4.Inv ∧ ram22.Inv ∧
    ram22.cfg.toParams = { p4.cfg.toParams with palMode := .ram } ∧ p4.fb = ram22.fb ∧
    acceptError .scan p4 = none ∧ neverAnswered .scan p4 = none ∧ acceptError .scan ram22 = none ∧
    neverAnswered .scan ram22 = none :=
  ⟨witness_inv_p4, witness_inv_ram22, by decide +kernel⟩
theorem witness_TickIsSimThenScan : p5.fbv = true ∧ p5.palvOut = true ∧ p5.rngStuck = false ∧ p5.palSilent = false := by
  decide +kernel
theorem witness_RunStartsWithATick : ram84.fbv = true ∧ ram84.palvOut = true ∧ ram84.rngStuck = false ∧
    ram84.cfg.palMode = .ram := by decide +kernel
theorem witness_RunPassIsATick : (running [.cmd 0#32]).phase = .inject ∧ (running [.cmd 0#32]).cmdr = encode .run ∧
    (running [.cmd 0#32]).todo = .cmd 0#32 :: [] ∧ (running [.wait]).todo = .wait :: [] ∧ (running []).todo = [] ∧
    (running []).phase = .inject ∧ (running []).cmdr = encode .run ∧
    (running [.wait]).fbv = true ∧ (running [.wait]).palvOut = true ∧ (running [.wait]).rngStuck = false ∧
    (running [.wait]).palSilent = false := by decide +kernel
theorem witness_RunNeverEnds : (running []).phase = .inject ∧ (running []).opcode = Instr.run.opcode ∧
    (running []).todo = [] ∧ ∃ t, step (running []) = .next t := by
  obtain ⟨t, h, -⟩ := next_of_nextHas (o := step (running [])) (p := fun _ => true) (by decide +kernel)
  exact ⟨by decide +kernel, by decide +kernel, by decide +kernel, t, h⟩
theorem witness_SilentPortsAreStuck_rng :
    let s := { p4 with rngSilent := true, rngScript := [none] }
    acceptError .inject s = none ∧ s.rngSilent = true ∧ (∀ x ∈ s.rngScript, x = none) ∧
    stops (exec .inject s) = some .rngSilent := by decide +kernel
theorem witness_SilentPortsAreStuck_pal :
    let s := { ram22 with palSilent := true }
    let s' := { p4 with palSilent := true }
    acceptError .palinit s = none ∧ s.cfg.palMode = .ram ∧ s.palSilent = true ∧ acceptError (.lookup 0) s' = none ∧
    acceptError .scan s' = none ∧ s'.cfg.palMode ≠ .ram ∧ stops (exec .scan s') = some .palSilent ∧
    acceptError .tick s' = none ∧ s'.rngSilent = false ∧ stops (exec .tick s') = some .palSilent := by decide +kernel
/-- A source silent after its script, which still holds a byte. -/
theorem witness_SilentPortsAreStuck_script :
    let s := { p4 with palSilent := true, rngSilent := true, rngScript := [none, some 3#8] }
    acceptError .run s = none ∧ s.cfg.palMode ≠ .ram ∧ some 3#8 ∈ s.rngScript ∧ s.palSilent = true := by decide +kernel
theorem witness_RngRequestedOnce : usesRng .tick = true ∧ usesRng .inject = true ∧
    ({ p2 with rngScript := [none, some 3#8] } : State).rngScript = List.replicate 1 none ++ some 3#8 :: [] := by
  decide +kernel
/-- A response is being shown, and the host has nothing left to do, or waits. -/
theorem witness_IdleOnlyDropsTheResponse :
    let s := p4.respond 0#32
    s.phase = .idle ∧ s.rspValid = true ∧ s.todo = [] ∧ (doing s [.wait]).phase = .idle ∧
    (doing s [.wait]).todo = .wait :: [] := by decide +kernel
/-- The first cycle of `INJECT`, and the last cycle of a pass of `RUN`. -/
theorem witness_RngRequestByPhase : ticking.phase = .inject ∧ ticking.rngReq = true ∧
    (let s := { p5 with phase := .latch, cmdr := encode .run, lcnt := 959 }
     s.phase ≠ .inject ∧ s.clock.phase = .inject ∧ s.clock.rngReq = true) := by decide +kernel
/-- A request answered, and one that is not. -/
theorem witness_ColorRequestsArePulses : p4.Inv ∧ (p4.begin .scan).Inv ∧ (p4.begin .scan).palReq = true ∧
    (p4.begin .scan).clock.palLog = [0#8] ∧ ({ p4 with palSilent := true }.begin .scan).Inv ∧
    ({ p4 with palSilent := true }.begin .scan).palReq = true ∧ (ram22.begin .palinit).palReq = true ∧
    ram22.cfg.palMode = .ram :=
  ⟨witness_inv_p4, inv_of_clauses (by decide +kernel) ⟨⟨.scan, rfl, by decide +kernel, rfl⟩, by decide +kernel⟩,
    by decide +kernel, by decide +kernel,
    inv_of_clauses (by decide +kernel) ⟨⟨.scan, rfl, by decide +kernel, rfl⟩, by decide +kernel⟩, by decide +kernel⟩
/-- A faulting command, `RUN`, a read, a lookup and a command without a result. -/
theorem witness_Responses : acceptError .tick State.reset ≠ none ∧
    nextHas (exec .tick State.reset) (fun _ => true) = true ∧ acceptError .run p5 = none ∧
    nextHas (exec .run p5) (fun _ => true) = true ∧ acceptError (.getpx 1 1) p4 = none ∧
    nextHas (exec (.getpx 1 1) p4) (fun _ => true) = true ∧ acceptError (.lookup 255) p4 = none ∧
    nextHas (exec (.lookup 255) p4) (fun _ => true) = true ∧ acceptError .diffuse p4 = none ∧
    nextHas (exec .diffuse p4) (fun _ => true) = true := by decide +kernel
theorem witness_CommandFrame : (∃ t, exec .diffuse p4 = .next t) ∧ ∃ t, exec .tick State.reset = .next t := by
  obtain ⟨t, h, -⟩ := next_of_nextHas (o := exec .diffuse p4) (p := fun _ => true) (by decide +kernel)
  obtain ⟨u, h', -⟩ := next_of_nextHas (o := exec .tick State.reset) (p := fun _ => true) (by decide +kernel)
  exact ⟨⟨t, h⟩, u, h'⟩
theorem witness_FlagsFallByResetOnly : (doing p4 [.cmd 0x10000000#32]).todo = .cmd 0x10000000#32 :: [] ∧ p4.fbv = true ∧
    p4.palvOut = true ∧ ∃ t, step (doing p4 [.cmd 0x10000000#32]) = .next t := by
  obtain ⟨t, h, -⟩ := next_of_nextHas (o := step (doing p4 [.cmd 0x10000000#32])) (p := fun _ => true) (by decide +kernel)
  exact ⟨by decide +kernel, by decide +kernel, by decide +kernel, t, h⟩
theorem witness_ConfigurationFixed : ∃ t, step (doing p4 [.rst]) = .next t := by
  obtain ⟨t, h, -⟩ := next_of_nextHas (o := step (doing p4 [.rst])) (p := fun _ => true) (by decide +kernel)
  exact ⟨t, h⟩
/-- One parameter set for each reason. -/
theorem witness_IllegalBuildsRefused :
    ¬ (Params.ofSize 8 4 5 .ram).l ∣ (Params.ofSize 8 4 5 .ram).w * (Params.ofSize 8 4 5 .ram).h ∧
    (Params.ofSize 0 4 1 .ram).w = 0 ∧ 256 < (Params.ofSize 257 4 4 .ram).w ∧ (Params.ofSize 4 0 1 .ram).h = 0 ∧
    256 < (Params.ofSize 4 257 4 .ram).h ∧ (Params.ofSize 8 4 0 .ram).l = 0 ∧
    (Params.ofSize 7 4 4 .ram).portw < (Params.ofSize 7 4 4 .ram).firstPin + 7 * 4 / 4 ∧
    ({ Params.ofSize 8 4 32 .ram with tLatch := 959 } : Params).tLatch < 960 ∧
    24 * (7 + 6 + 7) < 8 * 4 / 32 * ({ Params.ofSize 8 4 32 .ram with tFetch := 481 } : Params).tFetch ∧
    (Params.ofSize 8 4 32 .ram).Legal ∧ (Params.ofSize 8 4 32 .ram).palSrc.length = 256 ∧
    (Params.ofSize 8 4 32 .ram).addrMap = .direct ∧ (Params.ofSize 8 4 32 .ram).pixMap = .direct ∧ Config.build (Params.ofSize 8 4 32 .ram) = some Config.sample := by decide +kernel
theorem witness_BootMakesReady : (Instr.setpx 7#8 3#8 255#8).wellFormed Config.sample.toParams = true ∧
    7 < Config.sample.w ∧ 3 < Config.sample.h := by decide +kernel
theorem witness_StatusOutputs : p4.Inv ∧ ticking.Inv ∧ haltedP4.Inv ∧ haltedP4.halted = true :=
  ⟨witness_inv_p4, witness_inv_ticking, witness_inv_haltedP4, by decide +kernel⟩
theorem witness_StepKeepsInvariant : p4.Inv ∧ ∃ t, step p4 = .next t := by
  obtain ⟨t, h, -⟩ := next_of_nextHas (o := step p4) (p := fun _ => true) (by decide +kernel)
  exact ⟨witness_inv_p4, t, h⟩
theorem witness_ClockKeepsInvariant : ticking.Inv := witness_inv_ticking
theorem witness_PhaseTransitions_busy : ticking.Inv ∧ ticking.cmdr = encode .tick ∧ ticking.phase ≠ .idle ∧
    ticking.phase ≠ .halt := ⟨witness_inv_ticking, by decide +kernel⟩
theorem witness_PhaseTransitions_idle : p4.Inv ∧ p4.phase = .idle := ⟨witness_inv_p4, by decide +kernel⟩
theorem witness_PhaseTransitions_halt : haltedP4.Inv ∧ haltedP4.phase = .halt := ⟨witness_inv_haltedP4, by decide +kernel⟩
theorem witness_CyclesRefineCommands : ∃ t, exec .scan p4 = .next t := by
  obtain ⟨t, h, -⟩ := next_of_nextHas (o := exec .scan p4) (p := fun _ => true) (by decide +kernel)
  exact ⟨t, h⟩
theorem witness_ScanPortByCycle : p4.fbv = true ∧ p4.palvOut = true ∧ p4.palSilent = false ∧
    47 < 24 * p4.cfg.l ∧ 19 < p4.cfg.tbit ∧ p4.cfg.th = 7 ∧ p4.cfg.th + p4.cfg.tp = 13 ∧ 959 < p4.cfg.tLatch := by
  decide +kernel

end Sys2Proof.Tests
end

section
/-!
PROOFS. What the effect of a command leaves to others, and from it that no step changes the build (R6, R7).
-/

namespace Sys2Proof.Machine

theorem cfg_of_outer {s t : State} (h : t.outer = s.outer) : t.cfg = s.cfg := congrArg Prod.fst h

theorem outer_raiseFault (s : State) (e : ErrCode) (w : Word32) : (s.raiseFault e w).outer = s.outer := rfl

theorem outer_fbinitBody (s : State) : (fbinitBody s).outer = s.outer := by rw [fbinitBody_frame]; rfl

theorem outer_palinitBody (s : State) : (palinitBody s).outer = s.outer := by
  unfold palinitBody
  split
  · rw [outer_setPalv, fillColor_iterate]
    rfl
  · rfl

theorem outer_diffuseBody (s : State) : (diffuseBody s).outer = s.outer := by rw [diffuseBody_frame]; rfl

theorem outer_simBody (s : State) : (simBody s).outer = s.outer := by rw [simBody_frame]; rfl

theorem outer_scanBody (s : State) : (scanBody s).outer = s.outer := by rw [scanBody_frame]; rfl

theorem outer_tickBody (s : State) : (tickBody s).outer = s.outer := by rw [tickBody_frame]; rfl

/-- No command touches the build, the count of resets or the host's plans. -/
theorem outer_effect (i : Instr) (s : State) : (effect i s).outer = s.outer := by
  cases i with
  | fbinit => exact outer_fbinitBody s
  | palinit => exact outer_palinitBody s
  | setpx x y v => exact outer_setCell s x.toNat y.toNat v
  | getpx x y => exact outer_respond s _
  | lookup k => exact outer_logLookup s k
  | inject => exact outer_injectBody s
  | diffuse => exact outer_diffuseBody s
  | sim => exact outer_simBody s
  | scan => exact outer_scanBody s
  | tick => exact outer_tickBody s
  | run => exact (outer_enter (tickBody s) .inject).trans (outer_tickBody s)

variable {i : Instr} {w : Word32} {s t : State}

theorem outer_exec (h : exec i s = .next t) : t.outer = s.outer := by
  obtain ⟨e, -, rfl⟩ | ⟨-, -, rfl⟩ := exec_cases h
  · exact outer_raiseFault s e (encode i)
  · rw [outer_effect, outer_begin]

theorem outer_acceptWord (h : acceptWord w s = .next t) : t.outer = s.outer := by
  cases hd : decode w with
  | ok i => exact outer_exec ((acceptWord_ok hd).symm.trans h)
  | error r =>
    rw [acceptWord_error hd] at h
    cases h
    exact outer_raiseFault s .illegal w

theorem outer_goOn (h : goOn s = .next t) : t.outer = s.outer := by
  obtain ⟨-, -, -, rfl⟩ | ⟨-, -, rfl⟩ := goOn_cases h
  · rw [outer_enter, outer_tickBody, outer_quiet]
  · exact outer_clock s

/-- Reset reloads every register but not the parameters of the build (R211). -/
theorem applyReset_keeps_cfg (s : State) : s.applyReset.cfg = s.cfg := by
  rw [State.applyReset_cfg, State.resetOf_cfg]

/-- No step changes the build, whatever the host does in it (R6). -/
theorem step_keeps_cfg (h : step s = .next t) : t.cfg = s.cfg := by
  obtain ⟨u, l, rfl, -, hgo⟩ | ⟨w, l, -, -, hacc⟩ | ⟨l, -, rfl⟩ | ⟨w, n, l, -, rfl⟩ := step_cases h
  · exact cfg_of_outer (s := s.setTodo l) (outer_goOn hgo)
  · exact cfg_of_outer (s := s.setTodo l) (outer_acceptWord hacc)
  · exact applyReset_keeps_cfg (s.setTodo l)
  · have hcut : (State.clock^[n] ((s.setTodo l).offer w)).outer = (s.setTodo l).outer := by
      rw [outer_clocks, outer_offer]
    exact (applyReset_keeps_cfg _).trans (cfg_of_outer (s := s.setTodo l) hcut)

/-- Settles O43: neither a command, nor a cycle, nor a reset, nor a cut command writes the build. -/
theorem configurationFixed : Obligations.ConfigurationFixed := by
  intro s t h
  exact step_keeps_cfg h

end Sys2Proof.Machine
end

section
/-!
PROOFS. Building a configuration: it succeeds for the legal parameter sets and for no other (R7).
-/

namespace Sys2Proof

theorem Config.build_of_legal {p : Params} (h : p.Legal) : Config.build p = some ⟨p, h⟩ := dif_pos h

theorem Config.build_of_not_legal {p : Params} (h : ¬ p.Legal) : Config.build p = none := dif_neg h

theorem Config.toParams_of_build {p : Params} {c : Config} (h : Config.build p = some c) : c.toParams = p := by
  by_cases hl : p.Legal
  · rw [Config.build_of_legal hl] at h
    cases h
    rfl
  · rw [Config.build_of_not_legal hl] at h
    cases h

/-- A legal map is the spec's own or a table that names each cell number once (U19). -/
theorem CellMap.legal_iff {n : Nat} {m : CellMap} :
    m.legal n = true ↔ m = .direct ∨ ∃ t, m = .table t ∧ t.length = n ∧ t.Nodup ∧ ∀ a ∈ t, a < n := by
  cases m with
  | direct => simp [CellMap.legal]
  | table t => simp [CellMap.legal, and_assoc]

/-- Settles O44: a set that breaks a condition is not legal, and `build` refuses exactly the sets that are not. -/
theorem illegalBuildsRefused : Obligations.IllegalBuildsRefused := by
  refine ⟨fun p hbad => Config.build_of_not_legal fun hlegal => ?_, ?_, fun p c => Config.toParams_of_build⟩
  · obtain ⟨⟨hw, hw'⟩, ⟨hh, hh'⟩, hl, hdvd, hpins, -, -, hlatch, ⟨-, hbudget⟩, -⟩ := hlegal
    unfold Params.n Params.npix at hpins
    unfold Params.n Params.npix Params.tbit at hbudget
    rcases hbad with hbad | hbad
    · exact hbad hdvd
    · omega
  · intro p hdvd hw hw' hh hh' hl hpins hlatch hbudget hsrc ⟨hth, htp, htl, hfetch⟩ hmaps
    have haddr : p.addrMap.legal p.npix = true := CellMap.legal_iff.2 (hmaps _ (.inl rfl))
    have hpix : p.pixMap.legal p.npix = true := CellMap.legal_iff.2 (hmaps _ (.inr rfl))
    have hlegal : p.Legal := ⟨⟨hw, hw'⟩, ⟨hh, hh'⟩, hl, hdvd, hpins, hsrc, ⟨hth, htp, htl⟩, hlatch,
      ⟨hfetch, hbudget⟩, haddr, hpix⟩
    exact ⟨_, Config.build_of_legal hlegal, rfl⟩

end Sys2Proof
end

section
/-!
PROOFS. The decoder gives back the command whose word it reads (R73, R82), and the operation code names the command (R71).
-/

namespace Sys2Proof

/-- No bit of a command is lost in its word, at any operands. -/
theorem decode_encode (i : Instr) : decode (encode i) = .ok i := by
  cases i with
  | setpx x y v =>
    show decode (packWord 0x3#4 0#4 y x v) = _
    simp [decode, decodeOp]
  | getpx x y =>
    show decode (packWord 0x4#4 0#4 y x 0#8) = _
    simp [decode, decodeOp, formatXY]
  | lookup k =>
    show decode (packWord 0x5#4 0#4 0#8 0#8 k) = _
    simp [decode, decodeOp, formatI]
  | fbinit => decide
  | palinit => decide
  | inject => decide
  | diffuse => decide
  | sim => decide
  | scan => decide
  | tick => decide
  | run => decide

namespace Machine

/-- The operation code in `CMDR` is that of the command whose word stands there (R21). -/
theorem opcode_of_cmdr {s : State} {i : Instr} (h : s.cmdr = encode i) : s.opcode = i.opcode := by
  unfold State.opcode
  rw [h, fieldOp_encode]

theorem begin_opcode (s : State) (i : Instr) : (s.begin i).opcode = i.opcode := opcode_of_cmdr (begin_cmdr s i)

/-- The word of a command that passes the checks starts the command. -/
theorem accept_encode_of_ok {s : State} {i : Instr} (h : acceptError i s = none) : s.accept (encode i) = s.begin i := by
  simp [State.accept, decode_encode, h]

/-- The word of a command that fails a check raises the fault. -/
theorem accept_encode_of_fault {s : State} {i : Instr} {e : ErrCode} (h : acceptError i s = some e) :
    s.accept (encode i) = s.raiseFault e (encode i) := by
  simp [State.accept, decode_encode, h]

end Machine

end Sys2Proof
end

section
/-!
PROOFS. The cycles of a command lead to its effect (R24, R56, R170): the phases of Laws/Cycle, put together in the order of
R173.
-/

namespace Sys2Proof.Machine

/-- Some number of cycles leads from `s` to `t`. -/
def State.leadsTo (s t : State) : Prop := ∃ n, State.clock^[n] s = t

theorem leadsTo_refl (s : State) : s.leadsTo s := ⟨0, rfl⟩

theorem leadsTo_clock (s : State) : s.leadsTo s.clock := ⟨1, rfl⟩

theorem leadsTo_trans {s t u : State} (h : s.leadsTo t) (h' : t.leadsTo u) : s.leadsTo u := by
  obtain ⟨m, rfl⟩ := h
  obtain ⟨n, rfl⟩ := h'
  exact ⟨n + m, Function.iterate_add_apply _ n m s⟩

/-- What every cycle keeps holds wherever the cycles lead. -/
theorem leadsTo_keeps {P : State → Prop} (hclock : ∀ s, P s → P s.clock) {s t : State} (h : s.leadsTo t) (hs : P s) :
    P t := by
  obtain ⟨n, rfl⟩ := h
  exact Function.Iterate.rec P hs hclock n

/-- No port keeps the command waiting for ever (R190 d). -/
theorem neverAnswered_eq_none {i : Instr} {s : State} : neverAnswered i s = none ↔
    (usesRng i = true → s.rngStuck = false) ∧ (usesColorSource s.cfg.palMode i = true → s.palSilent = false) := by
  unfold neverAnswered
  cases usesRng i <;> cases s.rngStuck <;> cases usesColorSource s.cfg.palMode i <;> cases s.palSilent <;> simp

/-- A command that scans waits for no color for ever. -/
theorem colorsAnswered_of_passesScan {i : Instr} {s : State} (hi : passesScan i = true) (h : neverAnswered i s = none) :
    s.colorsAnswered := by
  obtain ⟨-, hcolor⟩ := neverAnswered_eq_none.1 h
  by_cases hm : s.cfg.palMode = .ram
  · exact .inl hm
  · refine .inr (hcolor ?_)
    simp only [passesScan, Bool.or_eq_true, decide_eq_true_eq] at hi
    obtain (rfl | rfl) | rfl := hi <;> simp [usesColorSource, usesPalette, hm]

/-- Whether the colors are answered is a matter of the build and of the source. -/
theorem colorsAnswered_of_outer {s t : State} (h : t.outer = s.outer) (hs : s.colorsAnswered) : t.colorsAnswered := by
  have hsilent : t.palSilent = s.palSilent := congrArg (fun o => o.2.2.2.2) h
  unfold State.colorsAnswered
  rw [cfg_of_outer h, hsilent]
  exact hs

variable {s b : State}

/-! The command and the response stand through the bodies. -/

theorem prefetchBody_rspValid (b : State) : (prefetchBody b).rspValid = b.rspValid := by
  unfold prefetchBody
  rw [fetch_iterate_frame]
theorem shiftBody_rspValid (b : State) : (shiftBody b).rspValid = b.rspValid := by
  unfold shiftBody
  rw [sendPosition_iterate_frame]
theorem simBody_rspValid (b : State) : (simBody b).rspValid = b.rspValid := by rw [simBody_frame]
theorem scanBody_rspValid (b : State) : (scanBody b).rspValid = b.rspValid := by rw [scanBody_frame]
theorem diffuseBody_opcode (b : State) : (diffuseBody b).opcode = b.opcode := by rw [diffuseBody_frame]; rfl
theorem simBody_opcode (b : State) : (simBody b).opcode = b.opcode := by rw [simBody_frame]; rfl
theorem scanBody_opcode (b : State) : (scanBody b).opcode = b.opcode := by rw [scanBody_frame]; rfl
theorem tickBody_opcode (b : State) : (tickBody b).opcode = b.opcode := by rw [tickBody_frame]; rfl

theorem outer_prefetchBody (b : State) : (prefetchBody b).outer = b.outer := by
  unfold prefetchBody
  rw [fetch_iterate_frame]
  rfl

/-- `INJECT` and `DIFFUSE` of a command that is more than an injection (R127, R173). -/
theorem leadsTo_sim (hp : b.phase = .inject) (hq : b.rspValid = false) (hs : b.rngStuck = false)
    (hop : b.opcode ≠ Instr.inject.opcode) : b.leadsTo (simBody b).afterDiffuse := by
  obtain ⟨n, hn⟩ := clock_inject hp hq hs
  have hnext : (injectBody b).afterInject = (injectBody b).enter .diffuse := if_neg hop
  refine leadsTo_trans ⟨n + 1, hn.trans hnext⟩ ⟨_, clock_diffuse (b := (injectBody b).enter .diffuse) rfl hq rfl rfl⟩

/-- `PREFETCH`, `SHIFT` and `LATCH` (R149, R173). -/
theorem leadsTo_scan (hp : b.phase = .prefetch) (hq : b.rspValid = false) (h0 : b.pfc = 0) (hs : b.colorsAnswered) :
    b.leadsTo (scanBody b).afterLatch := by
  have hquiet : (prefetchBody b).rspValid = false := (prefetchBody_rspValid b).trans hq
  have hshift : AtPosition ((prefetchBody b).enter .shift) := by
    refine ⟨rfl, hquiet, rfl, rfl, rfl, rfl, colorsAnswered_of_outer ?_ hs, Config.l_pos _⟩
    rw [outer_enter, outer_prefetchBody]
  have hlatch : (shiftBody ((prefetchBody b).enter .shift)).rspValid = false := (shiftBody_rspValid _).trans hquiet
  refine leadsTo_trans ⟨_, clock_prefetch hp hq h0 hs⟩ (leadsTo_trans ⟨_, clock_shift hshift rfl⟩ ?_)
  exact ⟨_, clock_latch (s := (shiftBody ((prefetchBody b).enter .shift)).enter .latch) rfl hlatch rfl rfl⟩

/-- A delay of no cycles does nothing (R171). -/
theorem idleBody_of_zero (ht : s.cfg.tIdle = 0) (h0 : s.icnt = 0) : idleBody s = s := by
  unfold idleBody State.emit State.setIcnt
  rw [ht, pushWave_zero, ← h0]

/-- One pass of the tick loop, with the idle delay passed through in zero cycles where `T_IDLE = 0` (R171, R173). -/
theorem leadsTo_tick (hp : b.phase = .inject) (hq : b.rspValid = false) (hs : b.rngStuck = false)
    (ha : b.colorsAnswered) (hop : b.opcode = Instr.tick.opcode ∨ b.opcode = Instr.run.opcode) :
    b.leadsTo (tickBody b).afterIdle := by
  have hnot : b.opcode ≠ Instr.inject.opcode ∧ ¬ (b.opcode = Instr.diffuse.opcode ∨ b.opcode = Instr.sim.opcode) ∧
      b.opcode ≠ Instr.scan.opcode := by
    obtain h | h := hop <;> rw [h] <;> decide
  obtain ⟨hinject, hdiffuse, hscan⟩ := hnot
  have hsim := leadsTo_sim hp hq hs hinject
  have hend : (simBody b).afterDiffuse = (simBody b).enter .prefetch := if_neg (by rw [simBody_opcode]; exact hdiffuse)
  rw [hend] at hsim
  have hquiet : ((simBody b).enter .prefetch).rspValid = false := (simBody_rspValid b).trans hq
  have hanswered : ((simBody b).enter .prefetch).colorsAnswered :=
    colorsAnswered_of_outer (by rw [outer_enter, outer_simBody]) ha
  refine leadsTo_trans hsim (leadsTo_trans (leadsTo_scan rfl hquiet rfl hanswered) ?_)
  have hopc : (scanBody ((simBody b).enter .prefetch)).opcode = b.opcode :=
    (scanBody_opcode _).trans (simBody_opcode b)
  have hquiet' : (scanBody ((simBody b).enter .prefetch)).rspValid = false := (scanBody_rspValid _).trans hquiet
  unfold tickBody State.afterLatch
  rw [hopc, if_neg hscan]
  generalize scanBody ((simBody b).enter .prefetch) = t at hquiet'
  split
  · next ht =>
    rw [idleBody_of_zero (s := t.enter .idledly) ht rfl]
    exact leadsTo_refl _
  · next ht => exact ⟨_, clock_idledly (s := t.enter .idledly) rfl hquiet' rfl rfl (Nat.pos_of_ne_zero ht)⟩

/-- `RUN` goes on to its next pass, `TICK` answers (R173). -/
theorem afterIdle_of_run (h : s.opcode = Instr.run.opcode) : s.afterIdle = s.enter .inject := if_pos h

/-- A command of phase `ACCESS` takes the one cycle of that phase. -/
theorem clock_begin_access {i : Instr} (hi : firstPhase i = .access) : (s.begin i).clock = (s.begin i).accessCycle := by
  rw [clock_of_access ((begin_phase s i).trans hi), quiet_eq (begin_rspValid s i)]

/-- From its start on, the cycles of a command whose ports answer lead to its effect (R170). -/
theorem leadsTo_effect (i : Instr) (h : neverAnswered i s = none) : (s.begin i).leadsTo (effect i (s.begin i)) := by
  obtain ⟨hrng, hcolor⟩ := neverAnswered_eq_none.1 h
  have hop := begin_opcode s i
  cases i with
  | fbinit => exact ⟨_, clock_fbinit (b := s.begin .fbinit) rfl rfl rfl⟩
  | palinit =>
    obtain ⟨n, hn⟩ := clock_palinit (b := s.begin .palinit) rfl rfl rfl fun hm => hcolor (decide_eq_true hm)
    exact ⟨n + 1, hn⟩
  | setpx x y v =>
    refine ⟨1, (clock_begin_access (i := .setpx x y v) rfl).trans ?_⟩
    simp only [State.accessCycle, begin_cmdr, decode_encode, effect]
  | getpx x y =>
    refine ⟨1, (clock_begin_access (i := .getpx x y) rfl).trans ?_⟩
    simp only [State.accessCycle, begin_cmdr, decode_encode, effect]
  | lookup k =>
    have hstuck : (s.begin (.lookup k)).colorStuck = false := by
      by_cases hm : s.cfg.palMode = .ram
      · simp [State.colorStuck, hm, firstPhase]
      · have hsilent : s.palSilent = false := hcolor (by simp [usesColorSource, usesPalette, hm])
        simp [State.colorStuck, State.begin, hsilent]
    refine ⟨1, (clock_begin_access (i := .lookup k) rfl).trans ?_⟩
    simp only [State.accessCycle, begin_cmdr, decode_encode, effect, hstuck, Bool.false_eq_true, if_false]
  | inject =>
    obtain ⟨n, hn⟩ := clock_inject (b := s.begin .inject) rfl rfl (hrng rfl)
    exact ⟨n + 1, hn.trans (if_pos hop)⟩
  | diffuse =>
    exact ⟨_, (clock_diffuse (b := s.begin .diffuse) rfl rfl rfl rfl).trans
      (if_pos (.inl ((diffuseBody_opcode _).trans hop)))⟩
  | sim =>
    have hend : (simBody (s.begin .sim)).afterDiffuse = (simBody (s.begin .sim)).respond 0#32 :=
      if_pos (.inr ((simBody_opcode _).trans hop))
    have hsim := leadsTo_sim (b := s.begin .sim) rfl rfl (hrng rfl) (by rw [hop]; decide)
    rwa [hend] at hsim
  | scan =>
    have hend : (scanBody (s.begin .scan)).afterLatch = (scanBody (s.begin .scan)).respond 0#32 :=
      if_pos ((scanBody_opcode _).trans hop)
    have hscan := leadsTo_scan (b := s.begin .scan) rfl rfl rfl (colorsAnswered_of_passesScan (i := .scan) rfl h)
    rwa [hend] at hscan
  | tick =>
    have hend : (tickBody (s.begin .tick)).afterIdle = (tickBody (s.begin .tick)).respond 0#32 :=
      if_neg (by rw [tickBody_opcode, hop]; decide)
    have htick := leadsTo_tick (b := s.begin .tick) rfl rfl (hrng rfl) (colorsAnswered_of_passesScan (i := .tick) rfl h)
      (.inl hop)
    rwa [hend] at htick
  | run =>
    have htick := leadsTo_tick (b := s.begin .run) rfl rfl (hrng rfl) (colorsAnswered_of_passesScan (i := .run) rfl h)
      (.inr hop)
    rwa [afterIdle_of_run ((tickBody_opcode _).trans hop)] at htick

/-- What a command answers is reached by cycles from the acceptance of its word. -/
theorem leadsTo_of_exec {i : Instr} {t : State} (h : exec i s = .next t) : (s.accept (encode i)).leadsTo t := by
  obtain ⟨e, he, rfl⟩ | ⟨hok, hanswered, rfl⟩ := exec_cases h
  · rw [accept_encode_of_fault he]
    exact leadsTo_refl _
  · rw [accept_encode_of_ok hok]
    exact leadsTo_effect i hanswered

/-- Settles O51: a fault is the acceptance itself, and an accepted command's phases lead to its effect. -/
theorem cyclesRefineCommands : Obligations.CyclesRefineCommands := by
  intro i s t h
  exact leadsTo_of_exec h

end Sys2Proof.Machine
end

section
/-!
PROOFS. The invariant, part by part: what the memories, the banks and the flags keep under each operation (R28, R29, R36,
R39, R40).
-/

namespace Sys2Proof.Machine

/-- The part of the invariant that does not speak of the phase: the memories, the flags, the banks, no fault on record, and no
color request open with a source that answers. -/
structure State.Sound (s : State) : Prop where
  fbForm : Memory.wf s.fb ∧ ∀ x ∈ s.fb, x.1 < s.cfg.npix
  palForm : Memory.wf s.palc ∧ ∀ x ∈ s.palc, x.1 < 256 ∧ x.2 = palSrcAt s.cfg.toParams (BitVec.ofNat 8 x.1)
  palMode : s.cfg.palMode ≠ .ram → s.palc = [] ∧ s.palv = true
  fbFull : s.fbv = true → ∀ a < s.cfg.npix, (Memory.read? s.fb a).isSome = true
  palFull : s.cfg.palMode = .ram → s.palv = true → ∀ k < 256, (Memory.read? s.palc k).isSome = true
  banks : s.sr.length = s.cfg.n ∧ s.nx.length = s.cfg.n
  noCause : s.errcode = .none
  noInfo : s.errinfo = 0#32
  waits : s.palWait = true → s.palSilent = true

/-- A write fills its address and empties none. -/
theorem Memory.isSome_read?_write {α : Type} {m : List (Nat × α)} {a b : Nat} (v : α)
    (h : b = a ∨ (Memory.read? m b).isSome = true) : (Memory.read? (Memory.write m a v) b).isSome = true := by
  rw [Memory.read?_write]
  split
  · rfl
  · next hne => exact h.resolve_left hne

/-- A property of every entry stands after a write that has it. -/
theorem Memory.forall_mem_write {α : Type} {m : List (Nat × α)} {p : Nat × α → Prop} {a : Nat} {v : α}
    (h : ∀ x ∈ m, p x) (hp : p (a, v)) : ∀ x ∈ Memory.write m a v, p x := by
  intro x hx
  obtain rfl | hx := Memory.mem_write hx
  · exact hp
  · exact h x hx

/-- A register of a bank that is there is written without a change of length. -/
theorem length_putReg_of_lt {r : List Color} {c : Nat} (v : Color) (hc : c < r.length) :
    (putReg r c v).length = r.length := by
  rw [length_putReg r v (Nat.le_of_lt hc)]
  omega

namespace State.Sound

variable {s : State}

/-! Operations that leave the memories, the flags and the banks alone. -/

theorem quiet (h : s.Sound) : s.quiet.Sound := { h with }
theorem emit (h : s.Sound) (v : PortVal) (n : Nat) : (s.emit v n).Sound := { h with }
theorem setPlace (h : s.Sound) (k j : Nat) : (s.setPlace k j).Sound := { h with }
theorem drive (h : s.Sound) : s.drive.Sound := { h with }
theorem setLcnt (h : s.Sound) (n : Nat) : (s.setLcnt n).Sound := { h with }
theorem setIcnt (h : s.Sound) (n : Nat) : (s.setIcnt n).Sound := { h with }
theorem respond (h : s.Sound) (v : Word32) : (s.respond v).Sound := { h with }
theorem afterDraw (h : s.Sound) : s.afterDraw.Sound := { h with }
theorem setCmdr (h : s.Sound) (w : Word32) : Sound { s with cmdr := w } := { h with }

theorem awaitDraw (h : s.Sound) (r : List (Option Byte)) : Sound { s with rngScript := r, rngWait := true } := { h with }

/-- The start of a phase; `SHIFT` takes its words from `NX`. -/
theorem enter (h : s.Sound) (p : Phase) : (s.enter p).Sound := by
  have hbanks := h.banks
  cases p with
  | shift => exact { h with banks := ⟨hbanks.2, hbanks.2⟩ }
  | palinit => exact { h with waits := nofun }
  | access => exact { h with waits := nofun }
  | prefetch => exact { h with waits := nofun }
  | idle => exact { h with }
  | fbinit => exact { h with }
  | inject => exact { h with }
  | diffuse => exact { h with }
  | latch => exact { h with }
  | idledly => exact { h with }
  | halt => exact { h with }

theorem nextPosition (h : s.Sound) : s.nextPosition.Sound := by
  have hbanks := h.banks
  unfold State.nextPosition
  split
  · exact { h with banks := ⟨hbanks.2, hbanks.2⟩ }
  · exact { h with }

/-! The color source. -/

theorem awaitColor (h : s.Sound) (hs : s.palSilent = true) : s.awaitColor.Sound := by
  unfold State.awaitColor
  split
  · exact h
  · exact { h with waits := fun _ => hs }

theorem logLookup (h : s.Sound) (i : Byte) : (s.logLookup i).Sound := by
  unfold State.logLookup
  split
  · exact h
  · exact { h with waits := nofun }

/-- One fetch writes a register of `NX` (R152). -/
theorem fetch (h : s.Sound) (q : Nat) (hc : s.pfc < s.cfg.n) : (s.fetch q).Sound := by
  have hlog := h.logLookup (s.fbCell (pixmap s.cfg.toParams s.pfc q))
  obtain ⟨hsr, hnx⟩ := h.banks
  refine { hlog with banks := ?_ }
  rw [fetch_frame]
  exact ⟨hsr, (length_putReg_of_lt _ (by rw [hnx]; exact hc)).trans hnx⟩

/-! The memories and the flags. -/

theorem setFb (h : s.Sound) {a : Nat} (v : Byte) (ha : a < s.cfg.npix) : (s.setFb a v).Sound where
  __ := h
  fbForm := ⟨Memory.wf_write h.fbForm.1 a v, Memory.forall_mem_write h.fbForm.2 ha⟩
  fbFull hv b hb := Memory.isSome_read?_write v (.inr (h.fbFull hv b hb))

theorem setCell (h : s.Sound) {x y : Nat} (v : Byte) (hx : x < s.cfg.w) (hy : y < s.cfg.h) : (s.setCell x y v).Sound :=
  h.setFb v (addr_lt s.cfg hx hy)

theorem fillCell (h : s.Sound) (ha : s.filla < s.cfg.npix) : s.fillCell.Sound := { h.setFb 0#8 ha with }

theorem setFbv (h : s.Sound) (hfull : ∀ a < s.cfg.npix, (Memory.read? s.fb a).isSome = true) : s.setFbv.Sound :=
  { h with fbFull := fun _ => hfull }

theorem fillColor (h : s.Sound) (hm : s.cfg.palMode = .ram) (hk : s.pali < 256) : s.fillColor.Sound where
  __ := h
  palForm := ⟨Memory.wf_write h.palForm.1 _ _, Memory.forall_mem_write h.palForm.2 ⟨hk, rfl⟩⟩
  palMode hne := absurd hm hne
  palFull _ hv k hk := Memory.isSome_read?_write _ (.inr (h.palFull hm hv k hk))
  waits := nofun

theorem setPalv (h : s.Sound) (hm : s.cfg.palMode = .ram)
    (hfull : ∀ k < 256, (Memory.read? s.palc k).isSome = true) : s.setPalv.Sound where
  __ := h
  palMode hne := absurd hm hne
  palFull _ _ := hfull

/-- The injection writes a cell of the bottom row (R124). -/
theorem injectBody (h : s.Sound) : (injectBody s).Sound := by
  have hx : s.drawn.toNat % s.cfg.w < s.cfg.w := Nat.mod_lt _ s.cfg.w_pos
  have hy : s.cfg.h - 1 < s.cfg.h := Nat.sub_lt s.cfg.h_pos Nat.one_pos
  exact { h.afterDraw.setCell _ hx hy with }

/-- One cell of a diffusion pass writes that cell (R125). -/
theorem diffuseOne (h : s.Sound) (hx : s.cx.toNat < s.cfg.w) (hy : s.cy.toNat < s.cfg.h) : s.diffuseOne.Sound := by
  have hwrite := h.setCell (newCell s s.cx.toNat s.cy.toNat) hx hy
  rw [diffuseOne_frame, diffuseOne_fb]
  exact { hwrite with }

end State.Sound

end Sys2Proof.Machine
end

section
/-!
PROOFS. The invariant over one cycle, phase by phase (R26, R27, R173).
-/

namespace Sys2Proof.Machine

/-- The commands that pass through a phase (R173). -/
def passes : Phase → Instr → Bool
  | .fbinit => fun i => decide (i = .fbinit)
  | .palinit => fun i => decide (i = .palinit)
  | .access => fun i => decide (firstPhase i = .access)
  | .inject => usesRng
  | .diffuse => passesDiffuse
  | .prefetch => passesScan
  | .shift => passesScan
  | .latch => passesScan
  | .idledly => passesIdle
  | .idle => fun _ => false
  | .halt => fun _ => false

theorem passes_firstPhase (i : Instr) : passes (firstPhase i) i = true := by cases i <;> rfl

theorem firstPhase_ne_idledly (i : Instr) : firstPhase i ≠ .idledly := by cases i <;> exact nofun

/-- What the checks of acceptance read is the build and the two flags (R191). -/
theorem acceptError_congr {s t : State} (hc : t.cfg = s.cfg) (hf : t.fbv = s.fbv) (hp : t.palv = s.palv) (i : Instr) :
    acceptError i t = acceptError i s := by
  unfold acceptError State.palvOut
  rw [hc, hf, hp]

/-- What the command in progress depends on: the build, `CMDR` and the flags. -/
def State.job (s : State) : Config × Word32 × Bool × Bool := (s.cfg, s.cmdr, s.fbv, s.palv)

variable {s t : State} {p q : Instr → Bool}

/-- The command in progress stays what it is while its job does, in every phase it passes through. -/
theorem executing_of_job (hj : t.job = s.job) (hpq : ∀ i, s.cmdr = encode i → p i = true → q i = true)
    (h : s.executing p) : t.executing q := by
  obtain ⟨i, hw, hok, hp⟩ := h
  obtain ⟨hc, hcmdr, hf, hpal⟩ : t.cfg = s.cfg ∧ t.cmdr = s.cmdr ∧ t.fbv = s.fbv ∧ t.palv = s.palv := by
    simpa [State.job] using hj
  exact ⟨i, hcmdr.trans hw, (acceptError_congr hc hf hpal i).trans hok, hpq i hw hp⟩

theorem executing_keeps (hj : t.job = s.job) (h : s.executing p) : t.executing p :=
  executing_of_job hj (fun _ _ hp => hp) h

theorem job_enter (s : State) (p : Phase) : (s.enter p).job = s.job := by cases p <;> rfl

theorem job_awaitColor (s : State) : s.awaitColor.job = s.job := by unfold State.awaitColor; split <;> rfl

theorem job_fetch (s : State) (c : Nat) : (s.fetch c).job = s.job := by rw [fetch_frame]; rfl

theorem job_nextPosition (s : State) : s.nextPosition.job = s.job := by rw [nextPosition_frame]; rfl

/-- A color that is never answered is a source that never answers. -/
theorem palSilent_of_colorStuck (h : s.colorStuck = true) : s.palSilent = true := by
  unfold State.colorStuck at h
  exact (Bool.and_eq_true _ _ ▸ h).1

/-! The invariant and its part that does not speak of the phase. -/

theorem State.Inv.sound (h : s.Inv) (hp : s.phase ≠ .halt) : s.Sound := by
  have hcause : s.errcode = .none := by
    by_contra hc
    exact hp (h.cause.1 hc)
  exact { h with noCause := hcause, noInfo := by rw [h.info, if_pos hcause] }

theorem State.Inv.rspValid_eq_false (h : s.Inv) (hp : s.phase ≠ .idle) : s.rspValid = false := by
  cases hv : s.rspValid with
  | false => rfl
  | true => exact absurd (h.response hv) hp

theorem State.Inv.port_eq_zero (h : s.Inv) (hp : s.phase ≠ .shift) : s.port = 0 := h.portLevel.trans (if_neg hp)

/-- A command in progress meets the invariant if its port and its place are those of its phase. -/
theorem State.Sound.inv (h : s.Sound) (hp : s.phase ≠ .halt) (hq : s.rspValid = false) (hport : s.port = s.portNow)
    (hplace : s.inPlace) : s.Inv where
  __ := h
  portLevel := hport
  cause := iff_of_false (fun hc => hc h.noCause) hp
  info := by rw [h.noInfo, if_pos h.noCause]
  response hv := absurd hv (by rw [hq]; exact nofun)
  place := hplace

/-- Outside `SHIFT` the port of a command in progress is 0. -/
theorem State.Sound.inv_of_low (h : s.Sound) (hp : s.phase ≠ .halt) (hs : s.phase ≠ .shift) (hq : s.rspValid = false)
    (hport : s.port = 0) (hplace : s.inPlace) : s.Inv := h.inv hp hq (hport.trans (if_neg hs).symm) hplace

/-- A response ends the command in the invariant (R77). -/
theorem State.Sound.respond_inv (h : s.Sound) (v : Word32) : (s.respond v).Inv where
  __ := h.respond v
  portLevel := rfl
  cause := iff_of_false (fun hc => hc h.noCause) nofun
  info := h.noInfo.trans (if_pos h.noCause).symm
  response _ := rfl
  place := trivial

/-- The first bit time of a position starts with every chain line high (R146). -/
theorem bitLevel_zero (c : Config) (pat : PortVal) : bitLevel c.toParams pat 0 = highMask c.toParams := if_pos c.th_pos

/-- The start of a phase is a place of it, for a command that passes through it (R173, R198). -/
theorem State.Sound.enter_inv {p : Phase} (h : s.Sound) (hq : s.rspValid = false) (hport : s.port = 0)
    (hex : s.executing (passes p)) (hidle : p = .idledly → 0 < s.cfg.tIdle) : (s.enter p).Inv := by
  have he : (s.enter p).executing (passes p) := executing_keeps (job_enter s p) hex
  have hs := h.enter p
  cases p with
  | idle => obtain ⟨_, -, -, hno⟩ := hex; cases hno
  | halt => obtain ⟨_, -, -, hno⟩ := hex; cases hno
  | fbinit => exact hs.inv_of_low nofun nofun hq hport ⟨he, s.cfg.npix_pos, nofun⟩
  | palinit => exact hs.inv_of_low nofun nofun hq hport ⟨he, Nat.zero_lt_succ 255, nofun⟩
  | access => exact hs.inv_of_low nofun nofun hq hport he
  | inject => exact hs.inv_of_low nofun nofun hq hport he
  | diffuse =>
    refine hs.inv_of_low nofun nofun hq hport ⟨he, s.cfg.w_pos, ?_⟩
    have hpos := s.cfg.h_pos
    have hle := s.cfg.h_le
    show (BitVec.ofNat 9 (s.cfg.h - 1)).toNat < s.cfg.h
    rw [BitVec.toNat_ofNat]
    omega
  | prefetch => exact hs.inv_of_low nofun nofun hq rfl ⟨he, s.cfg.n_pos⟩
  | shift =>
    exact hs.inv nofun hq (bitLevel_zero s.cfg _).symm
      ⟨he, s.cfg.l_pos, Nat.zero_lt_succ 23, s.cfg.tbit_pos, Nat.zero_le _⟩
  | latch => exact hs.inv_of_low nofun nofun hq rfl ⟨he, lt_of_lt_of_le (Nat.zero_lt_succ 959) s.cfg.tLatch_ge⟩
  | idledly => exact hs.inv_of_low nofun nofun hq rfl ⟨he, hidle rfl⟩

/-! Which commands are left where the sequencer branches (R173). -/

theorem passesDiffuse_of_usesRng {i : Instr} (h : usesRng i = true) (hop : i.opcode ≠ Instr.inject.opcode) :
    passesDiffuse i = true := by
  cases i <;> simp_all [usesRng, passesDiffuse]

theorem passesScan_of_passesDiffuse {i : Instr} (h : passesDiffuse i = true)
    (hop : ¬ (i.opcode = Instr.diffuse.opcode ∨ i.opcode = Instr.sim.opcode)) : passesScan i = true := by
  cases i <;> simp_all [passesScan, passesDiffuse]

theorem passesIdle_of_passesScan {i : Instr} (h : passesScan i = true) (hop : i.opcode ≠ Instr.scan.opcode) :
    passesIdle i = true := by
  cases i <;> simp_all [passesIdle, passesScan]

theorem usesRng_of_passesIdle {i : Instr} (h : passesIdle i = true) : usesRng i = true := by
  cases i <;> simp_all [passesIdle, usesRng]

/-! The ends of the phases. -/

theorem State.Sound.afterInject_inv (h : s.Sound) (hq : s.rspValid = false) (hport : s.port = 0)
    (hex : s.executing usesRng) : s.afterInject.Inv := by
  unfold State.afterInject
  split
  · exact h.respond_inv _
  · next hop =>
    exact h.enter_inv hq hport (executing_of_job rfl (fun i hw hi =>
      passesDiffuse_of_usesRng hi (opcode_of_cmdr hw ▸ hop)) hex) nofun

theorem State.Sound.afterDiffuse_inv (h : s.Sound) (hq : s.rspValid = false) (hport : s.port = 0)
    (hex : s.executing passesDiffuse) : s.afterDiffuse.Inv := by
  unfold State.afterDiffuse
  split
  · exact h.respond_inv _
  · next hop =>
    exact h.enter_inv hq hport (executing_of_job rfl (fun i hw hi =>
      passesScan_of_passesDiffuse hi (opcode_of_cmdr hw ▸ hop)) hex) nofun

theorem State.Sound.afterIdle_inv (h : s.Sound) (hq : s.rspValid = false) (hport : s.port = 0)
    (hex : s.executing passesIdle) : s.afterIdle.Inv := by
  unfold State.afterIdle
  split
  · exact h.enter_inv hq hport (executing_of_job rfl (fun i _ hi => usesRng_of_passesIdle hi) hex) nofun
  · exact h.respond_inv _

theorem State.Sound.afterLatch_inv (h : s.Sound) (hq : s.rspValid = false) (hport : s.port = 0)
    (hex : s.executing passesScan) : s.afterLatch.Inv := by
  unfold State.afterLatch
  split
  · exact h.respond_inv _
  · next hop =>
    have hidle : s.executing passesIdle :=
      executing_of_job rfl (fun i hw hi => passesIdle_of_passesScan hi (opcode_of_cmdr hw ▸ hop)) hex
    split
    · exact (h.enter .idledly).afterIdle_inv hq rfl (executing_keeps (job_enter s .idledly) hidle)
    · next ht => exact h.enter_inv hq hport hidle fun _ => Nat.pos_of_ne_zero ht

/-! The cycles of each phase. -/

/-- What the invariant says of a command in progress, in a phase that is known. -/
theorem State.Inv.busy {p : Phase} (h : s.Inv) (hp : s.phase = p) (hb : p ≠ .idle ∧ p ≠ .halt) :
    s.Sound ∧ s.rspValid = false ∧ State.inPlace { s with phase := p } ∧ (p ≠ .shift → s.port = 0) := by
  subst hp
  exact ⟨h.sound hb.2, h.rspValid_eq_false hb.1, h.place, h.port_eq_zero⟩

/-- A cycle that stays in its phase, other than `SHIFT`, keeps the port low and needs a place of the phase only. -/
theorem State.Sound.stay_inv {p : Phase} (h : s.Sound) (hp : s.phase = p) (hb : p ≠ .halt ∧ p ≠ .shift)
    (hq : s.rspValid = false) (hport : s.port = 0) (hplace : State.inPlace { s with phase := p }) : s.Inv := by
  subst hp
  exact h.inv_of_low hb.1 hb.2 hq hport hplace

/-- In `SHIFT` the port follows the place, which is one of the scan. -/
theorem State.Sound.shift_inv (h : s.Sound) (hp : s.phase = .shift) (hq : s.rspValid = false)
    (hport : s.port = bitLevel s.cfg.toParams (patternOf s.cfg.toParams s.sr s.bitk) s.cyc)
    (hex : s.executing passesScan) (hpos : s.pos < s.cfg.l) (hbit : s.bitk < 24) (hcyc : s.cyc < s.cfg.tbit)
    (hc : s.pfc ≤ s.cfg.n) : s.Inv := by
  refine h.inv (by rw [hp]; decide) hq (hport.trans (if_pos hp).symm) ?_
  unfold State.inPlace
  rw [hp]
  exact ⟨hex, hpos, hbit, hcyc, hc⟩

/-- The next row of a pass is a row of the grid (R125). -/
theorem diffuseOne_cy_lt (h : s.cy.toNat < s.cfg.h) : s.diffuseOne.cy.toNat < s.cfg.h := by
  rw [diffuseOne_cy]
  split
  · exact h
  · split
    · exact h
    · next hne =>
      have hpos : s.cy.toNat ≠ 0 := fun hz => hne (BitVec.eq_of_toNat_eq hz)
      rw [BitVec.toNat_sub]
      simp only [BitVec.toNat_ofNat]
      omega

theorem wellFormed_setpx {c : Config} {x y v : Byte} (h : (Instr.setpx x y v).wellFormed c.toParams = true) :
    x.toNat < c.w ∧ y.toNat < c.h := by
  simpa [Instr.wellFormed, Instr.coords] using h

namespace State.Inv

theorem quiet (h : s.Inv) : s.quiet.Inv := { h with response := nofun }

theorem emit (h : s.Inv) (v : PortVal) (n : Nat) : (s.emit v n).Inv := { h with }

theorem awaitColor (h : s.Inv) (hs : s.colorStuck = true) : s.awaitColor.Inv := by
  unfold State.awaitColor
  split
  · exact h
  · exact { h with waits := fun _ => palSilent_of_colorStuck hs }

theorem awaitDraw (h : s.Inv) (r : List (Option Byte)) : State.Inv { s with rngScript := r, rngWait := true } := { h with }

theorem fbinitCycle (h : s.Inv) (hp : s.phase = .fbinit) : s.fbinitCycle.Inv := by
  obtain ⟨hs, hq, ⟨hex, ha, hfilled⟩, hport⟩ := h.busy hp (by decide)
  have hfill := hs.fillCell ha
  have hfilled' : ∀ a < s.filla + 1, (Memory.read? s.fillCell.fb a).isSome = true := fun a hlt =>
    Memory.isSome_read?_write _ ((Nat.lt_succ_iff_lt_or_eq.1 hlt).symm.imp_right (hfilled a))
  unfold State.fbinitCycle
  split
  · next hmore => exact hfill.stay_inv hp (by decide) hq (hport nofun) ⟨executing_keeps rfl hex, hmore, hfilled'⟩
  · next hlast => exact (hfill.setFbv fun a hlt => hfilled' a (lt_of_lt_of_le hlt (Nat.le_of_not_lt hlast))).respond_inv _

theorem palinitCycle (h : s.Inv) (hp : s.phase = .palinit) : s.palinitCycle.Inv := by
  obtain ⟨hs, hq, ⟨hex, hk, hfilled⟩, hport⟩ := h.busy hp (by decide)
  unfold State.palinitCycle
  split
  · next hm =>
    have hfill := hs.fillColor hm hk
    have hfilled' : ∀ k < s.pali + 1, (Memory.read? s.fillColor.palc k).isSome = true := fun k hlt =>
      Memory.isSome_read?_write _ ((Nat.lt_succ_iff_lt_or_eq.1 hlt).symm.imp_right (hfilled k))
    split
    · next hstuck => exact h.awaitColor hstuck
    · split
      · next hmore =>
        have hex' : s.fillColor.executing (passes .palinit) := executing_keeps rfl hex
        have hk' : s.fillColor.pali < 256 := by rw [fillColor_eq]; exact hmore
        exact hfill.stay_inv hp (by decide) hq (hport nofun) ⟨hex', hk', hfilled'⟩
      · next hlast =>
        exact (hfill.setPalv hm fun k hlt => hfilled' k (lt_of_lt_of_le hlt (Nat.le_of_not_lt hlast))).respond_inv _
  · exact hs.respond_inv _

theorem accessCycle (h : s.Inv) (hp : s.phase = .access) : s.accessCycle.Inv := by
  obtain ⟨hs, -, ⟨i, hw, hok, hi⟩, -⟩ := h.busy hp (by decide)
  unfold State.accessCycle
  rw [hw, decode_encode]
  cases i with
  | setpx x y v =>
    obtain ⟨hx, hy⟩ := wellFormed_setpx (acceptError_eq_none.1 hok).1
    exact (hs.setCell v hx hy).respond_inv _
  | getpx x y => exact hs.respond_inv _
  | lookup k =>
    show State.Inv (if s.colorStuck then s.awaitColor else (s.logLookup k).respond (colorWord (s.lookup k)))
    split
    · next hstuck => exact h.awaitColor hstuck
    · exact (hs.logLookup k).respond_inv _
  | fbinit => cases hi
  | palinit => cases hi
  | inject => cases hi
  | diffuse => cases hi
  | sim => cases hi
  | scan => cases hi
  | tick => cases hi
  | run => cases hi

theorem injectCycle (h : s.Inv) (hp : s.phase = .inject) : s.injectCycle.Inv := by
  obtain ⟨hs, hq, hex, hport⟩ := h.busy hp (by decide)
  have hdrawn : (injectBody s).afterInject.Inv :=
    hs.injectBody.afterInject_inv hq (hport nofun) (executing_keeps rfl hex)
  unfold State.injectCycle
  split
  · exact h.awaitDraw _
  · exact hdrawn
  · split
    · exact h.awaitDraw s.rngScript
    · exact hdrawn

theorem diffuseCycle (h : s.Inv) (hp : s.phase = .diffuse) : s.diffuseCycle.Inv := by
  obtain ⟨hs, hq, ⟨hex, hx, hy⟩, hport⟩ := h.busy hp (by decide)
  have hone := hs.diffuseOne hx hy
  have hf := diffuseOne_frame s
  have hq' : s.diffuseOne.rspValid = false := by rw [hf]; exact hq
  have hport' : s.diffuseOne.port = 0 := by rw [hf]; exact hport nofun
  have hex' : s.diffuseOne.executing passesDiffuse := executing_keeps (by rw [hf]; rfl) hex
  unfold State.diffuseCycle
  split
  · next hmore =>
    refine hone.stay_inv (p := .diffuse) (by rw [hf]; exact hp) (by decide) hq' hport' ⟨executing_keeps rfl hex', ?_⟩
    rw [diffuseOne_cfg]
    exact ⟨hmore, diffuseOne_cy_lt hy⟩
  · exact hone.afterDiffuse_inv hq' hport' hex'

theorem prefetchCycle (h : s.Inv) (hp : s.phase = .prefetch) : s.prefetchCycle.Inv := by
  obtain ⟨hs, hq, ⟨hex, hc⟩, hport⟩ := h.busy hp (by decide)
  have hfetch := hs.fetch 0 hc
  have hf := fetch_frame 0 s
  have hq' : (s.fetch 0).rspValid = false := by rw [hf]; exact hq
  have hport' : (s.fetch 0).port = 0 := by rw [hf]; exact hport nofun
  have hex' : (s.fetch 0).executing passesScan := executing_keeps (job_fetch s 0) hex
  unfold State.prefetchCycle
  split
  · next hstuck => exact h.awaitColor hstuck
  · split
    · next hmore =>
      refine hfetch.stay_inv (p := .prefetch) (by rw [hf]; exact hp) (by decide) hq' hport' ⟨executing_keeps rfl hex', ?_⟩
      rw [hf]
      exact hmore
    · exact hfetch.enter_inv hq' hport' hex' nofun

/-- The background fetch keeps its place within the chains (R152). -/
theorem fetch_in_shift (h : s.Inv) (hp : s.phase = .shift) (hc : s.pfc < s.cfg.n) (q : Nat) : (s.fetch q).Inv := by
  obtain ⟨hs, hq, ⟨hex, hpos, hbit, hcyc, -⟩, -⟩ := h.busy hp (by decide)
  have hfetch := hs.fetch q hc
  have hex' : (s.fetch q).executing passesScan := executing_keeps (job_fetch s q) hex
  rw [fetch_frame] at hfetch hex' ⊢
  exact hfetch.shift_inv hp hq (h.portLevel.trans (if_pos hp)) hex' hpos hbit hcyc hc

/-- Within a chain position the port follows the place (R146). -/
theorem setPlace_drive (h : s.Inv) (hp : s.phase = .shift) {k j : Nat} (hk : k < 24) (hj : j < s.cfg.tbit) :
    (s.setPlace k j).drive.Inv := by
  obtain ⟨hs, hq, ⟨hex, hpos, -, -, hc⟩, -⟩ := h.busy hp (by decide)
  exact (hs.setPlace k j).drive.shift_inv hp hq rfl (executing_keeps rfl hex) hpos hk hj hc

theorem nextPosition (h : s.Inv) (hp : s.phase = .shift) (hl : s.pos + 1 < s.cfg.l) : s.nextPosition.Inv := by
  obtain ⟨hs, hq, ⟨hex, -⟩, -⟩ := h.busy hp (by decide)
  have hnext := hs.nextPosition
  unfold State.nextPosition at hnext ⊢
  rw [if_pos hl] at hnext ⊢
  exact hnext.shift_inv hp hq (bitLevel_zero s.cfg _).symm (executing_keeps rfl hex) hl (Nat.zero_lt_succ 23)
    s.cfg.tbit_pos (Nat.zero_le _)

theorem nextCycle (h : s.Inv) (hp : s.phase = .shift) : s.nextCycle.Inv := by
  obtain ⟨hs, hq, ⟨hex, -, hbit, -⟩, -⟩ := h.busy hp (by decide)
  unfold State.nextCycle
  split
  · next hj => exact h.setPlace_drive hp hbit hj
  · split
    · next hk => exact h.setPlace_drive hp hk s.cfg.tbit_pos
    · split
      · next hl => exact h.nextPosition hp hl
      · next hl =>
        refine hs.nextPosition.enter_inv ?_ ?_ (executing_keeps (job_nextPosition s) hex) nofun
        · rw [nextPosition_frame]
          exact hq
        · unfold State.nextPosition
          rw [if_neg hl]

theorem shiftCycle (h : s.Inv) (hp : s.phase = .shift) : s.shiftCycle.Inv := by
  unfold State.shiftCycle
  split
  · next hfetching =>
    have hc : s.pfc < s.cfg.n := by
      simp only [State.fetching, hp, reduceCtorEq, decide_false, Bool.false_or, decide_true, Bool.true_and,
        Bool.and_eq_true, decide_eq_true_eq] at hfetching
      exact hfetching.2
    split
    · next hstuck =>
      refine (h.awaitColor hstuck).nextCycle ?_
      unfold State.awaitColor
      split <;> exact hp
    · refine (h.fetch_in_shift hp hc (s.pos + 1)).nextCycle ?_
      rw [fetch_frame]
      exact hp
  · exact h.nextCycle hp

theorem latchCycle (h : s.Inv) (hp : s.phase = .latch) : s.latchCycle.Inv := by
  obtain ⟨hs, hq, ⟨hex, -⟩, hport⟩ := h.busy hp (by decide)
  have hset := hs.setLcnt (s.lcnt + 1)
  unfold State.latchCycle
  split
  · next hmore => exact hset.stay_inv hp (by decide) hq (hport nofun) ⟨executing_keeps rfl hex, hmore⟩
  · exact hset.afterLatch_inv hq (hport nofun) (executing_keeps rfl hex)

theorem idleCycle (h : s.Inv) (hp : s.phase = .idledly) : s.idleCycle.Inv := by
  obtain ⟨hs, hq, ⟨hex, -⟩, hport⟩ := h.busy hp (by decide)
  have hset := hs.setIcnt (s.icnt + 1)
  unfold State.idleCycle
  split
  · next hmore => exact hset.stay_inv hp (by decide) hq (hport nofun) ⟨executing_keeps rfl hex, hmore⟩
  · exact hset.afterIdle_inv hq (hport nofun) (executing_keeps rfl hex)

/-- One cycle keeps the invariant, whatever the phase. -/
theorem clock (h : s.Inv) : s.clock.Inv := by
  cases hp : s.phase with
  | idle => rw [clock_of_idle hp]; exact h.quiet
  | halt => rw [clock_of_halt hp]; exact h.quiet
  | fbinit => rw [clock_of_fbinit hp]; exact h.quiet.fbinitCycle hp
  | palinit => rw [clock_of_palinit hp]; exact h.quiet.palinitCycle hp
  | access => rw [clock_of_access hp]; exact h.quiet.accessCycle hp
  | inject => rw [clock_of_inject hp]; exact h.quiet.injectCycle hp
  | diffuse => rw [clock_of_diffuse hp]; exact h.quiet.diffuseCycle hp
  | prefetch => rw [clock_of_prefetch hp]; exact h.quiet.prefetchCycle hp
  | shift => rw [clock_of_shift hp]; exact (h.emit _ 1).quiet.shiftCycle hp
  | latch => rw [clock_of_latch hp]; exact (h.emit _ 1).quiet.latchCycle hp
  | idledly => rw [clock_of_idledly hp]; exact (h.emit _ 1).quiet.idleCycle hp

end State.Inv

/-- Settles O49: each phase's cycle keeps the memories, the port and the place of the command in progress. -/
theorem clockKeepsInvariant : Obligations.ClockKeepsInvariant := by
  intro s h
  exact h.clock

end Sys2Proof.Machine
end

section
/-!
PROOFS. The invariant over a step: a step that is no reset is cycles from the state before it or from an acceptance (R24, R84),
and a reset meets the invariant from anywhere (R211).
-/

namespace Sys2Proof.Machine

variable {s t : State}

/-- The block left to itself goes on by cycles, a pass of `RUN` from the state whose response has fallen (R172). -/
theorem goOn_leadsTo (h : goOn s = .next t) : s.leadsTo t ∨ s.quiet.leadsTo t := by
  obtain ⟨hp, hop, hanswered, rfl⟩ | ⟨-, -, rfl⟩ := goOn_cases h
  · right
    have htick := leadsTo_tick (b := s.quiet) hp rfl ((neverAnswered_eq_none.1 hanswered).1 rfl)
      (colorsAnswered_of_passesScan (s := s) (i := .run) rfl hanswered) (.inr hop)
    rwa [afterIdle_of_run (s := tickBody s.quiet) ((tickBody_opcode _).trans hop)] at htick
  · exact .inl (leadsTo_clock s)

/-- A word accepted is accepted by the cycle machine too. -/
theorem acceptWord_leadsTo {w : Word32} (h : acceptWord w s = .next t) : ∃ w', (s.accept w').leadsTo t := by
  cases hd : decode w with
  | ok i => exact ⟨encode i, leadsTo_of_exec ((acceptWord_ok hd).symm.trans h)⟩
  | error r =>
    rw [acceptWord_error hd] at h
    cases h
    refine ⟨w, 0, ?_⟩
    simp [State.accept, hd]

/-- The host resets the block in the next step. -/
def State.resetNext (s : State) : Prop := (∃ l, s.todo = .rst :: l) ∨ ∃ w n l, s.todo = .cut w n :: l

/-- What a cycle, an acceptance and a reset keep, and what does not depend on the host's acts or on the response, every step
keeps. -/
theorem step_keeps {P : State → Prop} (htodo : ∀ u l, P u → P (u.setTodo l)) (hquiet : ∀ u, P u → P u.quiet)
    (haccept : ∀ u w, u.phase = .idle → P u → P (u.accept w)) (hclock : ∀ u, P u → P u.clock)
    (hreset : s.resetNext → ∀ u : State, P u.applyReset) (h : step s = .next t) (hs : P s) : P t := by
  obtain ⟨u, l, rfl, -, hgo⟩ | ⟨w, l, -, hp, hacc⟩ | ⟨l, htd, rfl⟩ | ⟨w, n, l, htd, rfl⟩ := step_cases h
  · obtain hlead | hlead := goOn_leadsTo hgo
    · exact leadsTo_keeps hclock hlead (htodo s l hs)
    · exact leadsTo_keeps hclock hlead (hquiet _ (htodo s l hs))
  · obtain ⟨w', hlead⟩ := acceptWord_leadsTo hacc
    exact leadsTo_keeps hclock hlead (haccept _ w' hp (htodo s l hs))
  · exact hreset (.inl ⟨l, htd⟩) _
  · exact hreset (.inr ⟨w, n, l, htd⟩) _

/-- The first failing check names a cause (R191). -/
theorem acceptError_ne_none {i : Instr} {e : ErrCode} (h : acceptError i s = some e) : e ≠ .none := by
  rintro rfl
  unfold acceptError at h
  split_ifs at h <;> cases h

namespace State.Inv

theorem setTodo (h : s.Inv) (l : List HostAct) : (s.setTodo l).Inv := { h with }

/-- A fault leads to `HALT` with its cause and its word on record (R192). -/
theorem raiseFault (h : s.Inv) {e : ErrCode} (he : e ≠ .none) (w : Word32) : (s.raiseFault e w).Inv where
  __ := h
  portLevel := rfl
  cause := iff_of_true he rfl
  info := (if_neg he).symm
  response := nofun
  place := trivial

/-- A command accepted without a fault starts at the place of its first phase (R173). -/
theorem begin (h : s.Inv) (hp : s.phase = .idle) {i : Instr} (hok : acceptError i s = none) : (s.begin i).Inv := by
  have hs := h.sound (by rw [hp]; decide)
  have hport := h.port_eq_zero (by rw [hp]; decide)
  have hex : State.executing { s.quiet with cmdr := encode i } (passes (firstPhase i)) :=
    ⟨i, rfl, hok, passes_firstPhase i⟩
  exact (hs.quiet.setCmdr (encode i)).enter_inv rfl hport hex fun hidle => absurd hidle (firstPhase_ne_idledly i)

theorem accept (h : s.Inv) (hp : s.phase = .idle) (w : Word32) : (s.accept w).Inv := by
  unfold State.accept
  split
  · exact h.raiseFault (by decide) w
  · split
    · next he => exact h.raiseFault (acceptError_ne_none he) w
    · next hok => exact h.begin hp hok

end State.Inv

/-- The state after the first reset of any build meets the invariant: no memory holds a value and no flag is 1 in RAM mode. -/
theorem resetOf_inv (c : Config) : (State.resetOf c).Inv where
  fbForm := ⟨List.Pairwise.nil, nofun⟩
  palForm := ⟨List.Pairwise.nil, nofun⟩
  palMode hm := ⟨rfl, decide_eq_true hm⟩
  fbFull := nofun
  palFull hm hv := absurd hm (of_decide_eq_true hv)
  banks := ⟨List.length_replicate, List.length_replicate⟩
  portLevel := rfl
  cause := iff_of_false (fun hc => hc rfl) nofun
  info := rfl
  response := nofun
  waits := nofun
  place := trivial

theorem applyReset_inv (s : State) : s.applyReset.Inv := { resetOf_inv s.cfg with waits := nofun }

/-- Settles O48: cycles, acceptance and reset each keep the invariant, and a step is made of these. -/
theorem stepKeepsInvariant : Obligations.StepKeepsInvariant := by
  intro s t h hstep
  exact step_keeps (fun _ l hu => hu.setTodo l) (fun _ hu => hu.quiet) (fun _ w hp hu => hu.accept hp w)
    (fun _ hu => hu.clock) (fun _ => applyReset_inv) hstep h

end Sys2Proof.Machine
end

section
/-!
PROOFS. The flags over a step: only `FBINIT` and `PALINIT` write them, and they write 1 (R28, R29).
-/

namespace Sys2Proof.Machine

variable {s : State}

/-! What a cycle leaves to the command in progress: the job, but for the last cycles of `FBINIT` and `PALINIT`. -/

theorem job_afterInject (s : State) : s.afterInject.job = s.job := by unfold State.afterInject; split <;> rfl

theorem job_afterDiffuse (s : State) : s.afterDiffuse.job = s.job := by unfold State.afterDiffuse; split <;> rfl

theorem job_afterIdle (s : State) : s.afterIdle.job = s.job := by unfold State.afterIdle; split <;> rfl

theorem job_afterLatch (s : State) : s.afterLatch.job = s.job := by
  unfold State.afterLatch
  split
  · rfl
  · split
    · exact job_afterIdle _
    · rfl

theorem job_logLookup (s : State) (i : Byte) : (s.logLookup i).job = s.job := by rw [logLookup_frame]; rfl

theorem job_fillColor (s : State) : s.fillColor.job = s.job := by rw [fillColor_eq]; rfl

theorem job_diffuseOne (s : State) : s.diffuseOne.job = s.job := by rw [diffuseOne_frame]; rfl

theorem job_nextCycle (s : State) : s.nextCycle.job = s.job := by
  unfold State.nextCycle
  split
  · rfl
  · split
    · rfl
    · split
      · exact job_nextPosition s
      · exact job_nextPosition s

theorem job_accessCycle (s : State) : s.accessCycle.job = s.job := by
  unfold State.accessCycle
  split
  · rfl
  · rfl
  · split
    · exact job_awaitColor s
    · exact job_logLookup s _
  · rfl
  · rfl

theorem job_injectCycle (s : State) : s.injectCycle.job = s.job := by
  unfold State.injectCycle
  split
  · rfl
  · exact job_afterInject _
  · split
    · rfl
    · exact job_afterInject _

theorem job_diffuseCycle (s : State) : s.diffuseCycle.job = s.job := by
  unfold State.diffuseCycle
  split
  · exact job_diffuseOne s
  · exact (job_afterDiffuse _).trans (job_diffuseOne s)

theorem job_prefetchCycle (s : State) : s.prefetchCycle.job = s.job := by
  unfold State.prefetchCycle
  split
  · exact job_awaitColor s
  · split
    · exact job_fetch s 0
    · exact (job_enter _ .shift).trans (job_fetch s 0)

theorem job_shiftCycle (s : State) : s.shiftCycle.job = s.job := by
  unfold State.shiftCycle
  split
  · rw [job_nextCycle]
    split
    · exact job_awaitColor s
    · exact job_fetch s _
  · exact job_nextCycle s

theorem job_latchCycle (s : State) : s.latchCycle.job = s.job := by
  unfold State.latchCycle
  split
  · rfl
  · exact job_afterLatch _

theorem job_idleCycle (s : State) : s.idleCycle.job = s.job := by
  unfold State.idleCycle
  split
  · rfl
  · exact job_afterIdle _

theorem job_clock (hf : s.phase ≠ .fbinit) (hp : s.phase ≠ .palinit) : s.clock.job = s.job := by
  cases h : s.phase with
  | idle => rw [clock_of_idle h]; rfl
  | fbinit => exact absurd h hf
  | palinit => exact absurd h hp
  | access => rw [clock_of_access h]; exact job_accessCycle _
  | inject => rw [clock_of_inject h]; exact job_injectCycle _
  | diffuse => rw [clock_of_diffuse h]; exact job_diffuseCycle _
  | prefetch => rw [clock_of_prefetch h]; exact job_prefetchCycle _
  | shift => rw [clock_of_shift h]; exact job_shiftCycle _
  | latch => rw [clock_of_latch h]; exact job_latchCycle _
  | idledly => rw [clock_of_idledly h]; exact job_idleCycle _
  | halt => rw [clock_of_halt h]; rfl

/-- A state whose flags are at least those of another. -/
def State.flagsKept (s t : State) : Prop := (s.fbv = true → t.fbv = true) ∧ (s.palv = true → t.palv = true)

theorem flagsKept_of_job {t : State} (h : t.job = s.job) : s.flagsKept t := by
  obtain ⟨-, -, hf, hp⟩ : t.cfg = s.cfg ∧ t.cmdr = s.cmdr ∧ t.fbv = s.fbv ∧ t.palv = s.palv := by
    simpa [State.job] using h
  exact ⟨hf.trans, hp.trans⟩

/-- No cycle clears a flag. -/
theorem flagsKept_clock (s : State) : s.flagsKept s.clock := by
  by_cases hf : s.phase = .fbinit
  · rw [clock_of_fbinit hf]
    unfold State.fbinitCycle
    split
    · exact ⟨id, id⟩
    · exact ⟨fun _ => rfl, id⟩
  · by_cases hp : s.phase = .palinit
    · rw [clock_of_palinit hp]
      unfold State.palinitCycle
      split
      · split
        · exact flagsKept_of_job (job_awaitColor _)
        · have hfill := flagsKept_of_job (job_fillColor s.quiet)
          split
          · exact hfill
          · exact ⟨hfill.1, fun _ => rfl⟩
      · exact ⟨id, id⟩
    · exact flagsKept_of_job (job_clock hf hp)

theorem flagsKept_accept (s : State) (w : Word32) : s.flagsKept (s.accept w) := by
  unfold State.accept
  split
  · exact ⟨id, id⟩
  · split
    · exact ⟨id, id⟩
    · exact ⟨(begin_fbv s _).trans, (begin_palv s _).trans⟩

/-- The flag as every reader sees it stands while the build and the stored flag do (R29). -/
theorem palvOut_of_flagsKept {t : State} (hc : t.cfg = s.cfg) (h : s.flagsKept t) (hs : s.palvOut = true) :
    t.palvOut = true := by
  unfold State.palvOut at hs ⊢
  rw [hc]
  obtain hm | hv := Bool.or_eq_true_iff.1 hs
  · rw [hm, Bool.true_or]
  · rw [h.2 hv, Bool.or_true]

/-- Settles O42: no cycle and no acceptance clears a flag, and a step without a reset is made of these. -/
theorem flagsFallByResetOnly : Obligations.FlagsFallByResetOnly := by
  intro s t h hrst hcut
  have hno : ¬ s.resetNext := by
    rintro (⟨l, hl⟩ | ⟨w, n, l, hl⟩)
    · exact hrst l hl
    · exact hcut w n l hl
  constructor
  · exact step_keeps (P := fun u => u.fbv = true) (fun _ _ => id) (fun _ => id)
      (fun u w _ => (flagsKept_accept u w).1) (fun u => (flagsKept_clock u).1) (fun hr => absurd hr hno) h
  · exact step_keeps (P := fun u => u.palvOut = true) (fun _ _ => id) (fun _ => id)
      (fun u w _ => palvOut_of_flagsKept (cfg_of_outer (outer_accept u w)) (flagsKept_accept u w))
      (fun u => palvOut_of_flagsKept (cfg_of_outer (outer_clock u)) (flagsKept_clock u)) (fun hr => absurd hr hno) h

end Sys2Proof.Machine
end

section
/-!
PROOFS. The status outputs follow the phase (R31, R185), and the idle block does nothing (R37, R77).
-/

namespace Sys2Proof.Machine

variable {s : State}

theorem code_eq_zero_iff {e : ErrCode} : e.code = 0#3 ↔ e = .none := by cases e <;> decide

/-- With `rst = 0` the block is ready, busy or halted, and no two of these. -/
theorem one_status (s : State) : (s.cmdReady false).toNat + s.busy.toNat + s.halted.toNat = 1 := by
  unfold State.cmdReady State.busy State.halted
  cases s.phase <;> rfl

theorem cmdReady_iff : s.cmdReady false = true ↔ s.phase = .idle := by simp [State.cmdReady]

theorem halted_iff : s.halted = true ↔ s.phase = .halt := decide_eq_true_iff

theorem code_eq_idle_iff {p : Phase} : p.code = 0#4 ↔ p = .idle := by cases p <;> decide

theorem code_eq_halt_iff {p : Phase} : p.code = 15#4 ↔ p = .halt := by cases p <;> decide

/-- Settles O46: each output is a function of the phase, to which the invariant ties the cause, the port and the response. -/
theorem statusOutputs : Obligations.StatusOutputs := by
  intro s h
  refine ⟨one_status s, Bool.and_false _, cmdReady_iff.trans code_eq_idle_iff.symm,
    halted_iff.trans code_eq_halt_iff.symm, ?_, fun hport => ?_, fun hv => cmdReady_iff.2 (h.response hv)⟩
  · exact halted_iff.trans (h.cause.symm.trans (not_congr code_eq_zero_iff).symm)
  · have hshift : s.phase = .shift := by
      by_contra hne
      exact hport (h.port_eq_zero hne)
    rw [hshift]
    rfl

/-- An idle block waits on no port. -/
theorem stuck_of_idle (h : s.phase = .idle) : s.stuck = none := by
  simp [State.stuck, State.colorStuck, State.fetching, h]

/-- An idle block left to itself shows its response no longer, and nothing else happens (R37). -/
theorem goOn_of_idle (h : s.phase = .idle) : goOn s = .next { s with rspValid := false } := by
  unfold goOn
  rw [if_neg (by simp [h]), stuck_of_idle h, clock_of_idle h]
  rfl

/-- Settles O56: a cycle and a step of the idle block are both `State.quiet`. -/
theorem idleOnlyDropsTheResponse : Obligations.IdleOnlyDropsTheResponse := by
  intro s hp
  refine ⟨clock_of_idle hp, fun htodo => ?_, fun l htodo => ?_⟩
  · rw [step_of_nil htodo, if_neg (by rw [hp]; decide)]
    exact goOn_of_idle hp
  · rw [step_of_todo htodo]
    exact goOn_of_idle (s := s.setTodo l) hp

end Sys2Proof.Machine
end

section
/-!
PROOFS. What each command may change: one frame for all of them, and from it the clauses of R38, R57, R109 and R193.
-/

namespace Sys2Proof.Machine

/-- The commands that write frame-buffer cells (R38). -/
def writesFb : Instr → Bool
  | .fbinit => true
  | .setpx _ _ _ => true
  | .inject => true
  | .diffuse => true
  | .sim => true
  | .tick => true
  | .run => true
  | .palinit => false
  | .getpx _ _ => false
  | .lookup _ => false
  | .scan => false

/-- The state `s` with what the command `i` may change taken from `t`. -/
def touchedBy (i : Instr) (s t : State) : State :=
  { s with
    phase := t.phase, cmdr := encode i, rsp := t.rsp, rspValid := t.rspValid, port := t.port
    rngWait := t.rngWait, palWait := t.palWait, palLog := t.palLog
    fbv := if i = .fbinit then t.fbv else s.fbv
    filla := if i = .fbinit then t.filla else s.filla
    palv := if i = .palinit then t.palv else s.palv
    palc := if i = .palinit then t.palc else s.palc
    pali := if i = .palinit then t.pali else s.pali
    fb := if writesFb i then t.fb else s.fb
    draws := if usesRng i then s.draws + 1 else s.draws
    rngScript := if usesRng i then t.rngScript else s.rngScript
    col := if usesRng i then t.col else s.col
    cx := if passesDiffuse i then t.cx else s.cx
    cy := if passesDiffuse i then t.cy else s.cy
    c := if passesDiffuse i then t.c else s.c
    lf := if passesDiffuse i then t.lf else s.lf
    rt := if passesDiffuse i then t.rt else s.rt
    up := if passesDiffuse i then t.up else s.up
    dn := if passesDiffuse i then t.dn else s.dn
    acc := if passesDiffuse i then t.acc else s.acc
    wave := if passesScan i then t.wave else s.wave
    sr := if passesScan i then t.sr else s.sr
    nx := if passesScan i then t.nx else s.nx
    pos := if passesScan i then t.pos else s.pos
    bitk := if passesScan i then t.bitk else s.bitk
    cyc := if passesScan i then t.cyc else s.cyc
    pfc := if passesScan i then t.pfc else s.pfc
    lcnt := if passesScan i then t.lcnt else s.lcnt
    icnt := if passesIdle i then t.icnt else s.icnt }

variable {i : Instr} {s t : State}

/-- An accepted command changes what it may and nothing else. -/
theorem effect_begin_frame (i : Instr) (s : State) :
    effect i (s.begin i) = touchedBy i s (effect i (s.begin i)) := by
  cases i with
  | fbinit =>
    show (fbinitBody (s.begin .fbinit)).respond 0#32 = touchedBy .fbinit s ((fbinitBody (s.begin .fbinit)).respond 0#32)
    rw [fbinitBody_frame]
    rfl
  | palinit =>
    show (palinitBody (s.begin .palinit)).respond 0#32 =
      touchedBy .palinit s ((palinitBody (s.begin .palinit)).respond 0#32)
    by_cases hm : s.cfg.palMode = .ram
    · rw [palinitBody_frame (b := s.begin .palinit) hm rfl]
      rfl
    · rw [palinitBody_of_not_ram (b := s.begin .palinit) hm]
      rfl
  | setpx x y v => rfl
  | getpx x y => rfl
  | lookup k =>
    show ((s.begin (.lookup k)).logLookup k).respond _ = touchedBy (.lookup k) s (((s.begin (.lookup k)).logLookup k).respond _)
    rw [logLookup_frame]
    rfl
  | inject => rfl
  | diffuse =>
    show (diffuseBody (s.begin .diffuse)).respond 0#32 =
      touchedBy .diffuse s ((diffuseBody (s.begin .diffuse)).respond 0#32)
    rw [diffuseBody_frame]
    rfl
  | sim =>
    show (simBody (s.begin .sim)).respond 0#32 = touchedBy .sim s ((simBody (s.begin .sim)).respond 0#32)
    rw [simBody_frame]
    rfl
  | scan =>
    show (scanBody (s.begin .scan)).respond 0#32 = touchedBy .scan s ((scanBody (s.begin .scan)).respond 0#32)
    rw [scanBody_frame]
    rfl
  | tick =>
    show (tickBody (s.begin .tick)).respond 0#32 = touchedBy .tick s ((tickBody (s.begin .tick)).respond 0#32)
    rw [tickBody_frame]
    rfl
  | run =>
    show (tickBody (s.begin .run)).enter .inject = touchedBy .run s ((tickBody (s.begin .run)).enter .inject)
    rw [tickBody_frame]
    rfl

/-- An address that is no cell of the grid. -/
def offGrid (p : Params) (a : Nat) : Prop := ∀ x y, x < p.w → y < p.h → a ≠ addr p x y

variable {a : Nat}

theorem read?_setCell_of_offGrid (ha : offGrid s.cfg.toParams a) {x y : Nat} (v : Byte) (hx : x < s.cfg.w)
    (hy : y < s.cfg.h) : Memory.read? (s.setCell x y v).fb a = Memory.read? s.fb a :=
  Memory.read?_write_of_ne s.fb v (ha x y hx hy)

theorem read?_injectBody_of_offGrid (ha : offGrid s.cfg.toParams a) :
    Memory.read? (injectBody s).fb a = Memory.read? s.fb a := by
  rw [injectBody_fb]
  exact Memory.read?_write_of_ne s.fb _
    (ha _ _ (Nat.mod_lt _ s.cfg.w_pos) (Nat.sub_lt s.cfg.h_pos Nat.one_pos))

/-- A diffusion pass visits cells of the grid only (R125, R126). -/
theorem read?_diffuseBody_of_offGrid (hx : s.cx = 0#9) (hy : s.cy = BitVec.ofNat 9 (s.cfg.h - 1))
    (ha : offGrid s.cfg.toParams a) : Memory.read? (diffuseBody s).fb a = Memory.read? s.fb a := by
  have key : ∀ k, k ≤ s.cfg.npix → Memory.read? (State.diffuseOne^[k] s).fb a = Memory.read? s.fb a := by
    intro k hk
    induction k with
    | zero => rfl
    | succ k ih =>
      obtain ⟨hcx, hcy⟩ := diffuse_place hx hy hk
      have hcx' : (State.diffuseOne^[k] s).cx.toNat < s.cfg.w := hcx ▸ Nat.mod_lt k s.cfg.w_pos
      have hcy' : (State.diffuseOne^[k] s).cy.toNat < s.cfg.h :=
        hcy ▸ lt_of_le_of_lt (Nat.sub_le _ _) (Nat.sub_lt s.cfg.h_pos Nat.one_pos)
      rw [Function.iterate_succ_apply', diffuseOne_fb, diffuseOne_iterate_cfg,
        Memory.read?_write_of_ne _ _ (ha _ _ hcx' hcy'), ih (Nat.le_of_succ_le hk)]
  exact key _ (le_refl _)

theorem read?_simBody_of_offGrid (ha : offGrid s.cfg.toParams a) :
    Memory.read? (simBody s).fb a = Memory.read? s.fb a :=
  (read?_diffuseBody_of_offGrid (s := (injectBody s).enter .diffuse) rfl rfl ha).trans (read?_injectBody_of_offGrid ha)

/-- Of a tick only the simulation step writes the frame buffer (R171). -/
theorem tickBody_fb (b : State) : (tickBody b).fb = (simBody b).fb := by
  show (scanBody ((simBody b).enter .prefetch)).fb = (simBody b).fb
  rw [scanBody_frame]
  rfl

theorem read?_tickBody_of_offGrid (ha : offGrid s.cfg.toParams a) :
    Memory.read? (tickBody s).fb a = Memory.read? s.fb a := by
  rw [tickBody_fb, read?_simBody_of_offGrid ha]

/-- No accepted command but `FBINIT` changes what an address off the grid holds. -/
theorem read?_effect_of_offGrid (ha : offGrid s.cfg.toParams a) (hok : acceptError i s = none) (hi : i ≠ .fbinit) :
    Memory.read? (effect i (s.begin i)).fb a = Memory.read? s.fb a := by
  cases i with
  | fbinit => exact absurd rfl hi
  | palinit => rw [effect_begin_frame]; rfl
  | setpx x y v =>
    obtain ⟨hx, hy⟩ := wellFormed_setpx (acceptError_eq_none.1 hok).1
    exact read?_setCell_of_offGrid (s := s.begin (.setpx x y v)) ha v hx hy
  | getpx x y => rfl
  | lookup k => rw [effect_begin_frame]; rfl
  | inject => exact read?_injectBody_of_offGrid (s := s.begin .inject) ha
  | diffuse => exact read?_diffuseBody_of_offGrid (s := s.begin .diffuse) rfl rfl ha
  | sim => exact read?_simBody_of_offGrid (s := s.begin .sim) ha
  | scan => rw [effect_begin_frame]; rfl
  | tick => exact read?_tickBody_of_offGrid (s := s.begin .tick) ha
  | run => exact (congrArg (Memory.read? · a) (State.enter_fb _ _)).trans (read?_tickBody_of_offGrid (s := s.begin .run) ha)

theorem writesFb_eq_false (h : i = .palinit ∨ (∃ x y, i = .getpx x y) ∨ (∃ k, i = .lookup k) ∨ i = .scan) :
    writesFb i = false := by
  obtain rfl | ⟨x, y, rfl⟩ | ⟨k, rfl⟩ | rfl := h <;> rfl

/-- Settles O41: a fault changes nothing the clauses speak of; for an accepted command they are read off its frame, and off the
grid nothing is written. -/
theorem commandFrame : Obligations.CommandFrame := by
  intro i s t h
  obtain ⟨hcfg, hresets, htodo, hrng, hpal⟩ : t.cfg = s.cfg ∧ t.resets = s.resets ∧ t.todo = s.todo ∧
      t.rngSilent = s.rngSilent ∧ t.palSilent = s.palSilent := by
    simpa [State.outer] using outer_exec h
  refine ⟨hcfg, hresets, htodo, hrng, hpal, ?_⟩
  obtain ⟨e, he, rfl⟩ | ⟨hok, -, ht⟩ := exec_cases h
  · simp [he]
  · have hf : t = touchedBy i s t := by rw [ht]; exact effect_begin_frame i s
    refine ⟨fun _ => ?_, fun hi => ?_, fun hi => ?_, fun hi => ?_, fun hi => ?_, fun _ hi => ?_, fun hi => ?_,
      fun hi => ?_, fun hi => ?_, fun a ha hi _ => ht ▸ read?_effect_of_offGrid ha hok hi⟩
    · rw [hf]; exact ⟨rfl, rfl, rfl⟩
    · rw [hf]; simp [touchedBy, hi]
    · rw [hf]; simp [touchedBy, hi]
    · rw [hf]; simp [touchedBy, writesFb_eq_false hi]
    · rw [hf]; simp [touchedBy, hi]
    · rw [hf]; simp [touchedBy, hi]
    · rw [hf]; simp [touchedBy, hi]
    · rw [hf]; simp [touchedBy, hi]
    · rw [hf]; simp [touchedBy, hi]

end Sys2Proof.Machine
end

section
/-!
PROOFS. A read after a write of the frame buffer (R62, R107, R108).
-/

namespace Sys2Proof.Machine

variable {s : State} {x y v : Byte}

/-- Acceptance does not write the cells. -/
theorem cellAt_begin (s : State) (i : Instr) (a b : Nat) : (s.begin i).cellAt a b = s.cellAt a b := by
  unfold State.cellAt State.fbCell
  rw [begin_cfg, begin_fb, begin_resets]

/-- With `FBV = 1` a command that names a cell of the grid and looks up no color is accepted (R191). -/
theorem acceptError_of_inRange {i : Instr} (hi : i.coords = some (x, y)) (hp : usesPalette i = false)
    (hx : x.toNat < s.cfg.w) (hy : y.toNat < s.cfg.h) (hf : s.fbv = true) : acceptError i s = none := by
  refine acceptError_eq_none.2 ⟨?_, fun _ => hf, fun hu => absurd (hp.symm.trans hu) nofun⟩
  simp [Instr.wellFormed, hi, hx, hy]

/-- `SETPX` to a cell of the grid stores its value there and answers. -/
theorem exec_setpx_of_inRange (hx : x.toNat < s.cfg.w) (hy : y.toNat < s.cfg.h) (hf : s.fbv = true) :
    exec (.setpx x y v) s = .next (((s.begin (.setpx x y v)).setCell x.toNat y.toNat v).respond 0#32) :=
  exec_accepted (acceptError_of_inRange rfl rfl hx hy hf) rfl

/-- `GETPX` of a cell of the grid answers what the cell holds. -/
theorem exec_getpx_of_inRange (hx : x.toNat < s.cfg.w) (hy : y.toNat < s.cfg.h) (hf : s.fbv = true) :
    exec (.getpx x y) s = .next ((s.begin (.getpx x y)).respond (cellWord (s.cellAt x.toNat y.toNat))) := by
  rw [exec_accepted (acceptError_of_inRange rfl rfl hx hy hf) rfl, effect, cellAt_begin]

/-- Settles O20: the read after the write sees the one cell written, since distinct cells have distinct addresses. -/
theorem getAfterSet : Obligations.GetAfterSet := by
  intro s x y v x' y' hx hy hx' hy' hf
  refine ⟨_, _, _, exec_setpx_of_inRange hx hy hf, exec_getpx_of_inRange hx' hy' hf,
    exec_getpx_of_inRange hx' hy' hf, ?_⟩
  have hcell : ((s.begin (.setpx x y v)).setCell x.toNat y.toNat v).cellAt x'.toNat y'.toNat =
      if x' = x ∧ y' = y then v else s.cellAt x'.toNat y'.toNat := by
    rw [cellAt_setCell (s.begin (.setpx x y v)) v hx hy hx' hy', cellAt_begin]
    simp only [← BitVec.toNat_inj]
  show cellWord (((s.begin (.setpx x y v)).setCell x.toNat y.toNat v).cellAt x'.toNat y'.toNat) = _
  rw [hcell]
  exact apply_ite cellWord _ _ _

end Sys2Proof.Machine
end

section
/-!
PROOFS. The request pulse of the RandomSource port (R57): one, in the first cycle of phase `INJECT` (log entry 28).
-/

namespace Sys2Proof.Machine

variable {s b : State}

theorem rngReq_of_phase_ne (h : s.phase ≠ .inject) : s.rngReq = false := by simp [State.rngReq, h]

theorem rngReq_of_rngWait (h : s.rngWait = true) : s.rngReq = false := by simp [State.rngReq, h]

theorem rngReq_afterInject (s : State) : s.afterInject.rngReq = false := by
  unfold State.afterInject
  split <;> exact rngReq_of_phase_ne nofun

/-- A cycle of `INJECT` waits with its request made, or leaves the phase (R57, R173). -/
theorem rngReq_injectCycle (s : State) : s.injectCycle.rngReq = false := by
  unfold State.injectCycle
  split
  · exact rngReq_of_rngWait rfl
  · exact rngReq_afterInject _
  · split
    · exact rngReq_of_rngWait rfl
    · exact rngReq_afterInject _

/-! The phases to which a cycle can lead (R173), for the phases that `INJECT` does not follow. -/

theorem phase_fbinitCycle (s : State) : s.fbinitCycle.phase = s.phase ∨ s.fbinitCycle.phase = .idle := by
  unfold State.fbinitCycle
  split
  · exact .inl rfl
  · exact .inr rfl

theorem phase_awaitColor (s : State) : s.awaitColor.phase = s.phase := by unfold State.awaitColor; split <;> rfl

theorem phase_palinitCycle (s : State) : s.palinitCycle.phase = s.phase ∨ s.palinitCycle.phase = .idle := by
  unfold State.palinitCycle
  split
  · split
    · exact .inl (phase_awaitColor s)
    · split
      · exact .inl rfl
      · exact .inr rfl
  · exact .inr rfl

theorem phase_accessCycle (s : State) : s.accessCycle.phase = s.phase ∨ s.accessCycle.phase = .idle := by
  unfold State.accessCycle
  split
  · exact .inr rfl
  · exact .inr rfl
  · split
    · exact .inl (phase_awaitColor s)
    · exact .inr rfl
  · exact .inr rfl
  · exact .inr rfl

theorem phase_diffuseOne (s : State) : s.diffuseOne.phase = s.phase := by rw [diffuseOne_frame]

theorem phase_diffuseCycle (s : State) :
    s.diffuseCycle.phase = s.phase ∨ s.diffuseCycle.phase = .idle ∨ s.diffuseCycle.phase = .prefetch := by
  unfold State.diffuseCycle State.afterDiffuse
  split
  · exact .inl (phase_diffuseOne s)
  · split
    · exact .inr (.inl rfl)
    · exact .inr (.inr rfl)

theorem phase_fetch (s : State) (q : Nat) : (s.fetch q).phase = s.phase := by rw [fetch_frame]

theorem phase_prefetchCycle (s : State) :
    s.prefetchCycle.phase = s.phase ∨ s.prefetchCycle.phase = .shift := by
  unfold State.prefetchCycle
  split
  · exact .inl (phase_awaitColor s)
  · split
    · exact .inl (phase_fetch s 0)
    · exact .inr rfl

theorem phase_nextCycle (s : State) : s.nextCycle.phase = s.phase ∨ s.nextCycle.phase = .latch := by
  unfold State.nextCycle
  split
  · exact .inl rfl
  · split
    · exact .inl rfl
    · split
      · exact .inl (by rw [nextPosition_frame])
      · exact .inr rfl

theorem phase_shiftCycle (s : State) : s.shiftCycle.phase = s.phase ∨ s.shiftCycle.phase = .latch := by
  unfold State.shiftCycle
  split
  · refine (phase_nextCycle _).imp_left fun h => h.trans ?_
    split
    · exact phase_awaitColor s
    · exact phase_fetch s _
  · exact phase_nextCycle s

/-! `INJECT` follows the idle delay of `RUN`, and then it starts with its request open. -/

theorem rngReq_enter_inject (s : State) : (s.enter .inject).rngReq = true := rfl

theorem rngReq_afterIdle (h : s.afterIdle.phase = .inject) : s.afterIdle.rngReq = true := by
  unfold State.afterIdle at h ⊢
  split at h
  · next hrun => rw [if_pos hrun]; exact rngReq_enter_inject s
  · cases h

theorem rngReq_latchCycle (hp : s.phase ≠ .inject) (h : s.latchCycle.phase = .inject) : s.latchCycle.rngReq = true := by
  unfold State.latchCycle State.afterLatch at h ⊢
  split_ifs at h ⊢
  · exact absurd h hp
  · cases h
  · exact rngReq_afterIdle h
  · cases h

theorem rngReq_idleCycle (hp : s.phase ≠ .inject) (h : s.idleCycle.phase = .inject) : s.idleCycle.rngReq = true := by
  unfold State.idleCycle at h ⊢
  split_ifs at h ⊢
  · exact absurd h hp
  · exact rngReq_afterIdle h

/-- A cycle that leads into `INJECT` from another phase is followed by a request. -/
theorem rngReq_clock_of_enters (hp : s.phase ≠ .inject) (h : s.clock.phase = .inject) : s.clock.rngReq = true := by
  cases hs : s.phase with
  | inject => exact absurd hs hp
  | idle => rw [clock_of_idle hs] at h; exact absurd h hp
  | halt => rw [clock_of_halt hs] at h; exact absurd h hp
  | fbinit =>
    rw [clock_of_fbinit hs] at h
    obtain hc | hc := phase_fbinitCycle s.quiet <;> simp [hc, hs] at h
  | palinit =>
    rw [clock_of_palinit hs] at h
    obtain hc | hc := phase_palinitCycle s.quiet <;> simp [hc, hs] at h
  | access =>
    rw [clock_of_access hs] at h
    obtain hc | hc := phase_accessCycle s.quiet <;> simp [hc, hs] at h
  | diffuse =>
    rw [clock_of_diffuse hs] at h
    obtain hc | hc | hc := phase_diffuseCycle s.quiet <;> simp [hc, hs] at h
  | prefetch =>
    rw [clock_of_prefetch hs] at h
    obtain hc | hc := phase_prefetchCycle s.quiet <;> simp [hc, hs] at h
  | shift =>
    rw [clock_of_shift hs] at h
    obtain hc | hc := phase_shiftCycle (s.emit s.port 1).quiet <;> simp [hc, hs] at h
  | latch => rw [clock_of_latch hs] at h ⊢; exact rngReq_latchCycle hp h
  | idledly => rw [clock_of_idledly hs] at h ⊢; exact rngReq_idleCycle hp h

/-- Settles O54: a cycle of `INJECT` ends with its request made, and the phase is entered with the request open. -/
theorem rngRequestByPhase : Obligations.RngRequestByPhase := by
  intro s
  refine ⟨fun h => ?_, fun hp => ?_, rngReq_clock_of_enters⟩
  · by_contra hp
    rw [rngReq_of_phase_ne hp] at h
    cases h
  · rw [clock_of_inject hp]
    exact rngReq_injectCycle _

/-! The wait for the byte (R57, R124). -/

/-- The state `j` cycles into a wait that starts at `s`: the script has moved on and the request has been made. -/
def State.waited (s : State) (j : Nat) : State := { s with rngScript := s.rngScript.drop j, rngWait := decide (0 < j) }

theorem waited_zero (hw : s.rngWait = false) : s.waited 0 = s := by
  unfold State.waited
  rw [List.drop_zero, decide_eq_false (Nat.lt_irrefl 0), ← hw]

/-- The request of a wait is made in its first cycle only. -/
theorem rngReq_waited (hp : s.phase = .inject) (j : Nat) : (s.waited j).rngReq = decide (j = 0) := by
  simp [State.rngReq, State.waited, hp, Nat.pos_iff_ne_zero]

variable {m : Nat} {r : Byte} {l : List (Option Byte)}

theorem drop_replicate_append {j : Nat} (hj : j ≤ m) (t : List (Option Byte)) :
    (List.replicate m none ++ t).drop j = List.replicate (m - j) none ++ t := by
  rw [List.drop_append_of_le_length (by simpa using hj), List.drop_replicate]

/-- A silent cycle of the RandomSource only lets the wait go on. -/
theorem clock_waited (hp : s.phase = .inject) (hq : s.rspValid = false) {j : Nat} {t : List (Option Byte)}
    (h : s.rngScript.drop j = none :: t) : (s.waited j).clock = s.waited (j + 1) := by
  have ht : s.rngScript.drop (j + 1) = t := by rw [← List.tail_drop, h, List.tail_cons]
  rw [clock_of_inject (s := s.waited j) hp, quiet_eq (s := s.waited j) hq]
  simp [State.injectCycle, State.waited, h, ht]

theorem clocks_eq_waited (hp : s.phase = .inject) (hq : s.rspValid = false) (hw : s.rngWait = false)
    (hs : s.rngScript = List.replicate m none ++ l) {j : Nat} (hj : j ≤ m) : State.clock^[j] s = s.waited j := by
  induction j with
  | zero => exact (waited_zero hw).symm
  | succ j ih =>
    have hdrop : s.rngScript.drop j = none :: (List.replicate (m - (j + 1)) none ++ l) := by
      rw [hs, drop_replicate_append (Nat.le_of_succ_le hj), show m - j = m - (j + 1) + 1 by omega]
      rfl
    rw [Function.iterate_succ_apply', ih (Nat.le_of_succ_le hj), clock_waited hp hq hdrop]

/-- The cycle in which the byte arrives makes the injection and ends the phase. -/
theorem clock_of_answer (hp : s.phase = .inject) (hq : s.rspValid = false) (hs : s.rngScript = some r :: l) :
    s.clock = (injectBody s).afterInject := by
  rw [clock_of_inject hp, quiet_eq hq]
  simp [State.injectCycle, hs]

/-- The end of `INJECT` keeps what the injection has done to the RandomSource and to `COL`. -/
theorem afterInject_keeps (s : State) :
    s.afterInject.draws = s.draws ∧ s.afterInject.rngScript = s.rngScript ∧ s.afterInject.col = s.col := by
  unfold State.afterInject
  split <;> exact ⟨rfl, rfl, rfl⟩

/-- `INJECT` is the one command that ends with the injection (R173). -/
theorem phase_afterInject {i : Instr} (hop : s.opcode = i.opcode) :
    s.afterInject.phase = if i = .inject then .idle else .diffuse := by
  unfold State.afterInject
  rw [hop]
  cases i <;> rfl

/-- The injection of the byte that arrives now. -/
theorem injectBody_of_answer (hs : s.rngScript = some r :: l) :
    (injectBody s).draws = s.draws + 1 ∧ (injectBody s).rngScript = l ∧
      (injectBody s).col = BitVec.ofNat 8 (r.toNat % s.cfg.w) := by
  have hdrawn : s.drawn = r := by simp [State.drawn, hs, untilAnswer]
  refine ⟨rfl, ?_, ?_⟩
  · show (untilAnswer s.rngScript).tail = l
    rw [hs]
    rfl
  · show BitVec.ofNat 8 (s.drawn.toNat % s.cfg.w) = _
    rw [hdrawn]

theorem firstPhase_of_usesRng {i : Instr} (h : usesRng i = true) : firstPhase i = .inject := by
  cases i <;> simp_all [usesRng, firstPhase]

/-- Of the first cycles of a wait one is the first. -/
theorem countP_range_first {p : Nat → Bool} {n : Nat} (hn : 0 < n) (h : ∀ j < n, p j = decide (j = 0)) :
    (List.range n).countP p = 1 := by
  have hcount : (List.range n).countP p = (List.range n).count 0 :=
    List.countP_congr fun j hj => by simp [h j (List.mem_range.1 hj)]
  rw [hcount, List.count_eq_one_of_mem List.nodup_range (List.mem_range.2 hn)]

/-- A wait of `m` silent cycles and the cycle of the answer: the request is in the first of them, and the injection ends the
phase. -/
theorem inject_requests_once {i : Instr} (hp : s.phase = .inject) (hq : s.rspValid = false) (hw : s.rngWait = false)
    (hop : s.opcode = i.opcode) (hs : s.rngScript = List.replicate m none ++ some r :: l) :
    (∀ j < m + 1, (State.clock^[j] s).phase = .inject ∧ (State.clock^[j] s).fb = s.fb) ∧
      (List.range (m + 1)).countP (fun j => (State.clock^[j] s).rngReq) = 1 ∧
      (State.clock^[m + 1] s).phase = (if i = .inject then .idle else .diffuse) ∧
      (State.clock^[m + 1] s).rngReq = false ∧ (State.clock^[m + 1] s).draws = s.draws + 1 ∧
      (State.clock^[m + 1] s).rngScript = l ∧ (State.clock^[m + 1] s).col = BitVec.ofNat 8 (r.toNat % s.cfg.w) := by
  have hwait : ∀ j < m + 1, State.clock^[j] s = s.waited j := fun j hj =>
    clocks_eq_waited hp hq hw hs (Nat.le_of_lt_succ hj)
  have hanswer : (s.waited m).rngScript = some r :: l := by
    show s.rngScript.drop m = _
    rw [hs, drop_replicate_append (le_refl m), Nat.sub_self]
    rfl
  have hlast : State.clock^[m + 1] s = (injectBody (s.waited m)).afterInject := by
    rw [Function.iterate_succ_apply', hwait m (Nat.lt_succ_self m)]
    exact clock_of_answer hp hq hanswer
  obtain ⟨hdraws, hrest, hcol⟩ := injectBody_of_answer hanswer
  obtain ⟨hdraws', hrest', hcol'⟩ := afterInject_keeps (injectBody (s.waited m))
  refine ⟨fun j hj => ?_, ?_, ?_⟩
  · rw [hwait j hj]
    exact ⟨hp, rfl⟩
  · exact countP_range_first (Nat.succ_pos m) fun j hj => by rw [hwait j hj, rngReq_waited hp]
  · rw [hlast]
    exact ⟨phase_afterInject hop, rngReq_afterInject _, hdraws'.trans hdraws, hrest'.trans hrest, hcol'.trans hcol⟩

/-- Settles O53: the phase lasts the silent cycles and the one of the answer, and its first cycle has the request. -/
theorem rngRequestedOnce : Obligations.RngRequestedOnce := by
  intro i s m r l hi hs
  have hbegin := begin_inject s (firstPhase_of_usesRng hi)
  have hp : (s.begin i).phase = .inject := by rw [hbegin]
  have hw : (s.begin i).rngWait = false := by rw [hbegin]
  obtain ⟨hwait, hend⟩ := inject_requests_once hp (begin_rspValid s i) hw (begin_opcode s i)
    ((begin_rngScript s i).trans hs)
  rw [begin_draws, begin_cfg] at hend
  rw [begin_fb] at hwait
  exact ⟨m + 1, Nat.lt_succ_self m, fun j hj => ⟨(hwait j hj).1, fun _ => (hwait j hj).2⟩, hend⟩

end Sys2Proof.Machine
end

section
/-!
PROOFS. The request pulses of the color-source port (R61): the log of requests follows them cycle by cycle (log entry 6).
-/

namespace Sys2Proof.Machine

variable {s : State}

/-- The block needs a color in this cycle (R61, R92, R93, R149). -/
def State.wantsColor (s : State) : Bool :=
  if s.cfg.palMode = .ram then decide (s.phase = .palinit)
  else (decide (s.phase = .access) && decide (s.opcode = (Instr.lookup 0#8).opcode)) || s.fetching

theorem palReq_eq (s : State) : s.palReq = (!s.palWait && s.wantsColor) := rfl

theorem colorStuck_eq (s : State) : s.colorStuck = (s.palSilent && s.wantsColor) := rfl

/-- What a cycle adds to the log of requests: the index on `pal_idx` if `pal_req` is 1. -/
def State.asked (s : State) : List Byte := if s.palReq = true then [s.palIdx] else []

theorem asked_of_not_wantsColor (h : s.wantsColor = false) : s.asked = [] := by simp [State.asked, palReq_eq, h]

/-- A color that is wanted and answered is asked in this very cycle, since no earlier request is open. -/
theorem asked_of_answered (hopen : s.palWait = true → s.palSilent = true) (hs : s.colorStuck = false)
    (hc : s.wantsColor = true) : s.asked = [s.palIdx] := by
  rw [colorStuck_eq, hc, Bool.and_true] at hs
  have hw : s.palWait = false := Bool.eq_false_iff.2 fun hw => nomatch hs.symm.trans (hopen hw)
  simp [State.asked, palReq_eq, hc, hw]

theorem wantsColor_of_colorStuck (h : s.colorStuck = true) : s.wantsColor = true :=
  (Bool.and_eq_true_iff.1 (colorStuck_eq s ▸ h)).2

/-- A wait for a color has made its request once. -/
theorem palLog_awaitColor (h : s.colorStuck = true) : s.awaitColor.palLog = s.palLog ++ s.asked := by
  have hc := wantsColor_of_colorStuck h
  unfold State.awaitColor State.asked
  cases hw : s.palWait <;> simp [palReq_eq, hc, hw]

theorem palWait_awaitColor (s : State) : s.awaitColor.palWait = true := by
  unfold State.awaitColor
  split
  · assumption
  · rfl

/-! Each phase that can ask for a color. -/

theorem palIdx_of_fetching (h : s.fetching = true) : s.palIdx = s.fbCell (pixmap s.cfg.toParams s.pfc s.fetchPos) := by
  unfold State.palIdx
  by_cases hp : s.phase = .palinit
  · simp [State.fetching, hp] at h
  · by_cases ha : s.phase = .access
    · simp [State.fetching, ha] at h
    · rw [if_neg hp, if_neg ha]

theorem phase_of_fetching (h : s.fetching = true) : s.phase = .prefetch ∨ s.phase = .shift := by
  by_contra hp
  obtain ⟨h1, h2⟩ := not_or.1 hp
  simp [State.fetching, h1, h2] at h

/-- Outside RAM mode the scan wants a color in each cycle in which it fetches one, in RAM mode in none (R153). -/
theorem wantsColor_of_fetching (h : s.fetching = true) : s.wantsColor = decide (s.cfg.palMode ≠ .ram) := by
  unfold State.wantsColor
  split
  · next hm =>
    obtain hp | hp := phase_of_fetching h <;> simp [hp, hm]
  · next hm => simp [h, hm]

/-- A fetch that is answered logs its request. -/
theorem palLog_fetch (hopen : s.palWait = true → s.palSilent = true) (h : s.fetching = true)
    (hs : s.colorStuck = false) : (s.fetch s.fetchPos).palLog = s.palLog ++ s.asked := by
  have hc := wantsColor_of_fetching h
  unfold State.fetch State.logLookup
  by_cases hm : s.cfg.palMode = .ram
  · rw [asked_of_not_wantsColor (by rw [hc]; simp [hm])]
    simp [hm]
  · rw [asked_of_answered hopen hs (by rw [hc]; simp [hm]), palIdx_of_fetching h]
    simp [hm]

theorem palLog_prefetchCycle (hopen : s.palWait = true → s.palSilent = true) (hp : s.phase = .prefetch) :
    s.prefetchCycle.palLog = s.palLog ++ s.asked := by
  unfold State.prefetchCycle
  split
  · next hs => exact palLog_awaitColor hs
  · next hs =>
    have hf : s.fetching = true := by simp [State.fetching, hp]
    have hpos : s.fetchPos = 0 := if_pos hp
    have hlog := palLog_fetch hopen hf (Bool.eq_false_iff.2 hs)
    rw [hpos] at hlog
    split
    · exact hlog
    · exact hlog

theorem nextCycle_keeps_requests (s : State) :
    s.nextCycle.palLog = s.palLog ∧ s.nextCycle.palWait = s.palWait := by
  unfold State.nextCycle
  split
  · exact ⟨rfl, rfl⟩
  · split
    · exact ⟨rfl, rfl⟩
    · rw [nextPosition_frame]
      split <;> exact ⟨rfl, rfl⟩

theorem palLog_shiftCycle (hopen : s.palWait = true → s.palSilent = true) (hp : s.phase = .shift) :
    s.shiftCycle.palLog = s.palLog ++ s.asked := by
  unfold State.shiftCycle
  split
  · next hf =>
    rw [(nextCycle_keeps_requests _).1]
    split
    · next hs => exact palLog_awaitColor hs
    · next hs =>
      have hpos : s.fetchPos = s.pos + 1 := if_neg (by rw [hp]; decide)
      rw [← hpos]
      exact palLog_fetch hopen hf (Bool.eq_false_iff.2 hs)
  · next hf =>
    have hc : s.wantsColor = false := by simp [State.wantsColor, hp, hf]
    rw [(nextCycle_keeps_requests s).1, asked_of_not_wantsColor hc, List.append_nil]

theorem palLog_palinitCycle (hopen : s.palWait = true → s.palSilent = true) (hp : s.phase = .palinit) :
    s.palinitCycle.palLog = s.palLog ++ s.asked := by
  have hidx : s.palIdx = BitVec.ofNat 8 s.pali := if_pos hp
  unfold State.palinitCycle
  split
  · next hm =>
    split
    · next hs => exact palLog_awaitColor hs
    · next hs =>
      have hc : s.wantsColor = true := by simp [State.wantsColor, hp, hm]
      have hlog : s.fillColor.palLog = s.palLog ++ s.asked := by
        rw [asked_of_answered hopen (Bool.eq_false_iff.2 hs) hc, hidx]
        rfl
      split
      · exact hlog
      · exact hlog
  · next hm =>
    have hc : s.wantsColor = false := by simp [State.wantsColor, State.fetching, hp, hm]
    rw [asked_of_not_wantsColor hc, List.append_nil]
    rfl

theorem fieldV_encode_lookup (k : Byte) : fieldV (encode (.lookup k)) = k := fieldV_packWord 0x5#4 0#4 0#8 0#8 k

/-- The one command of phase `ACCESS` that wants a color is `LOOKUP`, outside RAM mode (R93). -/
theorem wantsColor_of_access {i : Instr} (hp : s.phase = .access) (hw : s.cmdr = encode i) :
    s.wantsColor = (decide (s.cfg.palMode ≠ .ram) && decide (i.opcode = (Instr.lookup 0#8).opcode)) := by
  unfold State.wantsColor State.fetching
  rw [opcode_of_cmdr hw, hp]
  by_cases hm : s.cfg.palMode = .ram <;> simp [hm]

theorem palLog_accessCycle (hopen : s.palWait = true → s.palSilent = true) (hp : s.phase = .access) {i : Instr}
    (hw : s.cmdr = encode i) : s.accessCycle.palLog = s.palLog ++ s.asked := by
  have hc := wantsColor_of_access hp hw
  unfold State.accessCycle
  rw [hw, decode_encode]
  cases i with
  | lookup k =>
    have hidx : s.palIdx = k := by
      unfold State.palIdx
      rw [if_neg (by rw [hp]; decide), if_pos hp, hw, fieldV_encode_lookup]
    show State.palLog (if s.colorStuck then s.awaitColor else (s.logLookup k).respond (colorWord (s.lookup k))) = _
    split
    · next hs => exact palLog_awaitColor hs
    · next hs =>
      rw [State.respond_palLog]
      unfold State.logLookup
      split
      · next hm => rw [asked_of_not_wantsColor (by rw [hc]; simp [hm]), List.append_nil]
      · next hm =>
        rw [asked_of_answered hopen (Bool.eq_false_iff.2 hs) (by rw [hc]; simp [hm, Instr.opcode]), hidx]
        rfl
  | _ =>
    rw [asked_of_not_wantsColor (by rw [hc]; simp [Instr.opcode]), List.append_nil]
    rfl

/-! The other phases ask for none. -/

theorem palLog_fbinitCycle (s : State) : s.fbinitCycle.palLog = s.palLog := by
  unfold State.fbinitCycle
  split <;> rfl

theorem palLog_injectCycle (s : State) : s.injectCycle.palLog = s.palLog := by
  have hend : (injectBody s).afterInject.palLog = s.palLog := by unfold State.afterInject; split <;> rfl
  unfold State.injectCycle
  split
  · rfl
  · exact hend
  · split
    · rfl
    · exact hend

theorem palLog_diffuseCycle (s : State) : s.diffuseCycle.palLog = s.palLog := by
  unfold State.diffuseCycle State.afterDiffuse
  rw [diffuseOne_frame]
  split
  · rfl
  · split <;> rfl

theorem palLog_afterIdle (s : State) : s.afterIdle.palLog = s.palLog := by unfold State.afterIdle; split <;> rfl

theorem palLog_latchCycle (s : State) : s.latchCycle.palLog = s.palLog := by
  unfold State.latchCycle State.afterLatch
  split
  · rfl
  · split
    · rfl
    · split
      · exact palLog_afterIdle _
      · rfl

theorem palLog_idleCycle (s : State) : s.idleCycle.palLog = s.palLog := by
  unfold State.idleCycle
  split
  · rfl
  · exact palLog_afterIdle _

/-- The phases in which the block can want a color. -/
theorem wantsColor_phase (h : s.wantsColor = true) :
    s.phase = .palinit ∨ s.phase = .access ∨ s.phase = .prefetch ∨ s.phase = .shift := by
  unfold State.wantsColor at h
  split at h
  · exact .inl (of_decide_eq_true h)
  · obtain h | h := Bool.or_eq_true_iff.1 h
    · exact .inr (.inl (of_decide_eq_true (Bool.and_eq_true_iff.1 h).1))
    · exact .inr (.inr (phase_of_fetching h))

theorem asked_of_phase
    (h : ¬ (s.phase = .palinit ∨ s.phase = .access ∨ s.phase = .prefetch ∨ s.phase = .shift)) : s.asked = [] :=
  asked_of_not_wantsColor (Bool.eq_false_iff.2 fun hc => h (wantsColor_phase hc))

/-- The log of requests follows the pulse and its index (R61). -/
theorem palLog_clock (h : s.Inv) : s.clock.palLog = s.palLog ++ s.asked := by
  cases hp : s.phase with
  | palinit => rw [clock_of_palinit hp]; exact palLog_palinitCycle (s := s.quiet) h.waits hp
  | access =>
    obtain ⟨-, -, ⟨i, hw, -, -⟩, -⟩ := h.busy hp (by decide)
    rw [clock_of_access hp]
    exact palLog_accessCycle (s := s.quiet) h.waits hp hw
  | prefetch => rw [clock_of_prefetch hp]; exact palLog_prefetchCycle (s := s.quiet) h.waits hp
  | shift => rw [clock_of_shift hp]; exact palLog_shiftCycle (s := (s.emit s.port 1).quiet) h.waits hp
  | idle => simp [clock_of_idle hp, asked_of_phase, hp]
  | halt => simp [clock_of_halt hp, asked_of_phase, hp]
  | fbinit => simp [clock_of_fbinit hp, palLog_fbinitCycle, asked_of_phase, hp]
  | inject => simp [clock_of_inject hp, palLog_injectCycle, asked_of_phase, hp]
  | diffuse => simp [clock_of_diffuse hp, palLog_diffuseCycle, asked_of_phase, hp]
  | latch => simp [clock_of_latch hp, palLog_latchCycle, asked_of_phase, hp]
  | idledly => simp [clock_of_idledly hp, palLog_idleCycle, asked_of_phase, hp]

/-! A request that is not answered stays open (R61, R190 d). -/

theorem palWait_accessCycle_of_colorStuck (hp : s.phase = .access) {i : Instr} (hw : s.cmdr = encode i)
    (h : s.colorStuck = true) : s.accessCycle.palWait = true := by
  have hc := (wantsColor_of_access hp hw).symm.trans (wantsColor_of_colorStuck h)
  unfold State.accessCycle
  rw [hw, decode_encode]
  cases i with
  | lookup k =>
    show State.palWait (if s.colorStuck then s.awaitColor else (s.logLookup k).respond (colorWord (s.lookup k))) = true
    rw [if_pos h]
    exact palWait_awaitColor s
  | _ => simp [Instr.opcode] at hc

theorem palWait_palinitCycle_of_colorStuck (hp : s.phase = .palinit) (h : s.colorStuck = true) :
    s.palinitCycle.palWait = true := by
  have hm : s.cfg.palMode = .ram := by
    by_contra hm
    simpa [State.wantsColor, State.fetching, hp, hm] using wantsColor_of_colorStuck h
  unfold State.palinitCycle
  rw [if_pos hm, if_pos h]
  exact palWait_awaitColor s

theorem palWait_prefetchCycle_of_colorStuck (h : s.colorStuck = true) : s.prefetchCycle.palWait = true := by
  unfold State.prefetchCycle
  rw [if_pos h]
  exact palWait_awaitColor s

theorem palWait_shiftCycle_of_colorStuck (hp : s.phase = .shift) (h : s.colorStuck = true) :
    s.shiftCycle.palWait = true := by
  have hf : s.fetching = true := by
    by_contra hf
    simpa [State.wantsColor, hp, hf] using wantsColor_of_colorStuck h
  unfold State.shiftCycle
  rw [if_pos hf, if_pos h, (nextCycle_keeps_requests _).2]
  exact palWait_awaitColor s

theorem palWait_clock_of_colorStuck (h : s.Inv) (hs : s.colorStuck = true) : s.clock.palWait = true := by
  obtain hp | hp | hp | hp := wantsColor_phase (wantsColor_of_colorStuck hs)
  · rw [clock_of_palinit hp]
    exact palWait_palinitCycle_of_colorStuck (s := s.quiet) hp hs
  · obtain ⟨-, -, ⟨i, hw, -, -⟩, -⟩ := h.busy hp (by decide)
    rw [clock_of_access hp]
    exact palWait_accessCycle_of_colorStuck (s := s.quiet) hp hw hs
  · rw [clock_of_prefetch hp]
    exact palWait_prefetchCycle_of_colorStuck (s := s.quiet) hs
  · rw [clock_of_shift hp]
    exact palWait_shiftCycle_of_colorStuck (s := (s.emit s.port 1).quiet) hp hs

theorem wantsColor_of_palReq (h : s.palReq = true) : s.wantsColor = true :=
  (Bool.and_eq_true_iff.1 (palReq_eq s ▸ h)).2

/-- `LOOKUP` requests its color, outside RAM mode, in the cycle after its acceptance. -/
theorem palReq_begin_lookup (s : State) (k : Byte) :
    (s.begin (.lookup k)).palReq = decide (s.cfg.palMode ≠ .ram) := by
  have hopen : (s.begin (.lookup k)).palWait = false := rfl
  rw [palReq_eq, hopen, wantsColor_of_access (i := .lookup k) (begin_phase s _) (begin_cmdr s _), begin_cfg]
  simp [Instr.opcode]

theorem palIdx_begin_lookup (s : State) (k : Byte) : (s.begin (.lookup k)).palIdx = k := fieldV_encode_lookup k

/-- Settles O55: each phase that asks for a color logs the index it shows, once. -/
theorem colorRequestsArePulses : Obligations.ColorRequestsArePulses := by
  intro s h
  refine ⟨palLog_clock h, fun hreq hsilent => ?_, fun hreq hm => ?_, fun k => ⟨palReq_begin_lookup s k, fun _ =>
    palIdx_begin_lookup s k⟩⟩
  · have hstuck : s.colorStuck = true := by rw [colorStuck_eq, hsilent, wantsColor_of_palReq hreq]; rfl
    rw [palReq_eq, palWait_clock_of_colorStuck h hstuck]
    rfl
  · have hc := wantsColor_of_palReq hreq
    unfold State.wantsColor at hc
    rw [if_pos hm] at hc
    exact of_decide_eq_true hc

end Sys2Proof.Machine
end

section
/-!
PROOFS. The decoder against the encoder (R71, R73, R82): a word that decodes is the word of its command, and the words of the
spec decode to the commands beside them.
-/

namespace Sys2Proof

/-- Settles O1: the decoder reads back each field that the encoder packs. -/
theorem decodeEncode : Obligations.DecodeEncode := decode_encode

variable {w : Word32} {i j : Instr}

theorem formatZ_eq_ok (h : formatZ w i = .ok j) : i = j ∧ fieldY w = 0#8 ∧ fieldX w = 0#8 ∧ fieldV w = 0#8 := by
  unfold formatZ at h
  split at h
  · next hf => exact ⟨Except.ok.inj h, hf⟩
  · cases h

theorem formatXY_eq_ok (h : formatXY w = .ok j) : .getpx (fieldX w) (fieldY w) = j ∧ fieldV w = 0#8 := by
  unfold formatXY at h
  split at h
  · next hf => exact ⟨Except.ok.inj h, hf⟩
  · cases h

theorem formatI_eq_ok (h : formatI w = .ok j) : .lookup (fieldV w) = j ∧ fieldY w = 0#8 ∧ fieldX w = 0#8 := by
  unfold formatI at h
  split at h
  · next hf => exact ⟨Except.ok.inj h, hf⟩
  · cases h

/-- A word of format `Z` is packed from the operation code alone. -/
theorem encode_of_formatZ (h : formatZ w i = .ok j) (hop : (fieldOp w).toNat = i.opcode.toNat)
    (hbits : i.operandBits = 0#24) :
    encode j = packWord (fieldOp w) 0#4 (fieldY w) (fieldX w) (fieldV w) := by
  obtain ⟨rfl, hy, hx, hv⟩ := formatZ_eq_ok h
  rw [hy, hx, hv, BitVec.eq_of_toNat_eq hop]
  unfold encode
  rw [hbits]
  rfl

/-- The command of a row of the opcode map has the row's operation code, and its operands are the fields of the word (R73). -/
theorem encode_of_decodeOp (h : decodeOp w = .ok i) :
    encode i = packWord (fieldOp w) 0#4 (fieldY w) (fieldX w) (fieldV w) := by
  unfold decodeOp at h
  split at h
  · next hop => exact encode_of_formatZ h hop rfl
  · next hop => exact encode_of_formatZ h hop rfl
  · next hop =>
    cases h
    rw [BitVec.eq_of_toNat_eq (y := 0x3#4) hop]
    rfl
  · next hop =>
    obtain ⟨rfl, hv⟩ := formatXY_eq_ok h
    rw [BitVec.eq_of_toNat_eq (y := 0x4#4) hop, hv]
    rfl
  · next hop =>
    obtain ⟨rfl, hy, hx⟩ := formatI_eq_ok h
    rw [BitVec.eq_of_toNat_eq (y := 0x5#4) hop, hy, hx]
    rfl
  · next hop => exact encode_of_formatZ h hop rfl
  · next hop => exact encode_of_formatZ h hop rfl
  · next hop => exact encode_of_formatZ h hop rfl
  · next hop => exact encode_of_formatZ h hop rfl
  · next hop => exact encode_of_formatZ h hop rfl
  · next hop => exact encode_of_formatZ h hop rfl
  · cases h

theorem decode_of_fieldZ (hz : fieldZ w = 0#4) : decode w = decodeOp w := if_pos hz

/-- A word that decodes is the word of the command it decodes to. -/
theorem encode_of_decode (h : decode w = .ok i) : encode i = w := by
  by_cases hz : fieldZ w = 0#4
  · rw [decode_of_fieldZ hz] at h
    have hw := packWord_fields w
    rw [hz] at hw
    exact (encode_of_decodeOp h).trans hw
  · rw [decode, if_neg hz] at h
    cases h

/-- The words that decode are the words of commands, and each decodes to its own. -/
theorem decode_eq_ok_iff : decode w = .ok i ↔ encode i = w :=
  ⟨encode_of_decode, fun h => h ▸ decode_encode i⟩

/-- Settles O2: each row's command takes its operands from the word's fields, and a word is its five fields. -/
theorem encodeDecode : Obligations.EncodeDecode := fun _ _ => encode_of_decode

/-- Settles O5: each of the words is the word of the command beside it. -/
theorem specWordsDecode : Obligations.SpecWordsDecode :=
  ⟨decode_encode .fbinit, decode_encode .palinit, decode_encode (.setpx 3#8 2#8 200#8), decode_encode (.getpx 7#8 0#8),
    decode_encode (.lookup 0x80#8), decode_encode .sim, decode_encode .scan, decode_encode .run⟩

end Sys2Proof
end

section
/-!
PROOFS. The rows of the opcode map as fields of a word (R71, R73), and from them which words are illegal (R75, R186).
-/

namespace Sys2Proof

variable {w : Word32} {i : Instr}

/-- The reserved field is 0, and so is each field that carries no operand under the word's operation code (R71, R75). -/
def fieldsFit (w : Word32) : Prop :=
  fieldZ w = 0#4 ∧ (fieldOp w ≠ 0x3#4 → fieldOp w ≠ 0x4#4 → fieldY w = 0#8) ∧
    (fieldOp w ≠ 0x3#4 → fieldOp w ≠ 0x4#4 → fieldX w = 0#8) ∧
    (fieldOp w ≠ 0x3#4 → fieldOp w ≠ 0x5#4 → fieldV w = 0#8)

theorem fieldsFit_encode (i : Instr) : fieldsFit (encode i) := by
  unfold fieldsFit
  cases i with
  | setpx x y v => simp [Instr.opcode]
  | getpx x y =>
    have hv : fieldV (encode (.getpx x y)) = 0#8 := fieldV_packWord 0x4#4 0#4 y x 0#8
    simp [Instr.opcode, hv]
  | lookup k =>
    have hy : fieldY (encode (.lookup k)) = 0#8 := fieldY_packWord 0x5#4 0#4 0#8 0#8 k
    have hx : fieldX (encode (.lookup k)) = 0#8 := fieldX_packWord 0x5#4 0#4 0#8 0#8 k
    simp [Instr.opcode, hy, hx]
  | fbinit | palinit | inject | diffuse | sim | scan | tick | run => decide

/-- A word decodes to the command whose operation code and operands its fields are. -/
theorem decode_of_fields (hop : fieldOp w = i.opcode) (hz : fieldZ w = 0#4)
    (hbits : fieldY w ++ fieldX w ++ fieldV w = i.operandBits) : decode w = .ok i := by
  rw [decode_eq_ok_iff]
  unfold encode
  rw [← hop, ← hz, ← hbits]
  exact packWord_fields w

/-- A word whose fields fit decodes to the command without operands that has its operation code. -/
theorem decode_of_fieldsFit (hop : fieldOp w = i.opcode) (hfit : fieldsFit w)
    (hi : i.opcode ≠ 0x3#4 ∧ i.opcode ≠ 0x4#4 ∧ i.opcode ≠ 0x5#4) (hbits : i.operandBits = 0#24) : decode w = .ok i := by
  obtain ⟨hz, hy, hx, hv⟩ := hfit
  obtain ⟨h3, h4, h5⟩ := hop ▸ hi
  refine decode_of_fields hop hz ?_
  rw [hy h3 h4, hx h3 h4, hv h3 h5, hbits]
  rfl

/-- The words of a row, by their fields (R71, R73). -/
theorem decodes_in_row_iff : (∃ j, decode w = .ok j ∧ j.opcode = i.opcode) ↔ fieldOp w = i.opcode ∧ fieldsFit w := by
  constructor
  · rintro ⟨j, hj, hop⟩
    obtain rfl := decode_eq_ok_iff.1 hj
    exact ⟨(fieldOp_encode j).trans hop, fieldsFit_encode j⟩
  · rintro ⟨hop, hfit⟩
    have ⟨hz, hy, hx, hv⟩ := hfit
    cases i with
    | setpx => exact ⟨.setpx (fieldX w) (fieldY w) (fieldV w), decode_of_fields hop hz rfl, rfl⟩
    | getpx =>
      refine ⟨.getpx (fieldX w) (fieldY w), decode_of_fields hop hz ?_, rfl⟩
      have h3 : fieldOp w ≠ 0x3#4 := by rw [hop]; exact nofun
      have h5 : fieldOp w ≠ 0x5#4 := by rw [hop]; exact nofun
      rw [hv h3 h5]
      rfl
    | lookup =>
      refine ⟨.lookup (fieldV w), decode_of_fields hop hz ?_, rfl⟩
      have h3 : fieldOp w ≠ 0x3#4 := by rw [hop]; exact nofun
      have h4 : fieldOp w ≠ 0x4#4 := by rw [hop]; exact nofun
      rw [hy h3 h4, hx h3 h4]
      rfl
    | fbinit | palinit | inject | diffuse | sim | scan | tick | run =>
      exact ⟨_, decode_of_fieldsFit hop hfit (by decide) rfl, rfl⟩

/-! The mask and match columns of the opcode map, field by field (R73). -/

/-- The bits that a row fixes of a field which is an operand under the operation codes `a` and `b` only: none there, else
all. -/
def fixedBits (op a b : BitVec 4) : Byte := if op = a ∨ op = b then 0x00#8 else 0xFF#8

theorem and_fixedBits_eq_zero_iff {op a b : BitVec 4} {f : Byte} :
    f &&& fixedBits op a b = 0#8 ↔ (op ≠ a → op ≠ b → f = 0#8) := by
  unfold fixedBits
  split_ifs with h
  · exact iff_of_true BitVec.and_zero fun ha hb => absurd h (not_or.2 ⟨ha, hb⟩)
  · have hall : f &&& 0xFF#8 = f := BitVec.and_allOnes
    rw [hall]
    exact ⟨fun hf _ _ => hf, fun hf => hf (not_or.1 h).1 (not_or.1 h).2⟩

theorem mask_eq_packWord (i : Instr) :
    i.mask = packWord 0xF#4 0xF#4 (fixedBits i.opcode 0x3#4 0x4#4) (fixedBits i.opcode 0x3#4 0x4#4)
      (fixedBits i.opcode 0x3#4 0x5#4) := by
  cases i <;> simp only [Instr.mask, Instr.opcode] <;> decide

theorem matchWord_eq_packWord (i : Instr) : i.matchWord = packWord i.opcode 0#4 0#8 0#8 0#8 := by
  cases i <;> simp only [Instr.matchWord, Instr.opcode] <;> decide

theorem packWord_and (op z op' z' : BitVec 4) (y x v y' x' v' : Byte) :
    packWord op z y x v &&& packWord op' z' y' x' v' =
      packWord (op &&& op') (z &&& z') (y &&& y') (x &&& x') (v &&& v') := by
  apply BitVec.eq_of_getLsbD_eq
  intro j hj
  rw [BitVec.getLsbD_and]
  simp only [getLsbD_packWord, BitVec.getLsbD_and]
  split_ifs <;> rfl

theorem packWord_inj {op z op' z' : BitVec 4} {y x v y' x' v' : Byte} :
    packWord op z y x v = packWord op' z' y' x' v' ↔ op = op' ∧ z = z' ∧ y = y' ∧ x = x' ∧ v = v' := by
  constructor
  · intro h
    exact ⟨by simpa using congrArg fieldOp h, by simpa using congrArg fieldZ h, by simpa using congrArg fieldY h,
      by simpa using congrArg fieldX h, by simpa using congrArg fieldV h⟩
  · rintro ⟨rfl, rfl, rfl, rfl, rfl⟩
    rfl

/-- A word has the bits its row fixes when its operation code is the row's and its fields fit (R73). -/
theorem masked_eq_matchWord_iff : w &&& i.mask = i.matchWord ↔ fieldOp w = i.opcode ∧ fieldsFit w := by
  have hop : fieldOp w &&& 0xF#4 = fieldOp w := BitVec.and_allOnes
  have hz : fieldZ w &&& 0xF#4 = fieldZ w := BitVec.and_allOnes
  have hw : w &&& i.mask = packWord (fieldOp w) (fieldZ w) (fieldY w &&& fixedBits i.opcode 0x3#4 0x4#4)
      (fieldX w &&& fixedBits i.opcode 0x3#4 0x4#4) (fieldV w &&& fixedBits i.opcode 0x3#4 0x5#4) := by
    conv_lhs => rw [← packWord_fields w]
    rw [mask_eq_packWord, packWord_and, hop, hz]
  rw [hw, matchWord_eq_packWord, packWord_inj]
  simp only [and_fixedBits_eq_zero_iff]
  exact and_congr_right fun h => by rw [fieldsFit, h]

/-- Settles O3: both sides say that the operation code is the row's and that the other fixed fields are 0. -/
theorem opcodeMap : Obligations.OpcodeMap := fun _ _ => masked_eq_matchWord_iff.trans decodes_in_row_iff.symm

/-! Which words are illegal (R75). -/

/-- The operation codes that no command has: 0x0 and 0xC to 0xF (R73). -/
theorem reservedOpcode_iff {op : BitVec 4} : (op = 0x0#4 ∨ 0xC#4 ≤ op) ↔ ∀ i : Instr, op ≠ i.opcode := by
  constructor
  · rintro hres i rfl
    cases i <;> simp [Instr.opcode] at hres
  · have hrows : ∀ op : BitVec 4, ¬ (op = 0x0#4 ∨ 0xC#4 ≤ op) → ∃ i ∈ [Instr.fbinit, .palinit, .setpx 0 0 0, .getpx 0 0,
        .lookup 0, .inject, .diffuse, .sim, .scan, .tick, .run], op = i.opcode := by decide
    intro hnone
    by_contra hres
    obtain ⟨i, -, hi⟩ := hrows op hres
    exact hnone i hi

theorem decode_eq_error_iff : (∃ r, decode w = .error r) ↔ ∀ i, decode w ≠ .ok i := by
  cases decode w <;> simp

/-- A word does not decode when its operation code is reserved or its fields do not fit (R75). -/
theorem illegal_iff : (∃ r, decode w = .error r) ↔ (fieldOp w = 0x0#4 ∨ 0xC#4 ≤ fieldOp w) ∨ ¬ fieldsFit w := by
  rw [decode_eq_error_iff, reservedOpcode_iff]
  constructor
  · intro hnone
    by_contra hlegal
    obtain ⟨hrow, hfit⟩ := not_or.1 hlegal
    obtain ⟨i, hop⟩ := not_forall_not.1 hrow
    obtain ⟨j, hj, -⟩ := decodes_in_row_iff.2 ⟨hop, not_not.1 hfit⟩
    exact hnone j hj
  · intro hillegal i hi
    obtain ⟨hop, hfit⟩ := decodes_in_row_iff.1 ⟨i, hi, rfl⟩
    obtain hres | hnofit := hillegal
    · exact hres i hop
    · exact hnofit hfit

/-- The fields do not fit when the reserved one, or one that carries no operand, is not 0. -/
theorem not_fieldsFit_iff : ¬ fieldsFit w ↔
    fieldZ w ≠ 0#4 ∨ (fieldY w ≠ 0#8 ∧ fieldOp w ≠ 0x3#4 ∧ fieldOp w ≠ 0x4#4) ∨
      (fieldX w ≠ 0#8 ∧ fieldOp w ≠ 0x3#4 ∧ fieldOp w ≠ 0x4#4) ∨
      (fieldV w ≠ 0#8 ∧ fieldOp w ≠ 0x3#4 ∧ fieldOp w ≠ 0x5#4) := by
  unfold fieldsFit
  tauto

end Sys2Proof
end

section
/-!
PROOFS. A word on the command port: accepted in `IDLE`, as a command or as an illegal word, and ignored elsewhere (R75, R84).
-/

namespace Sys2Proof.Machine

variable {s : State} {w : Word32} {l : List HostAct}

/-- A word presented in `IDLE` is accepted (R84). -/
theorem step_of_word (hp : s.phase = .idle) (ht : s.todo = .cmd w :: l) : step s = acceptWord w (s.setTodo l) := by
  rw [step_of_todo ht]
  exact react_cmd_idle w (s.setTodo l) hp

/-- Settles O4: the rows leave these words out, and the acceptance of one is the fault `ERR_ILLEGAL` and nothing more. -/
theorem illegalWords : Obligations.IllegalWords := by
  refine ⟨fun w => illegal_iff.trans (or_congr_right not_fieldsFit_iff), ⟨.reservedOpcode, by decide⟩,
    ⟨.reservedField, by decide⟩, ?_⟩
  intro s w l r hp ht hr
  rw [step_of_word hp ht, acceptWord_error hr]
  rfl

/-- Settles O6: the acceptance of a word that decodes is its command's meaning. -/
theorem stepRunsDecoded : Obligations.StepRunsDecoded := by
  intro s w l i hp ht hi
  rw [step_of_word hp ht, acceptWord_ok hi]

/-- Settles O7: with the word or without it the block goes on by itself. -/
theorem wordsIgnoredOutsideIdle : Obligations.WordsIgnoredOutsideIdle := by
  intro s w l hp ht
  calc step s = goOn (s.setTodo l) := (step_of_todo ht).trans (react_cmd_busy w (s.setTodo l) hp)
    _ = step (s.setTodo (.wait :: l)) := (step_of_todo (s := s.setTodo (.wait :: l)) rfl).symm

end Sys2Proof.Machine
end

section
/-!
PROOFS. The end of each command: the response, or the phase in which it has none (R77, R170, R172, R192).
-/

namespace Sys2Proof.Machine

variable {i : Instr} {s t : State}

/-- The response of a command that completes from `s` on: a cell, a color, or 0 (R77). -/
def responseWord : Instr → State → Word32
  | .getpx x y, s => cellWord (s.cellAt x.toNat y.toNat)
  | .lookup k, s => colorWord (s.lookup k)
  | _, _ => 0#32

/-- Every command but `RUN` ends by giving its response (R77, R170). -/
theorem effect_eq_respond (hi : i ≠ .run) (b : State) : ∃ u : State, effect i b = u.respond (responseWord i b) := by
  cases i with
  | run => exact absurd rfl hi
  | _ => exact ⟨_, rfl⟩

/-- Acceptance changes neither a cell nor a color, so the response is that of the state before it. -/
theorem responseWord_begin (i j : Instr) (s : State) : responseWord j (s.begin i) = responseWord j s := by
  cases j with
  | getpx x y => rw [responseWord, cellAt_begin, responseWord]
  | lookup k =>
    rw [responseWord, lookup_congr (begin_cfg s i) (begin_palc s i) (begin_resets s i), responseWord]
  | _ => rfl

/-- Only `GETPX` and `LOOKUP` have a result (R77). -/
theorem responseWord_of_no_result (hcell : ∀ x y, i ≠ .getpx x y) (hcolor : ∀ k, i ≠ .lookup k) (s : State) :
    responseWord i s = 0#32 := by
  unfold responseWord
  split
  · next x y => exact absurd rfl (hcell x y)
  · next k => exact absurd rfl (hcolor k)
  · rfl

/-- A pass of `RUN` gives no response (R172). -/
theorem rspValid_effect_run (b : State) : (effect .run b).rspValid = b.rspValid := by
  rw [effect, State.enter_rspValid, tickBody_frame]

/-- Settles O40: a fault ends in `HALT`, a pass of `RUN` goes on without a response, and every other effect ends with one. -/
theorem responses : Obligations.Responses := by
  intro i s t h
  obtain ⟨e, he, rfl⟩ | ⟨hok, -, rfl⟩ := exec_cases h
  · simp [he]
  · refine ⟨fun hfault => absurd hok hfault, fun _ hrun => ?_, fun _ hrun => ?_⟩
    · subst hrun
      rw [rspValid_effect_run, begin_rspValid]
    · obtain ⟨u, hu⟩ := effect_eq_respond hrun (s.begin i)
      rw [hu, responseWord_begin]
      refine ⟨rfl, rfl, ?_, ?_, responseWord_of_no_result (s := s)⟩
      · rintro x y rfl
        rfl
      · rintro k rfl
        rfl

end Sys2Proof.Machine
end

section
/-!
PROOFS. BOOT: what `FBINIT` and `PALINIT` leave behind, from any state, and the two of them from reset (R83, R92, R106, R217).
-/

namespace Sys2Proof.Machine

variable {i : Instr} {s : State} {l : List HostAct} {x y : Nat}

/-- The word of a command that is accepted, and whose ports answer, presented in `IDLE`: the step is the whole command. -/
theorem step_of_command (hp : s.phase = .idle) (ht : s.todo = .cmd (encode i) :: l) (hok : acceptError i s = none)
    (hn : neverAnswered i s = none) : step s = .next (effect i ((s.setTodo l).begin i)) := by
  rw [step_of_word hp ht, acceptWord_ok (decode_encode i)]
  exact exec_accepted hok hn

theorem cfg_effect_begin (i : Instr) (s : State) : (effect i (s.begin i)).cfg = s.cfg :=
  cfg_of_outer ((outer_effect i _).trans (outer_begin s i))

/-- After `FBINIT` every cell of the grid is 0 (R106). -/
theorem cellAt_effect_fbinit (s : State) (hx : x < s.cfg.w) (hy : y < s.cfg.h) :
    (effect .fbinit (s.begin .fbinit)).cellAt x y = 0#8 := by
  have hread := fbinitBody_read (s.begin .fbinit) rfl (addr s.cfg.toParams x y)
  rw [begin_cfg, if_pos (addr_lt s.cfg hx hy)] at hread
  unfold State.cellAt State.fbCell
  rw [cfg_effect_begin, effect, State.respond_fb, hread]
  rfl

/-- `PALINIT` leaves the cells alone (R38). -/
theorem cellAt_effect_palinit (s : State) (x y : Nat) : (effect .palinit (s.begin .palinit)).cellAt x y = s.cellAt x y := by
  rw [effect_begin_frame]
  rfl

theorem fbv_effect_palinit (s : State) : (effect .palinit (s.begin .palinit)).fbv = s.fbv := by
  rw [effect_begin_frame]
  rfl

/-- After `PALINIT` every lookup gives the color source's value, in every mode (R91, R92). -/
theorem lookup_effect_palinit (s : State) (k : Byte) :
    (effect .palinit (s.begin .palinit)).lookup k = palSrcAt s.cfg.toParams k := by
  by_cases hm : s.cfg.palMode = .ram
  · have hread := palinitBody_read (b := s.begin .palinit) hm rfl k.toNat
    rw [if_pos k.isLt, begin_cfg, BitVec.ofNat_toNat, BitVec.setWidth_eq] at hread
    rw [lookup_of_ram (by rw [cfg_effect_begin]; exact hm), State.palEntry, effect, State.respond_palc, hread]
    rfl
  · rw [lookup_of_not_ram (by rw [cfg_effect_begin]; exact hm), cfg_effect_begin]

/-- After `PALINIT` the palette is valid, in every mode (R29, R92). -/
theorem palvOut_effect_palinit (s : State) : (effect .palinit (s.begin .palinit)).palvOut = true := by
  unfold State.palvOut
  rw [cfg_effect_begin]
  by_cases hm : s.cfg.palMode = .ram
  · rw [effect, State.respond_palv, palinitBody_frame (b := s.begin .palinit) hm rfl, Bool.or_true]
  · simp [hm]

/-- With both flags set only a coordinate can make a command fault (R191). -/
theorem acceptError_of_ready (hf : s.fbv = true) (hp : s.palvOut = true) (hi : i.wellFormed s.cfg.toParams = true) :
    acceptError i s = none :=
  acceptError_eq_none.2 ⟨hi, fun _ => hf, fun _ => hp⟩

/-- The block after the first word of BOOT, from reset. -/
def afterFbinit (c : Config) : State := effect .fbinit (((State.resetOf c).setTodo [.cmd (encode .palinit)]).begin .fbinit)

/-- The block after both words of BOOT, from reset. -/
def afterBoot (c : Config) : State := effect .palinit (((afterFbinit c).setTodo []).begin .palinit)

theorem step_reset_boot (c : Config) : step ((State.resetOf c).setTodo (bootWords.map .cmd)) = .next (afterFbinit c) :=
  step_of_command rfl rfl rfl rfl

theorem outer_afterFbinit (c : Config) :
    (afterFbinit c).outer = ((State.resetOf c).setTodo [.cmd (encode .palinit)]).outer :=
  (outer_effect .fbinit _).trans (outer_begin _ .fbinit)

theorem cfg_afterFbinit (c : Config) : (afterFbinit c).cfg = c := cfg_of_outer (outer_afterFbinit c)

theorem fbv_afterFbinit (c : Config) : (afterFbinit c).fbv = true := rfl

theorem step_afterFbinit (c : Config) : step (afterFbinit c) = .next (afterBoot c) := by
  have htodo : (afterFbinit c).todo = [.cmd (encode .palinit)] := congrArg (·.2.2.1) (outer_afterFbinit c)
  have hsilent : (afterFbinit c).palSilent = false := congrArg (·.2.2.2.2) (outer_afterFbinit c)
  exact step_of_command rfl htodo rfl (neverAnswered_eq_none.2 ⟨nofun, fun _ => hsilent⟩)

/-- Settles O45: the first word fills the frame buffer, the second leaves it alone and makes the palette valid. -/
theorem bootMakesReady : Obligations.BootMakesReady := by
  intro c
  have hcfg : ((afterFbinit c).setTodo []).cfg = c := cfg_afterFbinit c
  have hcfg' : (afterBoot c).cfg = c := (cfg_effect_begin .palinit _).trans hcfg
  have htodo : (afterBoot c).todo = [] := congrArg (·.2.2.1) ((outer_effect .palinit _).trans (outer_begin _ .palinit))
  refine ⟨_, _, step_reset_boot c, step_afterFbinit c, htodo, rfl, rfl, rfl, fun x y hx hy => ?_, fun k => ?_,
    fun i hi => ?_⟩
  · exact (cellAt_effect_palinit _ x y).trans (cellAt_effect_fbinit _ hx hy)
  · exact (lookup_effect_palinit _ k).trans (by rw [hcfg])
  · have hfbv : (afterBoot c).fbv = true := (fbv_effect_palinit _).trans (fbv_afterFbinit c)
    exact acceptError_of_ready hfbv (palvOut_effect_palinit _) (by rw [hcfg']; exact hi)

end Sys2Proof.Machine
end

section
/-!
PROOFS. `PALINIT` in each mode: the filled cache and its frame in RAM mode, nothing but the response elsewhere (R92, C5).
-/

namespace Sys2Proof.Machine

variable {s t : State}

/-- `PALINIT` is always accepted: it has no operand and needs no flag (R191). -/
theorem acceptError_palinit (s : State) : acceptError .palinit s = none := acceptError_eq_none.2 ⟨rfl, nofun, nofun⟩

/-- Only `PALINIT` in RAM mode waits for the color source (R92). -/
theorem neverAnswered_palinit (h : s.cfg.palMode = .ram → s.palSilent = false) : neverAnswered .palinit s = none :=
  neverAnswered_eq_none.2 ⟨nofun, fun huse => h (of_decide_eq_true huse)⟩

/-- A `PALINIT` that completes has had its effect: it cannot fault. -/
theorem eq_effect_of_exec_palinit (h : exec .palinit s = .next t) : t = effect .palinit (s.begin .palinit) := by
  obtain ⟨e, he, -⟩ | ⟨-, -, ht⟩ := exec_cases h
  · rw [acceptError_palinit] at he
    cases he
  · exact ht

/-- In RAM mode `PALINIT` touches the cache, `PALV`, its counter and the request port, and answers (R92). -/
theorem effect_palinit_of_ram (hm : s.cfg.palMode = .ram) :
    effect .palinit (s.begin .palinit) =
      { s with phase := .idle, cmdr := encode .palinit, palc := (effect .palinit (s.begin .palinit)).palc, palv := true,
               pali := 256, palLog := s.palLog ++ (List.range 256).map (fun k => BitVec.ofNat 8 k), palWait := false,
               rsp := 0#32, rspValid := true, port := 0 } := by
  simp only [effect]
  rw [palinitBody_frame (b := s.begin .palinit) hm rfl]
  rfl

/-- Outside RAM mode `PALINIT` only starts its phase and answers (R92). -/
theorem effect_palinit_of_not_ram (hm : s.cfg.palMode ≠ .ram) :
    effect .palinit (s.begin .palinit) =
      { s with phase := .idle, cmdr := encode .palinit, pali := 0, palWait := false, rsp := 0#32, rspValid := true,
               port := 0 } := by
  rw [effect, palinitBody_of_not_ram (b := s.begin .palinit) hm]
  rfl

/-- The cache after `PALINIT` in RAM mode, entry by entry (R92). -/
theorem read?_effect_palinit (hm : s.cfg.palMode = .ram) (k : Nat) :
    Memory.read? (effect .palinit (s.begin .palinit)).palc k =
      if k < 256 then some (palSrcAt s.cfg.toParams (BitVec.ofNat 8 k)) else Memory.read? s.palc k :=
  palinitBody_read (b := s.begin .palinit) hm rfl k

/-- Settles O15: the effect's frame, with the cache read entry by entry. -/
theorem palinitFillsCache : Obligations.PalinitFillsCache := by
  intro s hm hs
  have hframe := effect_palinit_of_ram hm
  have hlog := congrArg State.palLog hframe
  refine ⟨_, exec_accepted (acceptError_palinit s) (neverAnswered_palinit fun _ => hs), fun k hk => ?_, fun k hk => ?_,
    hlog, ?_⟩
  · rw [read?_effect_palinit hm, if_pos hk]
  · rw [read?_effect_palinit hm, if_neg (Nat.not_lt.2 hk)]
  · rw [hlog]
    exact hframe

/-- Settles O16: in RAM mode both fills store the same answers; in the other modes neither writes the cache. -/
theorem palinitIdempotent : Obligations.PalinitIdempotent := by
  intro s t u ht hu k
  have hcfg : t.cfg = s.cfg := cfg_of_outer (outer_exec ht)
  rw [eq_effect_of_exec_palinit hu]
  by_cases hm : t.cfg.palMode = .ram
  · have hread : Memory.read? t.palc k =
        if k < 256 then some (palSrcAt s.cfg.toParams (BitVec.ofNat 8 k)) else Memory.read? s.palc k := by
      rw [eq_effect_of_exec_palinit ht]
      exact read?_effect_palinit (hcfg ▸ hm) k
    rw [read?_effect_palinit hm, hread, hcfg]
    split <;> rfl
  · rw [effect_palinit_of_not_ram hm]

/-- Settles O17: the command asks for no color, so it completes with a silent source too. -/
theorem palinitElsewhereDoesNothing : Obligations.PalinitElsewhereDoesNothing := by
  intro s hm
  rw [exec_accepted (acceptError_palinit s) (neverAnswered_palinit fun h => absurd h hm), effect_palinit_of_not_ram hm]
  rfl

end Sys2Proof.Machine
end

section
/-!
PROOFS. What a lookup answers in a state of the invariant: the color source's value, whatever the mode (R91, R93, R94).
-/

namespace Sys2Proof.Machine

variable {s : State}

/-- A full, sound cache answers with the color source's value (R40, R65). -/
theorem palEntry_of_inv (h : s.Inv) (hm : s.cfg.palMode = .ram) (hv : s.palv = true) (k : Byte) :
    s.palEntry k.toNat = palSrcAt s.cfg.toParams k := by
  obtain ⟨v, hread⟩ := Option.isSome_iff_exists.1 (h.palFull hm hv k.toNat k.isLt)
  have hval : v = palSrcAt s.cfg.toParams (BitVec.ofNat 8 k.toNat) :=
    (h.palForm.2 _ (Memory.mem_of_read? hread)).2
  rw [State.palEntry, hread, Option.getD_some, hval, BitVec.ofNat_toNat, BitVec.setWidth_eq]

/-- With a valid palette every lookup gives the color source's value, in every mode (R94). -/
theorem lookup_of_inv (h : s.Inv) (hp : s.palvOut = true) (k : Byte) : s.lookup k = palSrcAt s.cfg.toParams k := by
  by_cases hm : s.cfg.palMode = .ram
  · have hv : s.palv = true := by simpa [State.palvOut, hm] using hp
    rw [lookup_of_ram hm, palEntry_of_inv h hm hv]
  · exact lookup_of_not_ram hm k

/-- `LOOKUP` asks the color source outside RAM mode only (R93). -/
theorem effect_lookup (s : State) (k : Byte) :
    effect (.lookup k) (s.begin (.lookup k)) =
      { s with phase := .idle, cmdr := encode (.lookup k), palWait := false,
               palLog := if s.cfg.palMode = .ram then s.palLog else s.palLog ++ [k],
               rsp := colorWord (s.lookup k), rspValid := true, port := 0 } := by
  have hcolor : (s.begin (.lookup k)).lookup k = s.lookup k :=
    lookup_congr (begin_cfg s _) (begin_palc s _) (begin_resets s _) k
  rw [effect, hcolor, State.logLookup, begin_cfg]
  split <;> rfl

/-- Settles O21: the answer is the color source's value by the invariant, the rest is the effect's frame. -/
theorem lookupAnswersColor : Obligations.LookupAnswersColor := by
  intro s k h hp hs
  have hok : acceptError (.lookup k) s = none := acceptError_eq_none.2 ⟨rfl, nofun, fun _ => hp⟩
  have hanswer : neverAnswered (.lookup k) s = none :=
    neverAnswered_eq_none.2 ⟨nofun, fun huse => hs.resolve_left (by simpa [usesColorSource, usesPalette] using huse)⟩
  rw [exec_accepted hok hanswer, effect_lookup, lookup_of_inv h hp]
  rfl

end Sys2Proof.Machine
end

section
/-!
PROOFS. The palette mode shows neither in a lookup nor in the record of a scan (R94).
-/

namespace Sys2Proof.Machine

variable {s s' : State} {m : PalMode}

/-- The record of a scan that is accepted: the words of the chain positions in order, then the latch hold (R146, R148). -/
theorem waveCycles_effect_scan (s : State) :
    waveCycles (effect .scan (s.begin .scan)).wave =
      (List.range s.cfg.l).flatMap (fun q => wordCycles s.cfg.toParams (s.ledWords q)) ++
        List.replicate s.cfg.tLatch 0 := by
  have hword : ∀ c q, (s.begin .scan).ledWord c q = s.ledWord c q :=
    ledWord_congr (begin_cfg s .scan) (begin_fb s .scan) (begin_palc s .scan) (begin_resets s .scan)
  have hwords : (s.begin .scan).ledWords = s.ledWords := by
    funext q
    simp only [State.ledWords, hword, begin_cfg]
  have hcycles := scanBody_cycles (s.begin .scan) rfl rfl
  rw [hwords, begin_cfg] at hcycles
  exact hcycles

/-- Two full frame buffers that are equal give equal cells; no free value enters (R212). -/
theorem fbCell_congr_of_inv (h : s.Inv) (hv : s.fbv = true) (hfb : s.fb = s'.fb) {a : Nat} (ha : a < s.cfg.npix) :
    s.fbCell a = s'.fbCell a := by
  obtain ⟨v, hread⟩ := Option.isSome_iff_exists.1 (h.fbFull hv a ha)
  rw [State.fbCell, State.fbCell, ← hfb, hread, Option.getD_some, Option.getD_some]

/-- Builds that differ in `PALMODE` at most have equal lookups, once both palettes are valid (R94). -/
theorem lookup_of_modes (h : s.Inv) (h' : s'.Inv) (hp : s.palvOut = true) (hp' : s'.palvOut = true)
    (hcfg : s'.cfg.toParams = { s.cfg.toParams with palMode := m }) (k : Byte) : s.lookup k = s'.lookup k := by
  rw [lookup_of_inv h hp, lookup_of_inv h' hp', hcfg]
  rfl

/-- Settles O34: the record is made of the LED words, and these of equal cells and equal colors. -/
theorem crossModeEquivalence : Obligations.CrossModeEquivalence := by
  intro s s' m h h' hcfg hfb hok hanswer hok' hanswer'
  obtain ⟨-, hfbv, hpal⟩ := acceptError_eq_none.1 hok
  obtain ⟨-, -, hpal'⟩ := acceptError_eq_none.1 hok'
  have hlookup := lookup_of_modes h h' (hpal rfl) (hpal' rfl) hcfg
  refine ⟨hlookup, _, _, exec_accepted hok hanswer, exec_accepted hok' hanswer', ?_⟩
  have hwords : ∀ q < s.cfg.l, s.ledWords q = s'.ledWords q := by
    intro q hq
    simp only [State.ledWords, State.ledWord, hcfg]
    refine List.map_congr_left fun c hc => ?_
    have hcell := fbCell_congr_of_inv h (hfbv rfl) hfb (pixmap_lt s.cfg (List.mem_range.1 hc) hq)
    rw [hlookup, hcell]
    rfl
  simp only [waveCycles_effect_scan, hcfg]
  congr 1
  refine List.flatMap_congr fun q hq => ?_
  rw [hwords q (List.mem_range.1 hq)]
  rfl

end Sys2Proof.Machine
end

section
/-!
PROOFS. The frame-buffer commands: what `FBINIT` and `SETPX` store, what `GETPX` reads, and what they leave alone (R106 to R108).
-/

namespace Sys2Proof.Machine

variable {s : State}

/-- `FBINIT` fills the cells, sets `FBV`, leaves its counter at the end, and answers (R106). -/
theorem effect_fbinit (s : State) :
    effect .fbinit (s.begin .fbinit) =
      { s with phase := .idle, cmdr := encode .fbinit, fb := (effect .fbinit (s.begin .fbinit)).fb, fbv := true,
               filla := s.cfg.npix, rsp := 0#32, rspValid := true, port := 0 } := by
  have hfilla : (s.begin .fbinit).filla + (s.begin .fbinit).cfg.npix = s.cfg.npix := Nat.zero_add _
  simp only [effect]
  rw [fbinitBody_frame, hfilla]
  rfl

/-- The frame buffer after `FBINIT`, address by address (R106). -/
theorem read?_effect_fbinit (s : State) (a : Nat) :
    Memory.read? (effect .fbinit (s.begin .fbinit)).fb a = if a < s.cfg.npix then some 0#8 else Memory.read? s.fb a :=
  fbinitBody_read (s.begin .fbinit) rfl a

/-- Settles O14: the effect's frame, with the frame buffer read address by address. -/
theorem fbinitZeroFills : Obligations.FbinitZeroFills := by
  intro s
  refine ⟨_, exec_accepted rfl rfl, fun a ha => ?_, fun a ha => ?_, effect_fbinit s⟩
  · rw [read?_effect_fbinit, if_pos ha]
  · rw [read?_effect_fbinit, if_neg (Nat.not_lt.2 ha)]

/-- Settles O18: the cell's write is the only change of the frame buffer. -/
theorem setpxStoresOneCell : Obligations.SetpxStoresOneCell := by
  intro s x y v hx hy hf
  refine ⟨_, exec_setpx_of_inRange hx hy hf, ?_, fun a ha => ?_, fun hmap => addr_direct hmap _ _, rfl⟩
  · exact Memory.read?_write_self s.fb _ v
  · exact Memory.read?_write_of_ne s.fb v ha

/-- In a state of the invariant with `FBV = 1` each cell of the grid holds the value that is read there (R212). -/
theorem read?_cellAt_of_inv (h : s.Inv) (hf : s.fbv = true) {x y : Nat} (hx : x < s.cfg.w) (hy : y < s.cfg.h) :
    Memory.read? s.fb (addr s.cfg.toParams x y) = some (s.cellAt x y) := by
  obtain ⟨v, hread⟩ := Option.isSome_iff_exists.1 (h.fbFull hf _ (addr_lt s.cfg hx hy))
  rw [State.cellAt, State.fbCell, hread, Option.getD_some]

/-- Settles O19: the answer is the value the invariant says the cell holds. -/
theorem getpxReadsCell : Obligations.GetpxReadsCell := by
  intro s x y h hx hy hf
  exact ⟨s.cellAt x.toNat y.toNat, read?_cellAt_of_inv h hf hx hy, exec_getpx_of_inRange hx hy hf⟩

end Sys2Proof.Machine
end

section
/-!
PROOFS. The arithmetic of the simulation: the saturating add, the cell function and the two narrowings (R120 to R123, U4).
-/

namespace Sys2Proof.Machine

theorem toNat_satAdd8 (a b : Byte) : (satAdd8 a b).toNat = min (a.toNat + b.toNat) 255 := by
  unfold satAdd8
  rw [BitVec.toNat_ofNat]
  omega

/-- Settles O22: the sum is clamped before it is cut to 8 bits, so the cut loses nothing. -/
theorem saturatingAdd : Obligations.SaturatingAdd :=
  ⟨toNat_satAdd8, by decide, by decide, by decide⟩

/-- The five weights add up to 259 (R121, R123). -/
theorem diffuseCell_uniform (v : Byte) : diffuseCell v v v v v = 259 * v.toNat / 256 := by
  have hsum : diffuseSum v v v v v = 259 * v.toNat := by
    unfold diffuseSum
    omega
  rw [diffuseCell, hsum]

/-- Settles O23: `259 * V = 256 * V + 3 * V`, and `3 * V` is below 256, below 512 or below 768. -/
theorem uniformCell : Obligations.UniformCell := by
  intro v
  have hv := v.isLt
  rw [diffuseCell_uniform]
  omega

theorem toNat_narrow8_sat (v : Nat) : (narrow8 .sat v).toNat = min v 255 := by
  unfold narrow8
  rw [BitVec.toNat_ofNat]
  omega

theorem toNat_narrow8_wrap (v : Nat) : (narrow8 .wrap v).toNat = v % 256 := by
  unfold narrow8
  rw [BitVec.toNat_ofNat]
  omega

/-- Settles O24: the cell function is at most 257, and the clamp and the wrap differ at 256 and at 257. -/
theorem narrowingsDiffer : Obligations.NarrowingsDiffer := by
  refine ⟨fun c l r u d => ?_, fun v hv => ?_⟩
  · have hle := diffuseSum_le c l r u d
    rw [← BitVec.toNat_inj, toNat_narrow8_sat, toNat_narrow8_wrap, diffuseCell]
    omega
  · rw [toNat_narrow8_sat, toNat_narrow8_wrap]
    omega

end Sys2Proof.Machine
end

section
/-!
PROOFS. `INJECT`: the byte drawn, the cell it changes, and what it leaves alone (R57, R124).
-/

namespace Sys2Proof.Machine

variable {s : State}

/-- The byte drawn is the answer the script comes to (R57). -/
theorem drawn_of_answer {b : Byte} {l : List (Option Byte)} (h : untilAnswer s.rngScript = some b :: l) :
    s.drawn = b := by
  unfold State.drawn
  rw [h]

/-- With no answer left in the script the byte drawn is free (log entry 5). -/
theorem drawn_of_usedUp (h : untilAnswer s.rngScript = []) : s.drawn = Config.rngByte s.draws := by
  unfold State.drawn
  rw [h]

/-- With `FBV = 1` a command without a coordinate that looks up no color is accepted (R191). -/
theorem acceptError_of_fbv {i : Instr} (hi : i.coords = none) (hp : usesPalette i = false) (hf : s.fbv = true) :
    acceptError i s = none :=
  acceptError_eq_none.2 ⟨by simp [Instr.wellFormed, hi], fun _ => hf, fun hu => absurd (hp.symm.trans hu) nofun⟩

/-- With `FBV = 1` and a RandomSource that answers, `INJECT` completes (R124). -/
theorem exec_inject (hf : s.fbv = true) (hr : s.rngStuck = false) :
    exec .inject s = .next (effect .inject (s.begin .inject)) :=
  exec_accepted (acceptError_of_fbv rfl rfl hf) (neverAnswered_eq_none.2 ⟨fun _ => hr, nofun⟩)

/-- Settles O25: the effect is one write of the frame buffer, and what is left of the script is what follows the answer. -/
theorem injectAddsSpark : Obligations.InjectAddsSpark := by
  intro s hf hr
  refine ⟨_, exec_inject hf hr, fun m b l hs => ?_, fun hs => ?_, ?_, fun a ha => ?_, rfl⟩
  · have hrest : untilAnswer s.rngScript = some b :: l := hs ▸ untilAnswer_replicate m b l
    exact ⟨drawn_of_answer hrest, congrArg List.tail hrest⟩
  · have hrest := untilAnswer_of_none hs
    exact ⟨drawn_of_usedUp hrest, congrArg List.tail hrest⟩
  · exact Memory.read?_write_self s.fb _ _
  · exact Memory.read?_write_of_ne s.fb _ ha

end Sys2Proof.Machine
end

section
/-!
PROOFS. `DIFFUSE`: each cell is written once, in the order of R125, and what its neighbours hold at that time says whether the
pass has come by them. From this the fixed-point form of the pass, and the pass over an all-zero buffer (R125, R126).
-/

namespace Sys2Proof.Machine

/-- How many cells the pass visits before `(x, y)`: the rows below, then the cells to the left (R125). -/
def visitNumber (p : Params) (x y : Nat) : Nat := (p.h - 1 - y) * p.w + x

theorem visitNumber_lt {p : Params} {x y : Nat} (hx : x < p.w) (hy : y < p.h) : visitNumber p x y < p.npix :=
  rowMajor_lt hx (by omega)

/-- The pass visits the left neighbour before the cell. -/
theorem visitNumber_left {p : Params} {x : Nat} (y : Nat) (hx : 0 < x) : visitNumber p (x - 1) y < visitNumber p x y := by
  unfold visitNumber
  omega

/-- The pass visits the right neighbour after the cell. -/
theorem visitNumber_right (p : Params) (x y : Nat) : visitNumber p x y < visitNumber p (x + 1) y := Nat.lt_succ_self _

/-- The pass visits the lower neighbour before the cell. -/
theorem visitNumber_down {p : Params} {x y : Nat} (hw : 0 < p.w) (hy : y + 1 < p.h) :
    visitNumber p x (y + 1) < visitNumber p x y := by
  have hrows : p.h - 1 - (y + 1) < p.h - 1 - y := by omega
  exact Nat.add_lt_add_right (Nat.mul_lt_mul_of_pos_right hrows hw) x

/-- The pass visits the upper neighbour after the cell. -/
theorem visitNumber_up {p : Params} {x y : Nat} (hw : 0 < p.w) (h0 : 0 < y) (hy : y < p.h) :
    visitNumber p x y < visitNumber p x (y - 1) := by
  have hdown := visitNumber_down (p := p) (x := x) (y := y - 1) hw (by omega)
  rwa [Nat.sub_add_cancel h0] at hdown

/-- The cell that the pass visits after `k` others is the one with that number. -/
theorem visitNumber_eq_iff {p : Params} {x y k : Nat} (hx : x < p.w) (hy : y < p.h) (hk : k < p.npix) :
    visitNumber p x y = k ↔ x = k % p.w ∧ y = p.h - 1 - k / p.w := by
  have hrow : k / p.w < p.h := Nat.div_lt_of_lt_mul hk
  have hunique : k / p.w = p.h - 1 - y ∧ k % p.w = x ↔ x + p.w * (p.h - 1 - y) = k ∧ x < p.w :=
    Nat.div_mod_unique (Nat.zero_lt_of_lt hx)
  rw [visitNumber, Nat.add_comm, Nat.mul_comm]
  omega

/-- The state in which the pass that starts in `b` comes to the cell `(x, y)`. -/
def State.atTurn (b : State) (x y : Nat) : State := State.diffuseOne^[visitNumber b.cfg.toParams x y] b

theorem cfg_atTurn (b : State) (x y : Nat) : (b.atTurn x y).cfg = b.cfg := diffuseOne_iterate_cfg _ b

section
variable {b : State} {x y k : Nat} (hcx : b.cx = 0#9) (hcy : b.cy = BitVec.ofNat 9 (b.cfg.h - 1))
  (hx : x < b.cfg.w) (hy : y < b.cfg.h)

include hcx hcy hx hy

/-- The next cell of the pass is the one whose turn it is, and it alone changes. -/
theorem read?_diffuseOne_iterate_succ (hk : k < b.cfg.npix) :
    Memory.read? (State.diffuseOne^[k + 1] b).fb (addr b.cfg.toParams x y) =
      if visitNumber b.cfg.toParams x y = k then some (newCell (State.diffuseOne^[k] b) x y)
      else Memory.read? (State.diffuseOne^[k] b).fb (addr b.cfg.toParams x y) := by
  obtain ⟨hpx, hpy⟩ := diffuse_place hcx hcy hk
  rw [Function.iterate_succ_apply', diffuseOne_fb, diffuseOne_iterate_cfg, hpx, hpy]
  split
  · next hvisit =>
    obtain ⟨hxk, hyk⟩ := (visitNumber_eq_iff hx hy hk).1 hvisit
    rw [← hxk, ← hyk, Memory.read?_write_self]
  · next hvisit =>
    refine Memory.read?_write_of_ne _ _ fun haddr => hvisit ?_
    have hrow : b.cfg.h - 1 - k / b.cfg.w < b.cfg.h :=
      lt_of_le_of_lt (Nat.sub_le _ _) (Nat.sub_lt b.cfg.h_pos Nat.one_pos)
    exact (visitNumber_eq_iff hx hy hk).2 (addr_inj b.cfg hx hy (Nat.mod_lt k b.cfg.w_pos) hrow haddr)

/-- After `k` cells the pass has written the cells numbered below `k`, each once, at its turn. -/
theorem read?_diffuseOne_iterate (hk : k ≤ b.cfg.npix) :
    Memory.read? (State.diffuseOne^[k] b).fb (addr b.cfg.toParams x y) =
      if visitNumber b.cfg.toParams x y < k then some (newCell (b.atTurn x y) x y)
      else Memory.read? b.fb (addr b.cfg.toParams x y) := by
  induction k with
  | zero => rfl
  | succ k ih =>
    rw [read?_diffuseOne_iterate_succ hcx hcy hx hy hk, ih (Nat.le_of_succ_le hk)]
    rcases Nat.lt_trichotomy (visitNumber b.cfg.toParams x y) k with hlt | heq | hgt
    · rw [if_neg (by omega), if_pos hlt, if_pos (by omega)]
    · rw [if_pos heq, if_pos (by omega), State.atTurn, heq]
    · rw [if_neg (by omega), if_neg (by omega), if_neg (by omega)]

/-- What a cell holds at the end of the pass: the value computed at its turn. -/
theorem read?_diffuseBody :
    Memory.read? (diffuseBody b).fb (addr b.cfg.toParams x y) = some (newCell (b.atTurn x y) x y) := by
  rw [diffuseBody, read?_diffuseOne_iterate hcx hcy hx hy (le_refl _), if_pos (visitNumber_lt hx hy)]

theorem cellAt_diffuseBody : (diffuseBody b).cellAt x y = newCell (b.atTurn x y) x y := by
  rw [State.cellAt, State.fbCell, cfg_of_outer (outer_diffuseBody b), read?_diffuseBody hcx hcy hx hy, Option.getD_some]

/-- In the middle of the pass a cell that has had its turn reads as at the end, any other as at the start. -/
theorem cellAt_diffuseOne_iterate (hk : k ≤ b.cfg.npix) :
    (State.diffuseOne^[k] b).cellAt x y =
      if visitNumber b.cfg.toParams x y < k then (diffuseBody b).cellAt x y else b.cellAt x y := by
  have hresets : (State.diffuseOne^[k] b).resets = b.resets := by rw [diffuseOne_iterate_frame]
  rw [cellAt_diffuseBody hcx hcy hx hy, State.cellAt, State.fbCell, diffuseOne_iterate_cfg, hresets,
    read?_diffuseOne_iterate hcx hcy hx hy hk]
  split <;> rfl

/-- When the pass comes to a cell, another cell reads as at the end if it has had its turn, and as at the start if not. -/
theorem cellAt_atTurn {x' y' : Nat} (hx' : x' < b.cfg.w) (hy' : y' < b.cfg.h) :
    (b.atTurn x y).cellAt x' y' =
      if visitNumber b.cfg.toParams x' y' < visitNumber b.cfg.toParams x y then (diffuseBody b).cellAt x' y'
      else b.cellAt x' y' :=
  cellAt_diffuseOne_iterate hcx hcy hx' hy' (le_of_lt (visitNumber_lt hx hy))

/-- The cell itself is old at its turn. -/
theorem cellAt_atTurn_center : (b.atTurn x y).cellAt x y = b.cellAt x y := by
  rw [cellAt_atTurn hcx hcy hx hy hx hy, if_neg (Nat.lt_irrefl _)]

/-- The left neighbour is new. -/
theorem leftOf_atTurn : (b.atTurn x y).leftOf x y = if 0 < x then (diffuseBody b).cellAt (x - 1) y else 0#8 := by
  refine if_ctx_congr Iff.rfl (fun h0 => ?_) fun _ => rfl
  rw [cellAt_atTurn hcx hcy hx hy (lt_of_le_of_lt (Nat.sub_le x 1) hx) hy, if_pos (visitNumber_left y h0)]

/-- The right neighbour is old. -/
theorem rightOf_atTurn : (b.atTurn x y).rightOf x y = if x + 1 < b.cfg.w then b.cellAt (x + 1) y else 0#8 := by
  rw [State.rightOf, cfg_atTurn]
  refine if_ctx_congr Iff.rfl (fun h1 => ?_) fun _ => rfl
  rw [cellAt_atTurn hcx hcy hx hy h1 hy, if_neg (Nat.lt_asymm (visitNumber_right _ x y))]

/-- The upper neighbour is old. -/
theorem upOf_atTurn : (b.atTurn x y).upOf x y = if 0 < y then b.cellAt x (y - 1) else 0#8 := by
  refine if_ctx_congr Iff.rfl (fun h0 => ?_) fun _ => rfl
  rw [cellAt_atTurn hcx hcy hx hy hx (lt_of_le_of_lt (Nat.sub_le y 1) hy),
    if_neg (Nat.lt_asymm (visitNumber_up b.cfg.w_pos h0 hy))]

/-- The lower neighbour is new; on the bottom row the cell itself stands in for it, or 0 does (U5). -/
theorem downOf_atTurn : (b.atTurn x y).downOf x y =
    if y + 1 < b.cfg.h then (diffuseBody b).cellAt x (y + 1)
    else if b.cfg.downAtBottom = .center then b.cellAt x y else 0#8 := by
  rw [State.downOf, cfg_atTurn]
  refine if_ctx_congr Iff.rfl (fun h1 => ?_) fun _ => ?_
  · rw [cellAt_atTurn hcx hcy hx hy hx h1, if_pos (visitNumber_down b.cfg.w_pos h1)]
  · rw [cellAt_atTurn_center hcx hcy hx hy]
    cases b.cfg.downAtBottom <;> rfl

/-- The pass in its fixed-point form: new left and lower neighbours, old right and upper ones (R125). -/
theorem read?_diffuseBody_neighbours :
    Memory.read? (diffuseBody b).fb (addr b.cfg.toParams x y) =
      some (narrow8 b.cfg.narrow (diffuseCell (b.cellAt x y)
        (if 0 < x then (diffuseBody b).cellAt (x - 1) y else 0#8)
        (if x + 1 < b.cfg.w then b.cellAt (x + 1) y else 0#8)
        (if 0 < y then b.cellAt x (y - 1) else 0#8)
        (if y + 1 < b.cfg.h then (diffuseBody b).cellAt x (y + 1)
          else if b.cfg.downAtBottom = .center then b.cellAt x y else 0#8))) := by
  rw [read?_diffuseBody hcx hcy hx hy, newCell, cfg_atTurn, cellAt_atTurn_center hcx hcy hx hy,
    leftOf_atTurn hcx hcy hx hy, rightOf_atTurn hcx hcy hx hy, upOf_atTurn hcx hcy hx hy, downOf_atTurn hcx hcy hx hy]

end

variable {s : State}

/-- With `FBV = 1` a diffusion pass completes (R125). -/
theorem exec_diffuse (hf : s.fbv = true) : exec .diffuse s = .next (effect .diffuse (s.begin .diffuse)) :=
  exec_accepted (acceptError_of_fbv rfl rfl hf) rfl

/-- `DIFFUSE` changes the cells and the datapath registers, and answers (R125). -/
theorem effect_diffuse (s : State) :
    effect .diffuse (s.begin .diffuse) =
      { s with phase := .idle, cmdr := encode .diffuse, fb := (effect .diffuse (s.begin .diffuse)).fb,
               cx := (effect .diffuse (s.begin .diffuse)).cx, cy := (effect .diffuse (s.begin .diffuse)).cy,
               c := (effect .diffuse (s.begin .diffuse)).c, lf := (effect .diffuse (s.begin .diffuse)).lf,
               rt := (effect .diffuse (s.begin .diffuse)).rt, up := (effect .diffuse (s.begin .diffuse)).up,
               dn := (effect .diffuse (s.begin .diffuse)).dn, acc := (effect .diffuse (s.begin .diffuse)).acc,
               rsp := 0#32, rspValid := true, port := 0 } := by
  simp only [effect]
  rw [diffuseBody_frame]
  rfl

/-- Settles O26: each cell holds the value computed at its turn, from neighbours that had their turn before it or not. -/
theorem diffuseInPlace : Obligations.DiffuseInPlace := by
  intro s hf
  refine ⟨_, exec_diffuse hf, fun x y hx hy => ?_, fun a ha => ?_, effect_diffuse s⟩
  · have hread := read?_diffuseBody_neighbours (b := s.begin .diffuse) rfl rfl hx hy
    simp only [cellAt_begin] at hread
    exact hread
  · exact read?_diffuseBody_of_offGrid (s := s.begin .diffuse) rfl rfl ha

/-- Every cell of the grid reads 0. -/
def State.allZero (s : State) : Prop := ∀ x y, x < s.cfg.w → y < s.cfg.h → s.cellAt x y = 0#8

/-- The new value of a cell of an all-zero buffer is 0, under every narrowing and on every border (R125 c). -/
theorem newCell_of_allZero (h : s.allZero) {x y : Nat} (hx : x < s.cfg.w) (hy : y < s.cfg.h) : newCell s x y = 0#8 := by
  have hleft : s.leftOf x y = 0#8 := ite_eq_right_iff.2 fun _ => h _ _ (lt_of_le_of_lt (Nat.sub_le x 1) hx) hy
  have hright : s.rightOf x y = 0#8 := ite_eq_right_iff.2 fun h1 => h _ _ h1 hy
  have hup : s.upOf x y = 0#8 := ite_eq_right_iff.2 fun _ => h _ _ hx (lt_of_le_of_lt (Nat.sub_le y 1) hy)
  have hdown : s.downOf x y = 0#8 := by
    unfold State.downOf
    split
    · next h1 => exact h _ _ hx h1
    · split
      · exact h _ _ hx hy
      · rfl
  rw [newCell, h _ _ hx hy, hleft, hright, hup, hdown]
  cases s.cfg.narrow <;> rfl

/-- No cell of the pass makes an all-zero buffer anything else (R125 c). -/
theorem allZero_diffuseOne_iterate {b : State} (hcx : b.cx = 0#9) (hcy : b.cy = BitVec.ofNat 9 (b.cfg.h - 1))
    (h : b.allZero) {k : Nat} (hk : k ≤ b.cfg.npix) : (State.diffuseOne^[k] b).allZero := by
  induction k using Nat.strong_induction_on with
  | _ k ih =>
    intro x y hx hy
    rw [diffuseOne_iterate_cfg] at hx hy
    rw [cellAt_diffuseOne_iterate hcx hcy hx hy hk]
    split
    · next hvisit =>
      rw [cellAt_diffuseBody hcx hcy hx hy]
      exact newCell_of_allZero (ih _ hvisit (le_of_lt (visitNumber_lt hx hy))) (by rwa [diffuseOne_iterate_cfg])
        (by rwa [diffuseOne_iterate_cfg])
    · exact h x y hx hy

/-- Settles O27: the cells are 0 after any number of cells of the pass, so at its end. -/
theorem zeroBufferStaysZero : Obligations.ZeroBufferStaysZero := by
  intro s hf h
  refine ⟨_, exec_diffuse hf, fun x y hx hy => ?_⟩
  have hstart : (s.begin .diffuse).allZero := fun x y hx hy => (cellAt_begin s .diffuse x y).trans (h x y hx hy)
  have hend : (diffuseBody (s.begin .diffuse)).allZero := allZero_diffuseOne_iterate rfl rfl hstart (le_refl _)
  exact hend x y (by rwa [diffuseBody, diffuseOne_iterate_cfg]) (by rwa [diffuseBody, diffuseOne_iterate_cfg])

end Sys2Proof.Machine
end

section
/-!
PROOFS. `SIM` is `INJECT` followed by `DIFFUSE` (R127): the pass does not see the response of the injection that comes before it.
-/

namespace Sys2Proof.Machine

variable {s : State}

/-- With `FBV = 1` and a RandomSource that answers, `SIM` completes (R127). -/
theorem exec_sim (hf : s.fbv = true) (hr : s.rngStuck = false) : exec .sim s = .next (effect .sim (s.begin .sim)) :=
  exec_accepted (acceptError_of_fbv rfl rfl hf) (neverAnswered_eq_none.2 ⟨fun _ => hr, nofun⟩)

/-- `DIFFUSE` after `INJECT` starts where `SIM` goes on to its pass, but for the command word, the response and the port. -/
theorem begin_diffuse_after_inject (s : State) :
    (effect .inject (s.begin .inject)).begin .diffuse =
      (((injectBody (s.begin .sim)).enter .diffuse).withPort 0).withFront (encode .diffuse) 0#32 false := rfl

/-- `DIFFUSE` after `INJECT` has the effect of `SIM` but for the command word (R127). -/
theorem effect_diffuse_after_inject (s : State) :
    effect .diffuse ((effect .inject (s.begin .inject)).begin .diffuse) =
      { effect .sim (s.begin .sim) with cmdr := encode .diffuse } := by
  rw [begin_diffuse_after_inject, effect, diffuseBody_withFront, diffuseBody_withPort]
  rfl

/-- Settles O28: the two commands have the effect of `SIM`, whose own word stands in `CMDR` from its acceptance on. -/
theorem simIsInjectThenDiffuse : Obligations.SimIsInjectThenDiffuse := by
  intro s hf hr
  have hcmdr : (effect .sim (s.begin .sim)).cmdr = 0x80000000#32 := congrArg State.cmdr (effect_begin_frame .sim s)
  refine ⟨_, _, exec_inject hf hr, exec_diffuse hf, ?_⟩
  rw [exec_sim hf hr, effect_diffuse_after_inject, ← hcmdr]

end Sys2Proof.Machine
end

section
/-!
PROOFS. The line of a chain in a bit time (R143 to R147, R151): a pulse whose length is the data bit.
-/

namespace Sys2Proof.Machine

variable {p : Params} {b c k j : Nat}

theorem testBit_highMask_line (hc : c < p.n) : (highMask p).testBit (p.firstPin + c) = true := by
  rw [testBit_highMask, decide_eq_true_iff]
  omega

theorem testBit_patternOf_line (sr : List Color) (k : Nat) (hc : c < p.n) :
    (patternOf p sr k).testBit (p.firstPin + c) = dataBit (sr.getD c 0#24) k := by
  rw [testBit_patternOf, decide_eq_true (by omega), Bool.true_and, Nat.add_sub_cancel_left]

/-- A chain's line in a bit time: high up to `TH`, at its data bit up to `TH + TP`, then low (R145, R147). -/
theorem testBit_bitLevel_line (sr : List Color) (k j : Nat) (hc : c < p.n) :
    (bitLevel p (patternOf p sr k) j).testBit (p.firstPin + c) =
      decide (j < if dataBit (sr.getD c 0#24) k then p.th + p.tp else p.th) := by
  unfold bitLevel
  split
  · next hhigh =>
    rw [testBit_highMask_line hc, eq_comm, decide_eq_true_iff]
    split <;> omega
  · next hhigh =>
    split
    · next hdata =>
      rw [testBit_patternOf_line sr k hc]
      cases dataBit (sr.getD c 0#24) k <;> simp [hhigh, hdata]
    · next hdata =>
      rw [Nat.zero_testBit, eq_comm, decide_eq_false_iff_not]
      split <;> omega

/-- A port bit that is no chain line is 0 throughout a bit time (R151). -/
theorem testBit_bitLevel_elsewhere (sr : List Color) (k j : Nat) (hb : b < p.firstPin ∨ p.firstPin + p.n ≤ b) :
    (bitLevel p (patternOf p sr k) j).testBit b = false := by
  have hoff : ¬ (p.firstPin ≤ b ∧ b < p.firstPin + p.n) := by omega
  unfold bitLevel
  split
  · rw [testBit_highMask, decide_eq_false hoff]
  · split
    · rw [testBit_patternOf, decide_eq_false hoff, Bool.false_and]
    · exact Nat.zero_testBit b

/-- Settles O29: on a chain line the three parts of the bit time are one pulse, and no other port bit takes part in them. -/
theorem bitTimeOnEachLine : Obligations.BitTimeOnEachLine := by
  intro p sr k j b
  exact ⟨fun c hc hb => hb ▸ testBit_bitLevel_line sr k j hc, testBit_bitLevel_elsewhere sr k j⟩

end Sys2Proof.Machine
end

section
/-!
PROOFS. `SCAN` as a whole: it completes, what it leaves alone, and what each cycle of its record shows (R146 to R149).
-/

namespace Sys2Proof.Machine

variable {s : State}

/-- With both flags set and colors answered `SCAN` completes (R149). -/
theorem exec_scan (hf : s.fbv = true) (hp : s.palvOut = true) (ha : s.colorsAnswered) :
    exec .scan s = .next (effect .scan (s.begin .scan)) := by
  refine exec_accepted (acceptError_of_ready hf hp rfl) (neverAnswered_eq_none.2 ⟨nofun, fun hu => ?_⟩)
  obtain hm | hsilent := ha
  · simp [usesColorSource, hm] at hu
  · exact hsilent

/-- `SCAN` changes the encoder registers, the request port and the record, and answers (R149). -/
theorem effect_scan (s : State) :
    effect .scan (s.begin .scan) =
      { s with phase := .idle, cmdr := encode .scan, pos := (effect .scan (s.begin .scan)).pos,
               bitk := (effect .scan (s.begin .scan)).bitk, cyc := (effect .scan (s.begin .scan)).cyc,
               pfc := (effect .scan (s.begin .scan)).pfc, lcnt := (effect .scan (s.begin .scan)).lcnt,
               sr := (effect .scan (s.begin .scan)).sr, nx := (effect .scan (s.begin .scan)).nx,
               wave := (effect .scan (s.begin .scan)).wave, palLog := (effect .scan (s.begin .scan)).palLog,
               palWait := false, rsp := 0#32, rspValid := true, port := 0 } := by
  have hopen : (scanBody (s.begin .scan)).palWait = false := scanBody_palWait rfl
  simp only [effect]
  rw [← hopen, scanBody_frame]
  rfl

/-- The pattern of chain position `q` and bit `k`, with the bits of the colors in the order sent (R142 to R144). -/
theorem patternOf_ledWords (s : State) (q : Nat) {k : Nat} (hk : k < 24) :
    patternOf s.cfg.toParams (s.ledWords q) k =
      ((List.range s.cfg.n).map fun c =>
        ((s.lookup (s.fbCell (pixmap s.cfg.toParams c q))).getLsbD
          (if k < 8 then 15 - k else if k < 16 then 31 - k else 23 - k)).toNat <<< (s.cfg.firstPin + c)).sum := by
  unfold patternOf
  congr 1
  refine List.map_congr_left fun c hc => ?_
  rw [getD_ledWords s q (List.mem_range.1 hc), State.ledWord, dataBit_wire24 _ hk]

/-- The port in cycle `j` of the bit time of chain position `q` and bit `k` (R145, R146). -/
theorem bitLevel_ledWords (s : State) (q : Nat) {k : Nat} (hk : k < 24) (j : Nat) :
    bitLevel s.cfg.toParams (patternOf s.cfg.toParams (s.ledWords q) k) j =
      if j < s.cfg.th then (2 ^ s.cfg.n - 1) <<< s.cfg.firstPin
      else if j < s.cfg.th + s.cfg.tp then
        ((List.range s.cfg.n).map fun c =>
          ((s.lookup (s.fbCell (pixmap s.cfg.toParams c q))).getLsbD
            (if k < 8 then 15 - k else if k < 16 then 31 - k else 23 - k)).toNat <<< (s.cfg.firstPin + c)).sum
      else 0 := by
  rw [← patternOf_ledWords s q hk]
  rfl

section Blocks

variable {α : Type} {f : Nat → List α} {b : Nat}

theorem length_flatMap_range (hf : ∀ q, (f q).length = b) (m : Nat) : ((List.range m).flatMap f).length = b * m := by
  simp [List.length_flatMap, hf, Nat.mul_comm]

/-- Blocks of one length, one after the other: the item at place `i` of block `q`. -/
theorem getElem?_flatMap_range (hf : ∀ q, (f q).length = b) {m q i : Nat} (hq : q < m) (hi : i < b) :
    ((List.range m).flatMap f)[b * q + i]? = (f q)[i]? := by
  induction m with
  | zero => omega
  | succ m ih =>
    have hlen := length_flatMap_range hf m
    rw [List.range_succ, List.flatMap_append, List.flatMap_singleton]
    obtain hlt | rfl := Nat.lt_succ_iff_lt_or_eq.1 hq
    · have hin : b * (q + 1) ≤ b * m := Nat.mul_le_mul_left b hlt
      rw [List.getElem?_append_left (by rw [hlen]; rw [Nat.mul_succ] at hin; omega), ih hlt]
    · rw [List.getElem?_append_right (by rw [hlen]; omega), hlen, Nat.add_sub_cancel_left]

end Blocks

theorem length_wordCycles (p : Params) (r : List Color) : (wordCycles p r).length = p.tbit * 24 :=
  length_flatMap_range (fun _ => length_bitCycles p _) 24

theorem getElem?_wordCycles (p : Params) (r : List Color) {k j : Nat} (hk : k < 24) (hj : j < p.tbit) :
    (wordCycles p r)[p.tbit * k + j]? = some (bitLevel p (patternOf p r k) j) :=
  (getElem?_flatMap_range (fun _ => length_bitCycles p _) hk hj).trans (getElem?_bitCycles p _ hj)

/-- A place within a bit time is a place within its chain position. -/
theorem place_lt {t k j : Nat} (hk : k < 24) (hj : j < t) : t * k + j < t * 24 := Nat.mul_comm t k ▸ rowMajor_lt hj hk

/-- The record's cycles of `SHIFT`: the words of the chain positions in order (R146). -/
def State.shiftCycles (s : State) : List PortVal :=
  (List.range s.cfg.l).flatMap fun q => wordCycles s.cfg.toParams (s.ledWords q)

theorem length_shiftCycles (s : State) : s.shiftCycles.length = s.cfg.tbit * (24 * s.cfg.l) := by
  rw [State.shiftCycles, length_flatMap_range (fun _ => length_wordCycles _ _), Nat.mul_assoc]

theorem getElem?_shiftCycles (s : State) {q k j : Nat} (hq : q < s.cfg.l) (hk : k < 24) (hj : j < s.cfg.tbit) :
    s.shiftCycles[s.cfg.tbit * (24 * q + k) + j]? =
      some (bitLevel s.cfg.toParams (patternOf s.cfg.toParams (s.ledWords q) k) j) := by
  rw [Nat.mul_add, ← Nat.mul_assoc, Nat.add_assoc, State.shiftCycles,
    getElem?_flatMap_range (fun _ => length_wordCycles _ _) hq (place_lt hk hj), getElem?_wordCycles _ _ hk hj]

/-- Settles O30: the record is the words of the chain positions and the latch hold, read at an index; the rest is the frame. -/
theorem scanTrace : Obligations.ScanTrace := by
  intro s hf hp ha
  have hcycles : waveCycles (effect .scan (s.begin .scan)).wave = s.shiftCycles ++ List.replicate s.cfg.tLatch 0 :=
    waveCycles_effect_scan s
  have hlen := length_shiftCycles s
  refine ⟨_, exec_scan hf hp ha, fun q k j hq hk hj => ?_, pixmap_direct, fun j hj => ?_, ?_, effect_scan s⟩
  · have hget := getElem?_shiftCycles s hq hk hj
    rw [hcycles, List.getElem?_append_left (List.getElem?_eq_some_iff.1 hget).1, hget, bitLevel_ledWords s q hk]
  · rw [hcycles, List.getElem?_append_right (by omega), hlen, Nat.add_sub_cancel_left, List.getElem?_replicate, if_pos hj]
  · rw [hcycles, List.length_append, hlen, List.length_replicate]

end Sys2Proof.Machine
end

section
/-!
PROOFS. The waveform of one line in the record of a scan (R147, R150, R155): a pulse for each bit of its own chain's words.
-/

namespace Sys2Proof.Machine

variable {s s' : State} {p : Params} {c : Nat}

/-- The pulse of one data bit on a chain's line (R147). -/
def pulse (p : Params) (d : Bool) : List Bool :=
  List.replicate p.th true ++ List.replicate p.tp d ++ List.replicate p.tl false

/-- The pulses of one LED word on a chain's line (R143). -/
def wordPulses (p : Params) (v : Color) : List Bool := (List.range 24).flatMap fun k => pulse p (dataBit v k)

theorem line_bitCycles (r : List Color) (k : Nat) (hc : c < p.n) :
    (bitCycles p (patternOf p r k)).map (·.testBit (p.firstPin + c)) = pulse p (dataBit (r.getD c 0#24) k) := by
  simp only [bitCycles, pulse, List.map_append, List.map_replicate, testBit_highMask_line hc, testBit_patternOf_line r k hc,
    Nat.zero_testBit]

theorem line_wordCycles (r : List Color) (hc : c < p.n) :
    (wordCycles p r).map (·.testBit (p.firstPin + c)) = wordPulses p (r.getD c 0#24) := by
  simp only [wordCycles, wordPulses, List.map_flatMap, line_bitCycles r _ hc]

/-- The line of chain `c` carries the words of its own cells in order, then the latch hold (R146, R150). -/
theorem lineOf_effect_scan (s : State) (hc : c < s.cfg.n) :
    lineOf (s.cfg.firstPin + c) (effect .scan (s.begin .scan)).wave =
      (List.range s.cfg.l).flatMap (fun q => wordPulses s.cfg.toParams (s.ledWord c q)) ++
        List.replicate s.cfg.tLatch false := by
  simp only [lineOf, waveCycles_effect_scan, List.map_append, List.map_flatMap, List.map_replicate, Nat.zero_testBit,
    line_wordCycles _ hc, getD_ledWords s _ hc]

/-- Settles O33: of the colors only those of the chain's own cells enter its line. -/
theorem lanesIndependent : Obligations.LanesIndependent := by
  intro s s' c hcfg hc hok hanswer hok' hanswer' hcolor
  refine ⟨_, _, exec_accepted hok hanswer, exec_accepted hok' hanswer', ?_⟩
  have hc' : c < s'.cfg.n := hcfg ▸ hc
  have hword : ∀ q ∈ List.range s.cfg.l, s.ledWord c q = s'.ledWord c q := by
    intro q hq
    rw [State.ledWord, hcolor q (List.mem_range.1 hq), hcfg]
    rfl
  rw [lineOf_effect_scan s hc, hcfg, lineOf_effect_scan s' hc', ← hcfg]
  congr 1
  exact List.flatMap_congr fun q hq => congrArg (wordPulses s.cfg.toParams) (hword q hq)

theorem risingEdges_replicate_append (v : Bool) (n : Nat) (r : List Bool) :
    risingEdges v (List.replicate n v ++ r) = risingEdges v r := by
  induction n with
  | zero => rfl
  | succ n ih =>
    rw [List.replicate_succ, List.cons_append, risingEdges, ih]
    cases v <;> simp

/-- A low line that goes high for at least one cycle rises once. -/
theorem risingEdges_high {n : Nat} (hn : 0 < n) (r : List Bool) :
    risingEdges false (List.replicate n true ++ r) = 1 + risingEdges true r := by
  obtain ⟨m, rfl⟩ := Nat.exists_eq_add_one.2 hn
  rw [List.replicate_succ, List.cons_append, risingEdges, risingEdges_replicate_append]
  rfl

/-- A high line that goes low for at least one cycle does not rise by that. -/
theorem risingEdges_low {n : Nat} (hn : 0 < n) (r : List Bool) :
    risingEdges true (List.replicate n false ++ r) = risingEdges false r := by
  obtain ⟨m, rfl⟩ := Nat.exists_eq_add_one.2 hn
  rw [List.replicate_succ, List.cons_append, risingEdges, risingEdges_replicate_append]
  simp

/-- A pulse rises once and ends low, whatever its data bit (R147). -/
theorem risingEdges_pulse (cfg : Config) (d : Bool) (r : List Bool) :
    risingEdges false (pulse cfg.toParams d ++ r) = 1 + risingEdges false r := by
  rw [pulse, List.append_assoc, List.append_assoc, risingEdges_high cfg.th_pos]
  cases d
  · rw [risingEdges_low cfg.tp_pos, risingEdges_replicate_append]
  · rw [risingEdges_replicate_append, risingEdges_low cfg.tl_pos]

/-- Blocks that each rise `m` times from low and end low rise `m` times each. -/
theorem risingEdges_flatMap {f : Nat → List Bool} {m : Nat}
    (hf : ∀ q r, risingEdges false (f q ++ r) = m + risingEdges false r) (qs : List Nat) (r : List Bool) :
    risingEdges false (qs.flatMap f ++ r) = m * qs.length + risingEdges false r := by
  induction qs with
  | nil => simp
  | cons q qs ih =>
    rw [List.flatMap_cons, List.append_assoc, hf, ih, List.length_cons, Nat.mul_succ]
    omega

theorem risingEdges_wordPulses (cfg : Config) (v : Color) (r : List Bool) :
    risingEdges false (wordPulses cfg.toParams v ++ r) = 24 + risingEdges false r :=
  risingEdges_flatMap (fun _ => risingEdges_pulse cfg _) (List.range 24) r

/-- Settles O32: each of the `24 * L` pulses of a line rises once, and the latch hold does not rise. -/
theorem scanRisingEdges : Obligations.ScanRisingEdges := by
  intro s hf hp ha
  refine ⟨_, exec_scan hf hp ha, fun c hc => ?_⟩
  have hlatch := risingEdges_replicate_append false s.cfg.tLatch []
  rw [List.append_nil] at hlatch
  rw [lineOf_effect_scan s hc, risingEdges_flatMap (fun _ => risingEdges_wordPulses s.cfg _), hlatch, List.length_range]
  rfl

end Sys2Proof.Machine
end

section
/-!
PROOFS. The colors a scan asks for: those of position 0 in `PREFETCH`, then in each position those of the next one (R149, R153).
-/

namespace Sys2Proof.Machine

variable {s : State} {q : Nat}

/-- The indices asked for chain position `q`: a request for each chain outside RAM mode, none in it (R93, R153). -/
def State.requests (s : State) (q : Nat) : List Byte :=
  if s.cfg.palMode = .ram then [] else (List.range s.cfg.n).map fun c => s.fbCell (pixmap s.cfg.toParams c q)

/-- The requests depend on the build, the frame buffer and the reset count only. -/
theorem requests_congr {t : State} (hc : t.cfg = s.cfg) (hf : t.fb = s.fb) (hr : t.resets = s.resets) :
    t.requests = s.requests := by
  funext q
  simp only [State.requests, State.fbCell, hc, hf, hr]

theorem palLog_fetch_eq (q : Nat) (s : State) :
    (s.fetch q).palLog =
      s.palLog ++ if s.cfg.palMode = .ram then [] else [s.fbCell (pixmap s.cfg.toParams s.pfc q)] := by
  unfold State.fetch State.logLookup
  split <;> simp

theorem palLog_fetch_iterate (q n : Nat) (h0 : s.pfc = 0) :
    ((State.fetch q)^[n] s).palLog =
      s.palLog ++ if s.cfg.palMode = .ram then []
        else (List.range n).map fun c => s.fbCell (pixmap s.cfg.toParams c q) := by
  induction n with
  | zero => simp
  | succ n ih =>
    have hf := fetch_iterate_frame q n s
    rw [Function.iterate_succ_apply', palLog_fetch_eq, ih]
    generalize (State.fetch q)^[n] s = t at hf
    have hcell : t.fbCell = s.fbCell := by rw [hf]; rfl
    have hcfg : t.cfg = s.cfg := by rw [hf]
    have hpfc : t.pfc = n := by rw [hf]; simp [h0]
    rw [hcell, hcfg, hpfc]
    split <;> simp [List.range_succ]

/-- The fetches of a chain position ask for its colors (R149). -/
theorem palLog_fetches (q : Nat) (h0 : s.pfc = 0) :
    ((State.fetch q)^[s.cfg.n] s).palLog = s.palLog ++ s.requests q := palLog_fetch_iterate q s.cfg.n h0

/-- A chain position asks for the colors of the next one, if there is one (R149, R152). -/
theorem palLog_sendPosition (h0 : s.pfc = 0) :
    s.sendPosition.palLog = s.palLog ++ if s.pos + 1 < s.cfg.l then s.requests (s.pos + 1) else [] := by
  have hlog : s.sendPosition.palLog =
      (if s.pos + 1 < s.cfg.l then (State.fetch (s.pos + 1))^[s.cfg.n] s else s).palLog := by
    unfold State.sendPosition
    simp only
    rw [nextPosition_frame, sendWord_frame]
  rw [hlog]
  split
  · exact palLog_fetches (s.pos + 1) h0
  · exact (List.append_nil _).symm

theorem cfg_sendPosition_iterate (q : Nat) (s : State) : (State.sendPosition^[q] s).cfg = s.cfg := by
  rw [sendPosition_iterate_frame]

theorem pos_sendPosition_iterate (q : Nat) (h0 : s.pos = 0) : (State.sendPosition^[q] s).pos = q := by
  rw [sendPosition_iterate_frame]
  simp [h0]

theorem requests_sendPosition_iterate (q : Nat) (s : State) : (State.sendPosition^[q] s).requests = s.requests := by
  apply requests_congr <;> rw [sendPosition_iterate_frame]

/-- Each chain position but the last is followed by the start of the next one. -/
theorem atPosition_iterate (h : AtPosition s) (h0 : s.pos = 0) (hq : q < s.cfg.l) :
    AtPosition (State.sendPosition^[q] s) := by
  induction q with
  | zero => exact h
  | succ q ih =>
    rw [Function.iterate_succ_apply']
    refine atPosition_next (ih (Nat.lt_of_succ_lt hq)) ?_
    rwa [pos_sendPosition_iterate q h0, cfg_sendPosition_iterate]

/-- The first `q` chain positions ask for the colors of positions 1 to `q`, as far as there are such. -/
theorem palLog_sendPosition_iterate (h : AtPosition s) (h0 : s.pos = 0) (hq : q < s.cfg.l) :
    (State.sendPosition^[q] s).palLog = s.palLog ++ (List.range q).flatMap fun p => s.requests (p + 1) := by
  induction q with
  | zero => simp
  | succ q ih =>
    have hq' : q < s.cfg.l := Nat.lt_of_succ_lt hq
    rw [Function.iterate_succ_apply', palLog_sendPosition (atPosition_iterate h h0 hq').pfc, ih hq',
      requests_sendPosition_iterate, pos_sendPosition_iterate q h0, cfg_sendPosition_iterate, if_pos hq, List.range_succ,
      List.flatMap_append, List.append_assoc, List.flatMap_singleton]

/-- Phase `SHIFT` asks for the colors of every position but the first (R149). -/
theorem palLog_shiftBody (h : AtPosition s) (h0 : s.pos = 0) :
    (shiftBody s).palLog = s.palLog ++ (List.range (s.cfg.l - 1)).flatMap fun p => s.requests (p + 1) := by
  obtain ⟨m, hm⟩ := Nat.exists_eq_add_one.2 s.cfg.l_pos
  have hlt : m < s.cfg.l := by omega
  unfold shiftBody
  rw [hm, Function.iterate_succ_apply', palLog_sendPosition (atPosition_iterate h h0 hlt).pfc,
    palLog_sendPosition_iterate h h0 hlt, Nat.add_sub_cancel, pos_sendPosition_iterate m h0, cfg_sendPosition_iterate,
    if_neg (by omega), List.append_nil]

/-- The start of phase `SHIFT` of a scan accepted in `s`: the colors of position 0 are fetched (R149). -/
def State.shiftStart (s : State) : State := (prefetchBody (s.begin .scan)).enter .shift

theorem outer_shiftStart (s : State) : s.shiftStart.outer = s.outer := by
  rw [State.shiftStart, outer_enter, outer_prefetchBody, outer_begin]

theorem cfg_shiftStart (s : State) : s.shiftStart.cfg = s.cfg := cfg_of_outer (outer_shiftStart s)

theorem resets_shiftStart (s : State) : s.shiftStart.resets = s.resets := congrArg (·.2.1) (outer_shiftStart s)

theorem memories_shiftStart (s : State) : s.shiftStart.fb = s.fb ∧ s.shiftStart.palc = s.palc := by
  have hf := fetch_iterate_frame 0 s.cfg.n (s.begin .scan)
  exact ⟨(congrArg State.fb hf :), (congrArg State.palc hf :)⟩

theorem atPosition_shiftStart (ha : s.colorsAnswered) : AtPosition s.shiftStart :=
  ⟨rfl, prefetchBody_rspValid _, rfl, rfl, rfl, rfl, colorsAnswered_of_outer (outer_shiftStart s) ha, Config.l_pos _⟩

/-- Settles O31: `PREFETCH` asks for position 0, and `SHIFT` for each position while the one before it is on the wire. -/
theorem scanLookupOrder : Obligations.ScanLookupOrder := by
  intro s hf hp ha
  refine ⟨_, exec_scan hf hp ha, ?_⟩
  obtain ⟨m, hm⟩ := Nat.exists_eq_add_one.2 s.cfg.l_pos
  have hreq : s.shiftStart.requests = s.requests :=
    requests_congr (cfg_shiftStart s) (memories_shiftStart s).1 (resets_shiftStart s)
  have hprefetch : s.shiftStart.palLog = s.palLog ++ s.requests 0 :=
    (State.enter_palLog _ _).trans (palLog_fetches (s := s.begin .scan) 0 rfl)
  calc (effect .scan (s.begin .scan)).palLog
      = (shiftBody s.shiftStart).palLog := rfl
    _ = s.palLog ++ (s.requests 0 ++ (List.range m).flatMap fun p => s.requests (p + 1)) := by
        rw [palLog_shiftBody (atPosition_shiftStart ha) rfl, hprefetch, hreq, cfg_shiftStart, hm, Nat.add_sub_cancel,
          List.append_assoc]
    _ = s.palLog ++ (List.range s.cfg.l).flatMap s.requests := by
        rw [hm, List.range_succ_eq_map, List.flatMap_cons, List.flatMap_map]
    _ = _ := by
        unfold State.requests
        split <;> simp

end Sys2Proof.Machine
end

section
/-!
PROOFS. The registered port of a scan, cycle by cycle (R146, R148, R149): low in `PREFETCH`, the bit times of the chain
positions in `SHIFT`, low in `LATCH`.
-/

namespace Sys2Proof.Machine

variable {s b : State} {q k j m : Nat}

/-- `m` cycles and then `n` more. -/
theorem clock_add (m n : Nat) (s : State) : State.clock^[m + n] s = State.clock^[n] (State.clock^[m] s) := by
  rw [Nat.add_comm, Function.iterate_add_apply]

/-- In each cycle of `PREFETCH` one color of position 0 is fetched (R149). -/
theorem clock_prefetch_within (hp : b.phase = .prefetch) (hq : b.rspValid = false) (h0 : b.pfc = 0)
    (hs : b.colorsAnswered) (hm : m < b.cfg.n) : State.clock^[m] b = (State.fetch 0)^[m] b := by
  refine clock_iterate fun k hk => ?_
  have hf := fetch_iterate_frame 0 k b
  generalize (State.fetch 0)^[k] b = t at hf
  have hphase : t.phase = .prefetch := by rw [hf]; exact hp
  have hquiet : t.rspValid = false := by rw [hf]; exact hq
  have hpfc : t.pfc = k := by rw [hf]; simp [h0]
  have hcfg : t.cfg = b.cfg := by rw [hf]
  have hanswered : t.colorsAnswered := colorsAnswered_of_outer (by rw [hf]; rfl) hs
  rw [clock_of_prefetch hphase, quiet_eq hquiet, State.prefetchCycle, colorStuck_of_answered hanswered (.inl hphase),
    if_neg Bool.false_ne_true, hpfc, hcfg, if_pos (by omega)]

/-- The chain positions before position `q` take 24 bit times each, with no gap (R146). -/
theorem clock_to_position (h : AtPosition s) (h0 : s.pos = 0) (hq : q < s.cfg.l) :
    State.clock^[s.cfg.tbit * 24 * q] s = State.sendPosition^[q] s := by
  induction q with
  | zero => rfl
  | succ q ih =>
    have hq' : q < s.cfg.l := Nat.lt_of_succ_lt hq
    have hstep := clock_position (atPosition_iterate h h0 hq')
    rw [cfg_sendPosition_iterate, pos_sendPosition_iterate q h0, if_pos hq] at hstep
    rw [Nat.mul_succ, clock_add, ih hq', hstep, Function.iterate_succ_apply']

/-- After the positions before it the block is `m` cycles into chain position `q` (R146). -/
theorem clock_shift_within (h : AtPosition s) (h0 : s.pos = 0) (hq : q < s.cfg.l) (hm : m < s.cfg.tbit * 24) :
    State.clock^[s.cfg.tbit * 24 * q + m] s = (State.sendPosition^[q] s).within m := by
  rw [clock_add, clock_to_position h h0 hq, clock_within (atPosition_iterate h h0 hq)]
  rwa [cfg_sendPosition_iterate]

theorem posLevel_place (p : Params) (r : List Color) (k : Nat) (hj : j < p.tbit) :
    posLevel p r (p.tbit * k + j) = bitLevel p (patternOf p r k) j := by
  rw [posLevel, Nat.mul_add_div (by omega), Nat.mul_add_mod, Nat.div_eq_of_lt hj, Nat.mod_eq_of_lt hj, Nat.add_zero]

/-- In `LATCH` the block stands `m` cycles into the latch hold, with the port low (R148). -/
theorem clock_latch_within (hp : s.phase = .latch) (hq : s.rspValid = false) (h0 : s.lcnt = 0) (ho : s.port = 0)
    (hm : m < s.cfg.tLatch) :
    State.clock^[m] s = { s with lcnt := m, wave := pushWave 0 m s.wave } := by
  induction m with
  | zero =>
    rw [pushWave_zero]
    exact congrArg (fun n => { s with lcnt := n }) h0
  | succ m ih =>
    rw [Function.iterate_succ_apply', ih (Nat.lt_of_succ_lt hm), clock_latch_cycle (by exact hp) (by exact hq) (by exact ho)]
    simp only [State.emit, pushWave_pushWave, State.latchCycle, if_pos hm, State.setLcnt]

/-- `SR` holds the words of position 0 when `SHIFT` starts (R149). -/
theorem sr_shiftStart (s : State) : ∀ c < s.cfg.n, s.shiftStart.sr.getD c 0#24 = s.ledWord c 0 := by
  intro c hc
  have hword : (s.begin .scan).ledWord c 0 = s.ledWord c 0 :=
    ledWord_congr (begin_cfg s .scan) (begin_fb s .scan) (begin_palc s .scan) (begin_resets s .scan) c 0
  exact ((fetch_iterate_nx 0 s.cfg.n (s.begin .scan) rfl).2 c hc).trans hword

/-- The port while chain position `q` is on the wire shows the words of that position (R146). -/
theorem port_shift_within (s : State) (hq : q < s.cfg.l) (k : Nat) (hj : j < s.cfg.tbit) :
    ((State.sendPosition^[q] s.shiftStart).within (s.cfg.tbit * k + j)).port =
      bitLevel s.cfg.toParams (patternOf s.cfg.toParams (s.ledWords q) k) j := by
  have hword : ∀ c q, s.shiftStart.ledWord c q = s.ledWord c q :=
    ledWord_congr (cfg_shiftStart s) (memories_shiftStart s).1 (memories_shiftStart s).2 (resets_shiftStart s)
  have hcfg : (State.sendPosition^[q] s.shiftStart).cfg = s.cfg := (cfg_sendPosition_iterate q _).trans (cfg_shiftStart s)
  have hsr : ∀ c < s.cfg.n, (State.sendPosition^[q] s.shiftStart).sr.getD c 0#24 = (s.ledWords q).getD c 0#24 := by
    intro c hc
    rw [getD_ledWords s q hc, ← hword]
    rw [← cfg_shiftStart s] at hc hq
    refine ((sendPosition_iterate_spec s.shiftStart rfl rfl (fun c hc => ?_) q hq.le).2 hq).2 c hc
    rw [hword, sr_shiftStart s c (by rwa [← cfg_shiftStart s])]
  rw [within_frame]
  simp only [hcfg]
  rw [posLevel_place _ _ k hj, patternOf_congr hsr]

/-- The start of phase `LATCH` of a scan accepted in `s` (R148). -/
def State.latchStart (s : State) : State := (shiftBody s.shiftStart).enter .latch

theorem cfg_latchStart (s : State) : s.latchStart.cfg = s.cfg :=
  (cfg_sendPosition_iterate s.shiftStart.cfg.l s.shiftStart).trans (cfg_shiftStart s)

theorem rspValid_latchStart (s : State) : s.latchStart.rspValid = false :=
  (shiftBody_rspValid s.shiftStart).trans (prefetchBody_rspValid _)

theorem clock_to_shiftStart (ha : s.colorsAnswered) : State.clock^[s.cfg.n] (s.begin .scan) = s.shiftStart :=
  clock_prefetch (b := s.begin .scan) rfl rfl rfl ha

theorem clock_to_latchStart (ha : s.colorsAnswered) :
    State.clock^[s.cfg.tbit * (24 * s.cfg.l)] s.shiftStart = s.latchStart := by
  have hshift := clock_shift (atPosition_shiftStart ha) rfl
  rwa [cfg_shiftStart, Nat.mul_assoc] at hshift

/-- After the latch hold the scan is complete (R148, R149). -/
theorem clock_to_effect_scan (s : State) : State.clock^[s.cfg.tLatch] s.latchStart = effect .scan (s.begin .scan) := by
  have hlatch := clock_latch (s := s.latchStart) rfl (rspValid_latchStart s) rfl rfl
  have hop : (scanBody (s.begin .scan)).opcode = Instr.scan.opcode := (scanBody_opcode _).trans (begin_opcode s .scan)
  rw [cfg_latchStart] at hlatch
  exact hlatch.trans (if_pos hop)

/-- Settles O52: the cycles of the three phases, one phase after the other, with the port of each. -/
theorem scanPortByCycle : Obligations.ScanPortByCycle := by
  intro s hf hp ha
  have hlast : State.clock^[s.cfg.n + s.cfg.tbit * (24 * s.cfg.l) + s.cfg.tLatch] (s.begin .scan) =
      effect .scan (s.begin .scan) := by
    rw [clock_add, clock_add, clock_to_shiftStart ha, clock_to_latchStart ha, clock_to_effect_scan]
  refine ⟨s.cfg.n, fun m hm => ?_, fun n hn j hj => ?_, fun m hm => ?_, ?_, ?_⟩
  · rw [clock_prefetch_within (b := s.begin .scan) rfl rfl rfl ha hm, fetch_iterate_frame]
    exact ⟨rfl, rfl⟩
  · have hq : n / 24 < s.cfg.l := Nat.div_lt_of_lt_mul hn
    have hk : n % 24 < 24 := Nat.mod_lt n (by decide)
    have hcfg := cfg_shiftStart s
    have hplace : s.cfg.tbit * n + j = s.cfg.tbit * 24 * (n / 24) + (s.cfg.tbit * (n % 24) + j) := by
      rw [Nat.mul_assoc, ← Nat.add_assoc, ← Nat.mul_add, Nat.div_add_mod]
    have hwithin := clock_shift_within (atPosition_shiftStart ha) rfl (hcfg.symm ▸ hq) (hcfg.symm ▸ place_lt hk hj)
    rw [hcfg] at hwithin
    rw [clock_add, clock_to_shiftStart ha, hplace, hwithin, port_shift_within s hq _ hj, bitLevel_ledWords s _ hk,
      within_frame]
    exact ⟨(atPosition_iterate (atPosition_shiftStart ha) rfl (hcfg.symm ▸ hq)).phase, rfl⟩
  · have hwithin := clock_latch_within (s := s.latchStart) rfl (rspValid_latchStart s) rfl rfl
      ((cfg_latchStart s).symm ▸ hm)
    rw [clock_add, clock_add, clock_to_shiftStart ha, clock_to_latchStart ha, hwithin]
    exact ⟨rfl, rfl⟩
  · rw [hlast]
    rfl
  · rw [hlast]
    exact exec_scan hf hp ha

end Sys2Proof.Machine
end

section
/-!
PROOFS. The tick loop: `TICK` as `SIM`, `SCAN` and the idle delay, and a pass of `RUN` as a tick that does not answer
(R171, R172, R175).
-/

namespace Sys2Proof.Machine

variable {i : Instr} {s : State}

/-- With both ports answering no command but `PALINIT` waits for ever (R190 d). -/
theorem neverAnswered_of_answered (hi : i ≠ .palinit) (hr : s.rngStuck = false) (ha : s.colorsAnswered) :
    neverAnswered i s = none := by
  refine neverAnswered_eq_none.2 ⟨fun _ => hr, fun hu => ?_⟩
  obtain hm | hsilent := ha
  · simp [usesColorSource, hi, hm] at hu
  · exact hsilent

/-- With both flags set and both ports answering `TICK` completes (R171). -/
theorem exec_tick (hf : s.fbv = true) (hp : s.palvOut = true) (hr : s.rngStuck = false) (ha : s.colorsAnswered) :
    exec .tick s = .next (effect .tick (s.begin .tick)) :=
  exec_accepted (acceptError_of_ready hf hp rfl) (neverAnswered_of_answered nofun hr ha)

/-- With both flags set and both ports answering the first pass of `RUN` completes (R172). -/
theorem exec_run (hf : s.fbv = true) (hp : s.palvOut = true) (hr : s.rngStuck = false) (ha : s.colorsAnswered) :
    exec .run s = .next (effect .run (s.begin .run)) :=
  exec_accepted (acceptError_of_ready hf hp rfl) (neverAnswered_of_answered nofun hr ha)

/-- `SCAN` after `SIM` starts where `TICK` goes on to its scan, but for the command word and the response. -/
theorem begin_scan_after_sim (s : State) :
    (effect .sim (s.begin .sim)).begin .scan =
      ((simBody (s.begin .sim)).enter .prefetch).withFront (encode .scan) 0#32 false := rfl

/-- `TICK` starts where `SIM` does, but for the command word. -/
theorem begin_tick_eq (s : State) : s.begin .tick = (s.begin .sim).withFront (encode .tick) s.rsp false := rfl

/-- The scan of a tick follows its simulation step as `SCAN` follows `SIM`, and the idle delay follows the scan (R171, R175). -/
theorem effect_tick_after_sim_scan (s : State) :
    effect .tick (s.begin .tick) =
      { effect .scan ((effect .sim (s.begin .sim)).begin .scan) with
        cmdr := encode .tick
        wave := pushWave 0 s.cfg.tIdle (effect .scan ((effect .sim (s.begin .sim)).begin .scan)).wave
        icnt := s.cfg.tIdle } := by
  have hcfg : (scanBody ((simBody (s.begin .sim)).enter .prefetch)).cfg = s.cfg :=
    cfg_of_outer (s := s) (by rw [outer_scanBody, outer_enter, outer_simBody, outer_begin])
  rw [begin_scan_after_sim, effect, effect, scanBody_withFront, begin_tick_eq, tickBody_withFront, ← hcfg]
  rfl

/-- Settles O35: the scan of a tick sees neither the command word nor the response that `SIM` leaves. -/
theorem tickIsSimThenScan : Obligations.TickIsSimThenScan := by
  intro s hf hp hr ha
  have houter : (effect .sim (s.begin .sim)).outer = s.outer := by rw [outer_effect, outer_begin]
  have hf' : (effect .sim (s.begin .sim)).fbv = true := by rw [effect_begin_frame]; exact hf
  have hp' : (effect .sim (s.begin .sim)).palvOut = true := by rw [effect_begin_frame]; exact hp
  refine ⟨_, _, exec_sim hf hr, exec_scan hf' hp' (colorsAnswered_of_outer houter ha), ?_⟩
  rw [exec_tick hf hp hr ha, effect_tick_after_sim_scan]
  rfl

/-- A pass of `RUN`, under any command word `w` and response word `r`, is a tick whose answer is kept back (R172). -/
theorem effect_run_withFront (b : State) (w r : Word32) :
    effect .run (b.withFront w r false) =
      { effect .tick b with phase := .inject, cmdr := w, rsp := r, rspValid := false } := by
  rw [effect, effect, tickBody_withFront, tickBody_frame]
  rfl

/-- `RUN` starts where `TICK` does, but for the command word. -/
theorem begin_run_eq (s : State) : s.begin .run = (s.begin .tick).withFront (encode .run) s.rsp false := rfl

/-- Settles O36: `RUN` makes the tick of `TICK`, and enters phase `INJECT` where `TICK` answers. -/
theorem runStartsWithATick : Obligations.RunStartsWithATick := by
  intro s hf hp hr ha
  refine ⟨_, exec_tick hf hp hr ha, ?_⟩
  rw [exec_run hf hp hr ha, begin_run_eq, effect_run_withFront]
  rfl

/-- A `RUN` at the start of a pass whose ports answer makes the pass (R172). -/
theorem goOn_of_run (hp : s.phase = .inject) (hw : s.cmdr = encode .run) (hr : s.rngStuck = false) (ha : s.colorsAnswered) :
    goOn s = .next (effect .run s.quiet) := by
  unfold goOn runPass
  rw [if_pos ⟨hp, opcode_of_cmdr hw⟩, neverAnswered_of_answered (i := .run) (by decide) hr ha]
  rfl

/-- Outside `IDLE` and `HALT` the block goes on by itself, whether or not a word is presented (R84). -/
theorem step_of_busy {l : List HostAct} (hidle : s.phase ≠ .idle) (hhalt : s.phase ≠ .halt)
    (ht : s.todo = [] ∧ l = [] ∨ s.todo = .wait :: l ∨ ∃ w, s.todo = .cmd w :: l) : step s = goOn (s.setTodo l) := by
  obtain ⟨ht, rfl⟩ | ht | ⟨w, ht⟩ := ht
  · rw [step_of_nil ht, if_neg hhalt, ← ht]
    rfl
  · exact step_of_todo ht
  · exact (step_of_todo ht).trans (react_cmd_busy w (s.setTodo l) hidle)

/-- A tick makes its own request, so a request that was open before it plays no part (R57). -/
theorem effect_run_of_rngWait (b : State) (v : Bool) : effect .run { b with rngWait := v } = effect .run b := rfl

/-- A pass of `RUN` starts where a `TICK` from `IDLE` does, but for the command word and a request that may be open. -/
theorem quiet_eq_begin_tick (hp : s.phase = .inject) :
    s.quiet =
      { (State.begin { s with phase := .idle } .tick).withFront s.cmdr s.rsp false with rngWait := s.rngWait } := by
  unfold State.quiet
  rw [hp]
  rfl

/-- Settles O37: the block goes on by itself, from where a `TICK` would start, and keeps the answer back. -/
theorem runPassIsATick : Obligations.RunPassIsATick := by
  intro s l hphase hw ht hf hp hr ha
  refine ⟨_, exec_tick (s := { s with phase := .idle, todo := l }) hf hp hr ha, ?_⟩
  rw [step_of_busy (by rw [hphase]; decide) (by rw [hphase]; decide) ht, goOn_of_run (s := s.setTodo l) hphase hw hr ha,
    quiet_eq_begin_tick (s := s.setTodo l) hphase, effect_run_of_rngWait, effect_run_withFront, ← hw]
  rfl

/-- A pass of `RUN` ends at the start of the next one with one more byte drawn, and neither answers nor faults (R57, R172). -/
theorem effect_run_end (b : State) :
    (effect .run b).phase = .inject ∧ (effect .run b).opcode = b.opcode ∧ (effect .run b).rspValid = b.rspValid ∧
      (effect .run b).errcode = b.errcode ∧ (effect .run b).draws = b.draws + 1 := by
  rw [effect, tickBody_frame]
  exact ⟨rfl, rfl, rfl, rfl, rfl⟩

/-- Settles O38: of what a step can do, only a pass of `RUN` starts from there without a reset. -/
theorem runNeverEnds : Obligations.RunNeverEnds := by
  intro s s' hp hop hrst hcut h
  obtain ⟨u, l, rfl, -, hgo⟩ | ⟨w, l, -, hidle, -⟩ | ⟨l, ht, -⟩ | ⟨w, n, l, ht, -⟩ := step_cases h
  · obtain ⟨-, -, -, rfl⟩ | ⟨hnot, -, -⟩ := goOn_cases hgo
    · obtain ⟨hphase, hopcode, hvalid, herr, hdraws⟩ := effect_run_end (s.setTodo l).quiet
      exact ⟨hphase, hopcode.trans hop, hvalid, herr, hdraws⟩
    · exact absurd ⟨hp, hop⟩ hnot
  · exact absurd (hp.symm.trans hidle) (by decide)
  · exact absurd ht (hrst l)
  · exact absurd ht (hcut w n l)

end Sys2Proof.Machine
end

section
/-!
PROOFS. The phase-transition relation, phase by phase: where a cycle leads, and that it leads to `IDLE` with a response only
(R77, R171, R173).
-/

namespace Sys2Proof.Machine

/-- Command `i` leaves phase `p` by an edge of R173 that ends in this state, in `IDLE` with a response (R77). -/
def State.ends (s : State) (i : Instr) (p : Phase) : Prop :=
  phaseEdge i p s.phase = true ∧ (s.phase = .idle → s.rspValid = true)

variable {i : Instr} {s : State} {p : Phase}

theorem respond_ends (s : State) (v : Word32) (h : phaseEdge i p .idle = true) : (s.respond v).ends i p := ⟨h, fun _ => rfl⟩

/-- An edge that does not lead to `IDLE` needs no response. -/
theorem ends_of_phase {q : Phase} (hp : s.phase = q) (h : phaseEdge i p q = true) (hq : q ≠ .idle) : s.ends i p :=
  ⟨hp ▸ h, fun hidle => absurd (hp.symm.trans hidle) hq⟩

theorem enter_ends (s : State) (q : Phase) (h : phaseEdge i p q = true) (hq : q ≠ .idle) : (s.enter q).ends i p :=
  ends_of_phase (s.enter_phase q) h hq

/-! The ends of the phases: the sequencer branches on the operation code of the command in progress. -/

theorem afterInject_ends (hw : s.cmdr = encode i) (hi : usesRng i = true) : s.afterInject.ends i .inject := by
  have hop := opcode_of_cmdr hw
  unfold State.afterInject
  rw [hop]
  cases i with
  | inject => exact respond_ends s _ rfl
  | sim => exact enter_ends s .diffuse rfl nofun
  | tick => exact enter_ends s .diffuse rfl nofun
  | run => exact enter_ends s .diffuse rfl nofun
  | _ => cases hi

theorem afterDiffuse_ends (hw : s.cmdr = encode i) (hi : passesDiffuse i = true) : s.afterDiffuse.ends i .diffuse := by
  have hop := opcode_of_cmdr hw
  unfold State.afterDiffuse
  rw [hop]
  cases i with
  | diffuse => exact respond_ends s _ rfl
  | sim => exact respond_ends s _ rfl
  | tick => exact enter_ends s .prefetch rfl nofun
  | run => exact enter_ends s .prefetch rfl nofun
  | _ => cases hi

theorem afterIdle_ends (hw : s.cmdr = encode i) (hi : passesIdle i = true) : s.afterIdle.ends i .idledly := by
  have hop := opcode_of_cmdr hw
  unfold State.afterIdle
  rw [hop]
  cases i with
  | tick => exact respond_ends s _ rfl
  | run => exact enter_ends s .inject rfl nofun
  | _ => cases hi

/-- With `T_IDLE = 0` the idle delay ends in the cycle in which it would start (R171). -/
def State.endsThroughIdle (s : State) (i : Instr) (p : Phase) : Prop :=
  s.cfg.tIdle = 0 ∧ phaseEdge i p .idledly = true ∧ s.ends i .idledly

theorem eq_scan_of_opcode (h : i.opcode = Instr.scan.opcode) : i = .scan := by
  cases i with
  | scan => rfl
  | _ => cases h

theorem afterLatch_ends (hw : s.cmdr = encode i) (hi : passesScan i = true) :
    s.afterLatch.ends i .latch ∨ s.afterLatch.endsThroughIdle i .latch := by
  have hop := opcode_of_cmdr hw
  unfold State.afterLatch
  rw [hop]
  split
  · next hscan => exact .inl (respond_ends s _ (decide_eq_true (eq_scan_of_opcode hscan)))
  · next hscan =>
    have hidle := passesIdle_of_passesScan hi hscan
    split
    · next ht =>
      have hcfg : (s.enter .idledly).afterIdle.cfg = s.cfg := cfg_of_outer (outer_afterIdle (s.enter .idledly))
      exact .inr ⟨by rw [hcfg]; exact ht, hidle, afterIdle_ends (s := s.enter .idledly) hw hidle⟩
    · exact .inl (enter_ends s .idledly hidle nofun)

/-! The cycles of each phase: the phase stays, or it ends by an edge. -/

theorem fbinitCycle_ends (hi : phaseEdge i .fbinit .idle = true) :
    s.fbinitCycle.phase = s.phase ∨ s.fbinitCycle.ends i .fbinit := by
  unfold State.fbinitCycle
  split
  · exact .inl rfl
  · exact .inr (respond_ends _ _ hi)

theorem palinitCycle_ends (hi : phaseEdge i .palinit .idle = true) :
    s.palinitCycle.phase = s.phase ∨ s.palinitCycle.ends i .palinit := by
  unfold State.palinitCycle
  split
  · split
    · exact .inl (phase_awaitColor s)
    · split
      · exact .inl rfl
      · exact .inr (respond_ends _ _ hi)
  · exact .inr (respond_ends s _ hi)

theorem accessCycle_ends (hi : phaseEdge i .access .idle = true) :
    s.accessCycle.phase = s.phase ∨ s.accessCycle.ends i .access := by
  unfold State.accessCycle
  split
  · exact .inr (respond_ends _ _ hi)
  · exact .inr (respond_ends s _ hi)
  · split
    · exact .inl (phase_awaitColor s)
    · exact .inr (respond_ends _ _ hi)
  · exact .inr (respond_ends s _ hi)
  · exact .inr (respond_ends s _ hi)

theorem injectCycle_ends (hw : s.cmdr = encode i) (hi : usesRng i = true) :
    s.injectCycle.phase = s.phase ∨ s.injectCycle.ends i .inject := by
  have hdrawn : (injectBody s).afterInject.ends i .inject := afterInject_ends hw hi
  unfold State.injectCycle
  split
  · exact .inl rfl
  · exact .inr hdrawn
  · split
    · exact .inl rfl
    · exact .inr hdrawn

theorem diffuseCycle_ends (hw : s.cmdr = encode i) (hi : passesDiffuse i = true) :
    s.diffuseCycle.phase = s.phase ∨ s.diffuseCycle.ends i .diffuse := by
  unfold State.diffuseCycle
  split
  · exact .inl (phase_diffuseOne s)
  · exact .inr (afterDiffuse_ends (by rw [diffuseOne_frame]; exact hw) hi)

theorem prefetchCycle_ends (hi : passesScan i = true) :
    s.prefetchCycle.phase = s.phase ∨ s.prefetchCycle.ends i .prefetch :=
  (phase_prefetchCycle s).imp_right fun hp => ends_of_phase (q := .shift) hp hi nofun

theorem shiftCycle_ends (hi : passesScan i = true) : s.shiftCycle.phase = s.phase ∨ s.shiftCycle.ends i .shift :=
  (phase_shiftCycle s).imp_right fun hp => ends_of_phase (q := .latch) hp hi nofun

theorem latchCycle_ends (hw : s.cmdr = encode i) (hi : passesScan i = true) :
    s.latchCycle.phase = s.phase ∨ s.latchCycle.ends i .latch ∨ s.latchCycle.endsThroughIdle i .latch := by
  unfold State.latchCycle
  split
  · exact .inl rfl
  · exact .inr (afterLatch_ends hw hi)

theorem idleCycle_ends (hw : s.cmdr = encode i) (hi : passesIdle i = true) :
    s.idleCycle.phase = s.phase ∨ s.idleCycle.ends i .idledly := by
  unfold State.idleCycle
  split
  · exact .inl rfl
  · exact .inr (afterIdle_ends hw hi)

/-- The command in progress is the one whose word stands in `CMDR` (R21). -/
theorem State.executing.of_cmdr {pass : Instr → Bool} (h : s.executing pass) (hw : s.cmdr = encode i) : pass i = true := by
  obtain ⟨j, hj, -, hpass⟩ := h
  have hsame : decode (encode i) = decode (encode j) := congrArg decode (hw.symm.trans hj)
  rw [decode_encode, decode_encode] at hsame
  rwa [Except.ok.inj hsame]

/-- A cycle of a command in progress stays in its phase or ends it by an edge (R173). -/
theorem clock_ends (h : s.Inv) (hw : s.cmdr = encode i) (hidle : s.phase ≠ .idle) (hhalt : s.phase ≠ .halt) :
    s.clock.phase = s.phase ∨ s.clock.ends i s.phase ∨ s.clock.endsThroughIdle i s.phase := by
  cases hp : s.phase with
  | idle => exact absurd hp hidle
  | halt => exact absurd hp hhalt
  | fbinit =>
    obtain ⟨-, -, ⟨hex, -⟩, -⟩ := h.busy hp (by decide)
    rw [clock_of_fbinit hp]
    exact (fbinitCycle_ends (s := s.quiet) (hex.of_cmdr hw)).imp (·.trans hp) .inl
  | palinit =>
    obtain ⟨-, -, ⟨hex, -⟩, -⟩ := h.busy hp (by decide)
    rw [clock_of_palinit hp]
    exact (palinitCycle_ends (s := s.quiet) (hex.of_cmdr hw)).imp (·.trans hp) .inl
  | access =>
    obtain ⟨-, -, hex, -⟩ := h.busy hp (by decide)
    rw [clock_of_access hp]
    exact (accessCycle_ends (s := s.quiet) (State.executing.of_cmdr hex hw)).imp (·.trans hp) .inl
  | inject =>
    obtain ⟨-, -, hex, -⟩ := h.busy hp (by decide)
    rw [clock_of_inject hp]
    exact (injectCycle_ends (s := s.quiet) hw (State.executing.of_cmdr hex hw)).imp (·.trans hp) .inl
  | diffuse =>
    obtain ⟨-, -, ⟨hex, -⟩, -⟩ := h.busy hp (by decide)
    rw [clock_of_diffuse hp]
    exact (diffuseCycle_ends (s := s.quiet) hw (hex.of_cmdr hw)).imp (·.trans hp) .inl
  | prefetch =>
    obtain ⟨-, -, ⟨hex, -⟩, -⟩ := h.busy hp (by decide)
    rw [clock_of_prefetch hp]
    exact (prefetchCycle_ends (s := s.quiet) (hex.of_cmdr hw)).imp (·.trans hp) .inl
  | shift =>
    obtain ⟨-, -, ⟨hex, -⟩, -⟩ := h.busy hp (by decide)
    rw [clock_of_shift hp]
    exact (shiftCycle_ends (s := (s.emit s.port 1).quiet) (hex.of_cmdr hw)).imp (·.trans hp) .inl
  | latch =>
    obtain ⟨-, -, ⟨hex, -⟩, -⟩ := h.busy hp (by decide)
    rw [clock_of_latch hp]
    exact (latchCycle_ends (s := (s.emit s.port 1).quiet) hw (hex.of_cmdr hw)).imp_left (·.trans hp)
  | idledly =>
    obtain ⟨-, -, ⟨hex, -⟩, -⟩ := h.busy hp (by decide)
    rw [clock_of_idledly hp]
    exact (idleCycle_ends (s := (s.emit s.port 1).quiet) hw (hex.of_cmdr hw)).imp (·.trans hp) .inl

/-- Acceptance starts the command that the word decodes to, or takes a fault (R84, R191). -/
theorem accept_phase (s : State) (w : Word32) :
    (∃ i, decode w = .ok i ∧ acceptError i s = none ∧ (s.accept w).phase = firstPhase i) ∨
      (((∃ r, decode w = .error r) ∨ ∃ i, decode w = .ok i ∧ acceptError i s ≠ none) ∧ (s.accept w).phase = .halt) := by
  unfold State.accept
  split
  · next r hr => exact .inr ⟨.inl ⟨r, hr⟩, rfl⟩
  · next i hi =>
    split
    · next e he => exact .inr ⟨.inr ⟨i, hi, by rw [he]; exact nofun⟩, rfl⟩
    · next hok => exact .inl ⟨i, hi, hok, begin_phase s i⟩

/-- Settles O50: each phase's cycle stays or takes an edge, and an edge into `IDLE` is a response; the rest is acceptance. -/
theorem phaseTransitions : Obligations.PhaseTransitions := by
  intro s w h
  refine ⟨fun i hw hidle hhalt => ?_, fun hp => ⟨accept_phase s w, ?_⟩, fun hp => ?_, rfl⟩
  · have hresponse := h.clock.response
    obtain hstay | ⟨hedge, hanswer⟩ | ⟨ht, hdelay, hedge, hanswer⟩ := clock_ends h hw hidle hhalt
    · exact ⟨.inl hstay, fun hc => absurd (hstay.symm.trans hc) hidle, hresponse⟩
    · exact ⟨.inr (.inl hedge), hanswer, hresponse⟩
    · have hcfg : s.clock.cfg = s.cfg := cfg_of_outer (outer_clock s)
      exact ⟨.inr (.inr ⟨hcfg ▸ ht, hdelay, hedge⟩), hanswer, hresponse⟩
  · rw [clock_of_idle hp]
    exact hp
  · rw [clock_of_halt hp]
    exact hp

end Sys2Proof.Machine
end

section
/-!
PROOFS. The faults at acceptance: the four checks in their order, and fault entry (R186 to R193).
-/

namespace Sys2Proof.Machine

variable {i : Instr} {s : State} {e : ErrCode}

/-- A command that fails a check at acceptance takes the fault and has no effect of its own (R192, R193). -/
theorem exec_of_acceptError (h : acceptError i s = some e) : exec i s = .next (s.raiseFault e (encode i)) := by
  rw [exec_eq_command, command_fault h]

/-- Settles O9: the next state is `State.raiseFault`. -/
theorem faultEntry : Obligations.FaultEntry := fun _ _ _ => exec_of_acceptError

/-- A command is well formed when every coordinate it names is one of the build's (R76). -/
theorem wellFormed_iff {p : Params} :
    i.wellFormed p = true ↔ ∀ x y, i.coords = some (x, y) → x.toNat < p.w ∧ y.toNat < p.h := by
  unfold Instr.wellFormed
  split
  · next hc => simp [hc]
  · next x y hc => simp [hc]

/-- The second check: a coordinate out of range is the cause whatever the flags are (R187, R191). -/
theorem acceptError_range (hw : i.wellFormed s.cfg.toParams = false) : acceptError i s = some .range := if_pos hw

/-- The third check: with its operands in range, `FBV = 0` is the cause whatever `PALV` is (R188, R191). -/
theorem acceptError_fbUninit (hw : i.wellFormed s.cfg.toParams = true) (hu : usesFb i = true) (hf : s.fbv = false) :
    acceptError i s = some .fbUninit := by
  simp [acceptError, hw, hu, hf]

/-- The fourth check: `PALV = 0` is the cause when the first three hold (R189, R191). -/
theorem acceptError_palUninit (hw : i.wellFormed s.cfg.toParams = true) (hfb : usesFb i = true → s.fbv = true)
    (hu : usesPalette i = true) (hp : s.palvOut = false) : acceptError i s = some .palUninit := by
  have hfb' : (usesFb i && !s.fbv) = false := by simpa using hfb
  simp [acceptError, hw, hfb', hu, hp]

/-- Every command but `FBINIT`, `PALINIT` and `LOOKUP` uses the frame buffer (R185, row 3). -/
theorem usesFb_of_ne (hfill : i ≠ .fbinit) (hpal : i ≠ .palinit) (hlookup : ∀ k, i ≠ .lookup k) : usesFb i = true := by
  cases i with
  | fbinit => exact absurd rfl hfill
  | palinit => exact absurd rfl hpal
  | lookup k => exact absurd rfl (hlookup k)
  | _ => rfl

/-- A presented word whose command fails a check halts the block with the check's cause (R84, R191, R192). -/
theorem step_of_acceptError {w : Word32} {l : List HostAct} (hp : s.phase = .idle) (ht : s.todo = .cmd w :: l)
    (hi : decode w = .ok i) (he : acceptError i s = some e) :
    ∃ t, step s = .next t ∧ t.phase = .halt ∧ t.errcode = e := by
  refine ⟨(s.setTodo l).raiseFault e (encode i), ?_, rfl, rfl⟩
  rw [step_of_word hp ht, acceptWord_ok hi]
  exact exec_of_acceptError (s := s.setTodo l) he

/-- Settles O8: each clause's hypotheses pass the checks before its own and fail that one. -/
theorem faultPriority : Obligations.FaultPriority := by
  intro s w l hp ht
  refine ⟨fun r hr => ?_, fun i hi => ⟨fun x y hc hout => ?_, fun hin => ⟨fun hne hf => ?_, fun hcmd hm hpv => ?_⟩⟩⟩
  · exact ⟨_, (step_of_word hp ht).trans (acceptWord_error hr), rfl, rfl⟩
  · refine step_of_acceptError hp ht hi (acceptError_range (Bool.eq_false_iff.2 fun hw => ?_))
    have hin := wellFormed_iff.1 hw x y hc
    omega
  · obtain ⟨hfill, hpal, hlookup⟩ := hne
    exact step_of_acceptError hp ht hi (acceptError_fbUninit (wellFormed_iff.2 hin) (usesFb_of_ne hfill hpal hlookup) hf)
  · have hpout : s.palvOut = false := by simp [State.palvOut, hm, hpv]
    refine step_of_acceptError hp ht hi (acceptError_palUninit (wellFormed_iff.2 hin) ?_ ?_ hpout)
    · obtain ⟨k, rfl⟩ | ⟨hf, -⟩ := hcmd
      · exact nofun
      · exact fun _ => hf
    · obtain ⟨k, rfl⟩ | ⟨-, rfl | rfl | rfl⟩ := hcmd <;> rfl

end Sys2Proof.Machine
end

section
/-!
PROOFS. `HALT`: nothing but a reset leaves it (R173, R194).
-/

namespace Sys2Proof.Machine

variable {s : State}

/-- A halted block waits on no port. -/
theorem stuck_of_halt (h : s.phase = .halt) : s.stuck = none := by
  simp [State.stuck, State.colorStuck, State.fetching, h]

/-- A halted block left to itself stays as it is (R173, R194). -/
theorem goOn_of_halt (h : s.phase = .halt) : goOn s = .next { s with rspValid := false } := by
  unfold goOn
  rw [if_neg (by simp [h]), stuck_of_halt h, clock_of_halt h]
  rfl

/-- A reset clears the cause and the flags; `PALV` is cleared in RAM mode only, where it is a register (R29, R194, R211). -/
theorem applyReset_clears (s : State) :
    s.applyReset.phase = .idle ∧ s.applyReset.errcode = .none ∧ s.applyReset.errinfo = 0#32 ∧
      s.applyReset.fbv = false ∧ (s.cfg.palMode = .ram → s.applyReset.palv = false) :=
  ⟨rfl, rfl, rfl, rfl, fun hm => by simp [State.resetOf, hm]⟩

/-- Settles O10: the block halted goes on as it is, a word is ignored, and both resets end in `State.applyReset`. -/
theorem haltLeftByResetOnly : Obligations.HaltLeftByResetOnly := by
  intro s hp
  refine ⟨fun ht => ?_, fun a l ht ha => ?_, fun a l ht ha => ?_⟩
  · rw [step_of_nil ht, if_pos hp]
  · rw [step_of_todo ht]
    obtain rfl | ⟨w, rfl⟩ := ha
    · exact goOn_of_halt (s := s.setTodo l) hp
    · rw [react_cmd_busy w (s.setTodo l) (by simp [hp])]
      exact goOn_of_halt (s := s.setTodo l) hp
  · rw [step_of_todo ht]
    obtain rfl | ⟨w, n, rfl⟩ := ha
    · exact ⟨_, rfl, applyReset_clears (s.setTodo l)⟩
    · have hcfg : (State.clock^[n] ((s.setTodo l).offer w)).cfg = s.cfg :=
        cfg_of_outer (s := s.setTodo l) (by rw [outer_clocks, outer_offer])
      exact ⟨_, rfl, hcfg ▸ applyReset_clears (State.clock^[n] ((s.setTodo l).offer w))⟩

end Sys2Proof.Machine
end

section
/-!
PROOFS. The waits without end: a port that never answers a command (R190 d, U9).
-/

namespace Sys2Proof.Machine

variable {i : Instr} {s : State}

/-- An accepted command that waits for ever on a port has no next state (R190 d). -/
theorem exec_of_neverAnswered {f : Fault} (h : acceptError i s = none) (hn : neverAnswered i s = some f) :
    exec i s = .fault f := by
  simp [exec_eq_command, command, h, hn]

/-- The RandomSource never answers when it is silent and its script holds no byte. -/
theorem rngStuck_iff : s.rngStuck = true ↔ s.rngSilent = true ∧ ∀ x ∈ s.rngScript, x = none := by
  simp [State.rngStuck]

/-- A RandomSource that is not silent, or whose script still holds a byte, answers (R57). -/
theorem rngStuck_eq_false (h : s.rngSilent = false ∨ ∃ b, some b ∈ s.rngScript) : s.rngStuck = false := by
  refine Bool.eq_false_iff.2 fun hs => ?_
  obtain ⟨hsilent, hnone⟩ := rngStuck_iff.1 hs
  obtain hr | ⟨b, hb⟩ := h
  · exact absurd (hr.symm.trans hsilent) nofun
  · exact absurd (hnone _ hb) nofun

/-- A command that draws waits for ever on a RandomSource that never answers (R190 d). -/
theorem neverAnswered_rngSilent (hu : usesRng i = true) (hs : s.rngStuck = true) :
    neverAnswered i s = some .rngSilent := by
  simp [neverAnswered, hu, hs]

/-- A command whose draw, if it makes one, is answered waits for ever on a silent color source it asks (R190 d). -/
theorem neverAnswered_palSilent (hr : usesRng i = true → s.rngStuck = false)
    (hu : usesColorSource s.cfg.palMode i = true) (hs : s.palSilent = true) : neverAnswered i s = some .palSilent := by
  have hr' : (usesRng i && s.rngStuck) = false := by simpa using hr
  simp [neverAnswered, hr', hu, hs]

/-- Outside RAM mode every command that looks up a color asks the color source (R38, R93). -/
theorem usesColorSource_of_usesPalette {m : PalMode} (hu : usesPalette i = true) (hm : m ≠ .ram) :
    usesColorSource m i = true := by
  have hne : i ≠ .palinit := by
    rintro rfl
    exact absurd hu nofun
  simp [usesColorSource, hne, hu, hm]

/-- Settles O39: an accepted command waits on the first of its ports that never answers. -/
theorem silentPortsAreStuck : Obligations.SilentPortsAreStuck := by
  intro i s hok
  refine ⟨fun hi hs hnone => ?_, fun hi hs => ?_, fun hi hm hr hs => ?_⟩
  · refine exec_of_neverAnswered hok (neverAnswered_rngSilent ?_ (rngStuck_iff.2 ⟨hs, hnone⟩))
    obtain rfl | rfl | rfl | rfl := hi <;> rfl
  · obtain ⟨rfl, hm⟩ | ⟨⟨k, rfl⟩ | rfl, hm⟩ := hi
    · exact exec_of_neverAnswered hok (neverAnswered_palSilent nofun (decide_eq_true hm) hs)
    · exact exec_of_neverAnswered hok (neverAnswered_palSilent nofun (usesColorSource_of_usesPalette rfl hm) hs)
    · exact exec_of_neverAnswered hok (neverAnswered_palSilent nofun (usesColorSource_of_usesPalette rfl hm) hs)
  · have hu : usesPalette i = true := by obtain rfl | rfl := hi <;> rfl
    exact exec_of_neverAnswered hok
      (neverAnswered_palSilent (fun _ => rngStuck_eq_false hr) (usesColorSource_of_usesPalette hu hm) hs)

end Sys2Proof.Machine
end

section
/-!
PROOFS. Reset: its values from any state, in the middle of a command and during a scan (R210 to R216, R228), and the invariant
right after it.
-/

namespace Sys2Proof.Machine

variable {s u : State}

/-- After a reset `PALV` reads 1 exactly outside RAM mode (R29, R211). -/
theorem applyReset_palvOut (s : State) : s.applyReset.palvOut = decide (s.cfg.palMode ≠ .ram) :=
  Bool.or_self _

/-- A block in `IDLE` requests no color (R61). -/
theorem palReq_of_idle (h : s.phase = .idle) : s.palReq = false :=
  Bool.eq_false_iff.2 fun hreq => by simpa [h] using wantsColor_phase (wantsColor_of_palReq hreq)

/-- A reset reads no more of the block than what no command and no cycle touches: two states that agree there are reset alike
(R210, R213). The record, the count of draws, the log of requests and the script are outside the block (R216). -/
theorem applyReset_of_outer (h : u.outer = s.outer) :
    u.applyReset =
      { s.applyReset with
        wave := u.applyReset.wave, draws := u.applyReset.draws, palLog := u.applyReset.palLog,
        rngScript := u.applyReset.rngScript } := by
  simp only [State.outer, Prod.mk.injEq] at h
  obtain ⟨hcfg, hresets, htodo, hrng, hpal⟩ := h
  simp only [State.applyReset, hcfg, hresets, htodo, hrng, hpal]

/-- The cycle that passes in `SHIFT` goes on the record (R146). -/
theorem observe_of_shift (h : s.phase = .shift) : s.observe = s.emit s.port 1 := if_pos (.inl h)

/-- Settles O11: the next state is `State.applyReset`, which is in `IDLE` with empty memories, and a block in `IDLE` requests
nothing. -/
theorem resetValues : Obligations.ResetValues := by
  intro s l ht
  have hidle : (s.setTodo l).applyReset.phase = .idle := rfl
  have hrng : (s.setTodo l).applyReset.rngReq = false := rngReq_of_phase_ne (by rw [hidle]; decide)
  exact ⟨_, step_of_todo ht, hidle, rfl, rfl, applyReset_palvOut (s.setTodo l), rfl, rfl, rfl, rfl, hrng,
    palReq_of_idle hidle, Memory.read?_nil, Memory.read?_nil, rfl, rfl⟩

/-- Settles O12: neither the word presented nor the cycles after it touch what the reset keeps of the block and its host. -/
theorem resetDuringCommand : Obligations.ResetDuringCommand := by
  intro s w n l ht
  have hcut : (State.clock^[n] ((s.setTodo l).offer w)).outer = (s.setTodo l).outer := by rw [outer_clocks, outer_offer]
  exact ⟨_, step_of_todo ht, applyReset_of_outer hcut⟩

/-- Settles O13: the reset observes the cycle it is sampled in and then leaves the port 0. -/
theorem tornScan : Obligations.TornScan := by
  intro s hp
  refine ⟨rfl, ?_⟩
  rw [State.applyReset_wave, observe_of_shift hp, State.emit_wave, waveCycles_pushWave, List.replicate_one]

/-- Settles O47: `State.reset` is the reset state of one build. -/
theorem resetMeetsInvariant : Obligations.ResetMeetsInvariant := ⟨resetOf_inv, resetOf_inv Config.sample⟩

end Sys2Proof.Machine
end
